-- ==== Sys2Proof/Word.lean ====
section
/-! DEFINITION. Word and level types of the block's ports and registers (10_state.md R14, 00_scope.md R12). -/

namespace Sys2Proof

/-- One buffer cell, one response, one data byte (R36). -/
abbrev Byte := BitVec 8

/-- A host command word on port `cmd` (R52). -/
abbrev CmdWord := BitVec 24

/-- A bus event word on port `evt` (R55). -/
abbrev EvtWord := BitVec 16

/-- The timer strobe on port `tmr` (R56). -/
abbrev TmrWord := BitVec 1

/-- A bus command word on port `bc` (R57). -/
abbrev BcWord := BitVec 10

/-- A level of the output line: `L` = 0, `H` = 1 (R12). -/
inductive Level where
  | L
  | H
  deriving DecidableEq, Repr

end Sys2Proof
end

