-- ==== Sys2Proof/Syntax.lean ====
section
/-! DEFINITION. The operations of the block's ports (30_encoding.md R53, R55, R56), the bus commands it emits (R57), and
the items of a host script (R63, R98). -/

namespace Sys2Proof

/-- The port operations: one constructor per row of spec/opcode_table.json. -/
inductive Instr where
  /-- `BEGIN_READ addr, len` (R66). -/
  | beginRead (addr : BitVec 7) (len : BitVec 8)
  /-- `SEND_BIT v` (R79). -/
  | sendBit (v : BitVec 1)
  /-- `SEND_BYTE byte` (R80). -/
  | sendByte (byte : Byte)
  /-- `RD_STATUS` (R67). -/
  | rdStatus
  /-- `RD_BUF idx` (R68). -/
  | rdBuf (idx : BitVec 8)
  /-- `EV_ADDR_ACK` (R69). -/
  | evAddrAck
  /-- `EV_BYTE_RX data` (R70). -/
  | evByteRx (data : Byte)
  /-- `EV_NACK` (R71). -/
  | evNack
  /-- `EV_ARB_LOST` (R72). -/
  | evArbLost
  /-- `EV_BUS_ERROR` (R73). -/
  | evBusError
  /-- `EV_OVF` (R82). -/
  | evOvf
  deriving DecidableEq, Repr

/-- The three input ports that carry operations (R14). -/
inductive Port where
  | cmd
  | evt
  | tmr
  deriving DecidableEq, Repr

/-- The port an operation arrives on (R53, R55, R56). -/
def Instr.port : Instr → Port
  | .beginRead _ _ => .cmd
  | .sendBit _ => .cmd
  | .sendByte _ => .cmd
  | .rdStatus => .cmd
  | .rdBuf _ => .cmd
  | .evAddrAck => .evt
  | .evByteRx _ => .evt
  | .evNack => .evt
  | .evArbLost => .evt
  | .evBusError => .evt
  | .evOvf => .tmr

/-- The bus commands the MASTER emits (R57). -/
inductive BusCmd where
  /-- `BC_START_READ ab`: start condition and the address byte with the read bit. -/
  | startRead (ab : Byte)
  /-- `BC_ACK`. -/
  | ack
  /-- `BC_NACK_STOP`. -/
  | nackStop
  /-- `BC_STOP`. -/
  | stop
  deriving DecidableEq, Repr

/-- The arithmetic of a host script. -/
inductive HostOp where
  | add
  | sub
  | mul
  | div
  | mod
  | eq
  | lt
  deriving DecidableEq, Repr

/-- A number the HOST computes from what it knows: the responses it has received and the values it has computed
(R95, R96; log entry 11). -/
inductive HostExpr where
  | const (n : Nat)
  /-- The value known `k` values ago, 0 for the latest; 0 where nothing is known. -/
  | known (k : HostExpr)
  /-- How many values are known. -/
  | count
  | op (o : HostOp) (a b : HostExpr)
  /-- `a` if `c` is not 0, else `b`. -/
  | cond (c a b : HostExpr)
  deriving DecidableEq, Repr

/-- An item of a host script: a command word; a command computed from earlier responses, a computation, a jump (R96); or
one of the pseudo-operations of the supervisory loop (R98). -/
inductive ScriptItem where
  | word (w : CmdWord)
  /-- The command word whose three bytes are the values of the expressions (R52). -/
  | command (op a b : HostExpr)
  /-- Between commands: the HOST computes a value and keeps it (R95). -/
  | compute (e : HostExpr)
  /-- Between commands: the HOST goes on at the item whose position is the value. -/
  | goTo (e : HostExpr)
  /-- `REQUEST` (R99). -/
  | request
  /-- `WAIT_DONE` (R101). -/
  | waitDone
  /-- `DRAIN` (R103). -/
  | drain
  /-- `SUPERLOOP` (R104). -/
  | superloop
  deriving DecidableEq, Repr

end Sys2Proof
end

