-- ==== Sys2Proof/Decode.lean ====
section
/-! DEFINITION. Decoder, encoder and opcode table of the port words (30_encoding.md R52 to R60). -/

namespace Sys2Proof

/-- A word on one of the input ports (R52, R55, R56). -/
inductive PortWord where
  | cmd (w : CmdWord)
  | evt (w : EvtWord)
  | tmr (w : TmrWord)
  deriving DecidableEq, Repr

/-- Why a word is no operation. -/
inductive DecodeError where
  /-- The word matches no row of its port's table (R58). -/
  | reservedEncoding
  /-- The strobe is 0: nothing is offered on `tmr` (R56). -/
  | noOperation
  deriving DecidableEq, Repr

/-- What a word decodes to: decoding is total (R59). -/
inductive Decoded where
  | instr (i : Instr)
  | error (e : DecodeError)
  deriving DecidableEq, Repr

/-! ### Fields of the command word (R52) and of the event word (R55) -/

def CmdWord.op (w : CmdWord) : BitVec 8 := w.extractLsb' 16 8
def CmdWord.a (w : CmdWord) : BitVec 8 := w.extractLsb' 8 8
def CmdWord.b (w : CmdWord) : BitVec 8 := w.extractLsb' 0 8
def EvtWord.zero (w : EvtWord) : BitVec 5 := w.extractLsb' 11 5
def EvtWord.kind (w : EvtWord) : BitVec 3 := w.extractLsb' 8 3
def EvtWord.data (w : EvtWord) : BitVec 8 := w.extractLsb' 0 8

/-! ### The decoder -/

/-- The operation when the must-be-zero bits are zero, the reserved encoding otherwise (R58). -/
def whenZero {n : Nat} (must : BitVec n) (i : Instr) : Decoded :=
  if must = 0 then .instr i else .error .reservedEncoding

/-- Decoding of a host command word (R53, R54, R58). -/
def decodeCmd (w : CmdWord) : Decoded :=
  if CmdWord.op w = 0x01 then
    whenZero (w.extractLsb' 15 1) (.beginRead (w.extractLsb' 8 7) (CmdWord.b w))
  else if CmdWord.op w = 0x02 then whenZero (w.extractLsb' 1 15) (.sendBit (w.extractLsb' 0 1))
  else if CmdWord.op w = 0x03 then whenZero (CmdWord.a w) (.sendByte (CmdWord.b w))
  else if CmdWord.op w = 0x10 then whenZero (w.extractLsb' 0 16) .rdStatus
  else if CmdWord.op w = 0x11 then whenZero (CmdWord.a w) (.rdBuf (CmdWord.b w))
  else .error .reservedEncoding

/-- Decoding of a bus event word (R55, R58). -/
def decodeEvt (w : EvtWord) : Decoded :=
  if EvtWord.zero w ≠ 0 then .error .reservedEncoding
  else if EvtWord.kind w = 0 then whenZero (EvtWord.data w) .evAddrAck
  else if EvtWord.kind w = 1 then .instr (.evByteRx (EvtWord.data w))
  else if EvtWord.kind w = 2 then whenZero (EvtWord.data w) .evNack
  else if EvtWord.kind w = 3 then whenZero (EvtWord.data w) .evArbLost
  else if EvtWord.kind w = 4 then whenZero (EvtWord.data w) .evBusError
  else .error .reservedEncoding

/-- Decoding of the timer strobe (R56). -/
def decodeTmr (w : TmrWord) : Decoded :=
  if w = 1 then .instr .evOvf else .error .noOperation

/-- Decoding is by port, then by the port's table (R59). -/
def decode : PortWord → Decoded
  | .cmd w => decodeCmd w
  | .evt w => decodeEvt w
  | .tmr w => decodeTmr w

/-! ### The encoder -/

/-- A command word from its three bytes (R52). -/
def cmdWord (op a b : BitVec 8) : CmdWord := op ++ a ++ b

/-- An event word from its kind and data, bits 15 to 11 zero (R55). -/
def evtWord (kind : BitVec 3) (data : BitVec 8) : EvtWord := 0#5 ++ kind ++ data

/-- The word of an operation, on the port it arrives on (R53, R55, R56). -/
def encode : Instr → PortWord
  | .beginRead addr len => .cmd (cmdWord 0x01 (0#1 ++ addr) len)
  | .sendBit v => .cmd (cmdWord 0x02 0 (0#7 ++ v))
  | .sendByte byte => .cmd (cmdWord 0x03 0 byte)
  | .rdStatus => .cmd (cmdWord 0x10 0 0)
  | .rdBuf idx => .cmd (cmdWord 0x11 0 idx)
  | .evAddrAck => .evt (evtWord 0 0)
  | .evByteRx data => .evt (evtWord 1 data)
  | .evNack => .evt (evtWord 2 0)
  | .evArbLost => .evt (evtWord 3 0)
  | .evBusError => .evt (evtWord 4 0)
  | .evOvf => .tmr 1

/-- The word of a bus command on port `bc` (R57). -/
def BusCmd.word : BusCmd → BcWord
  | .startRead ab => 0#2 ++ ab
  | .ack => 0x100
  | .nackStop => 0x200
  | .stop => 0x300

/-! ### The opcode table (R53, R55, R56; opcode_table.json) -/

/-- One row: a word `w` on the row's port is the row's operation when `w AND mask = pattern`. -/
structure Row where
  mnemonic : String
  port : Port
  pattern : BitVec 24
  mask : BitVec 24
  deriving DecidableEq, Repr

/-- The port a word is on. -/
def PortWord.port : PortWord → Port
  | .cmd _ => .cmd
  | .evt _ => .evt
  | .tmr _ => .tmr

/-- The bits of a word, as the opcode table numbers them, widened to the longest port. -/
def PortWord.bits : PortWord → BitVec 24
  | .cmd w => w
  | .evt w => w.setWidth 24
  | .tmr w => w.setWidth 24

/-- Whether a word is one of the row's words. -/
def Row.admits (r : Row) (p : PortWord) : Bool :=
  p.port == r.port && (p.bits &&& r.mask) == r.pattern

/-- The table row of an operation: mnemonic, port, match and mask. -/
def Instr.row : Instr → Row
  | .beginRead _ _ => ⟨"BEGIN_READ", .cmd, 0x010000, 0xFF8000⟩
  | .sendBit _ => ⟨"SEND_BIT", .cmd, 0x020000, 0xFFFFFE⟩
  | .sendByte _ => ⟨"SEND_BYTE", .cmd, 0x030000, 0xFFFF00⟩
  | .rdStatus => ⟨"RD_STATUS", .cmd, 0x100000, 0xFFFFFF⟩
  | .rdBuf _ => ⟨"RD_BUF", .cmd, 0x110000, 0xFFFF00⟩
  | .evAddrAck => ⟨"EV_ADDR_ACK", .evt, 0x0000, 0xFFFF⟩
  | .evByteRx _ => ⟨"EV_BYTE_RX", .evt, 0x0100, 0xFF00⟩
  | .evNack => ⟨"EV_NACK", .evt, 0x0200, 0xFFFF⟩
  | .evArbLost => ⟨"EV_ARB_LOST", .evt, 0x0300, 0xFFFF⟩
  | .evBusError => ⟨"EV_BUS_ERROR", .evt, 0x0400, 0xFFFF⟩
  | .evOvf => ⟨"EV_OVF", .tmr, 0x1, 0x1⟩

/-- The rows of the opcode table, in its order. -/
def opcodeTable : List Row :=
  [Instr.row (.beginRead 0 0), Instr.row (.sendBit 0), Instr.row (.sendByte 0), Instr.row .rdStatus,
    Instr.row (.rdBuf 0), Instr.row .evAddrAck, Instr.row (.evByteRx 0), Instr.row .evNack,
    Instr.row .evArbLost, Instr.row .evBusError, Instr.row .evOvf]

/-! ### The host's view of a table word -/

/-- The port word of `nbits` bits whose value is `w`: each port has one word length (R60), so the length names the
port. The one-bit strobe is also accepted as one whole byte. -/
def portWordOf (nbits w : Nat) : Option PortWord :=
  if 2 ^ nbits ≤ w then none
  else if nbits = 24 then some (.cmd (BitVec.ofNat 24 w))
  else if nbits = 16 then some (.evt (BitVec.ofNat 16 w))
  else if nbits = 1 ∨ nbits = 8 then (if w < 2 then some (.tmr (BitVec.ofNat 1 w)) else none)
  else none

/-- The operation a decoded word stands for, if it is one. -/
def Decoded.instr? : Decoded → Option Instr
  | .instr i => some i
  | .error _ => none

/-- The operation the decoder reads from a table row's word. -/
def decodeTableWord (nbits w : Nat) : Option Instr :=
  (portWordOf nbits w).bind fun p => (decode p).instr?

end Sys2Proof
end

