-- ==== Sys2Proof/Config.lean ====
section
/-! DEFINITION. The implementation parameters (00_scope.md R11) and the free values: constants without a body, for
every value the spec leaves to a `draw` or to an open function (R12, R39, R51, R64, R89, R134). -/

namespace Sys2Proof

/-- The parameters of R11 that some rule reads. `BUS_SPEED` is read by none and is left out. The widths are those of
R11's ranges; `Params.wf` (WellFormed.lean) holds the rest of them. -/
structure Params where
  /-- `BUF_CAP`, the capacity of the receive buffer in bytes. -/
  bufCap : BitVec 8
  /-- `TIMER_PERIOD`, read only by `HALF_OFFSET` (R88). -/
  timerPeriod : BitVec 16
  /-- `TARGET_ADDR`, the address the supervisory loop reads from (R99). -/
  targetAddr : BitVec 7
  /-- `READ_LEN`, the length the supervisory loop requests (R99). -/
  readLen : BitVec 8
  /-- `DRAIN_INCLUSIVE`: the loop drains `BUF_CAP` + 1 bytes (true) or `READ_LEN` bytes (R103). -/
  drainInclusive : Bool
  /-- `GATE_ON_SUCCESS`: the loop transmits only after `READY` (true) or after any end (R102). -/
  gateOnSuccess : Bool
  deriving DecidableEq, Repr

/-- `edge_offset` (R89): the compare value of a half-slot of a level; open. Log entry 8. -/
opaque Config.edgeOffset : Level → BitVec 16

/-- The stable byte that buffer cell `index` holds from reset number `seed` until it is written (R51). Log entry 4. -/
opaque Config.resetCell : Nat → Nat → Byte

/-- The byte of a `RD_BUF` at or beyond `BUF_CAP`, fresh at each read (R39, R68). Log entry 5. -/
opaque Config.freeByte : Nat → Byte

/-- What the `rsp` port holds when no read has just completed (R64). Log entry 6. -/
opaque Config.idleRsp : Nat → Byte

/-- `M_ADDR` after a mid-run reset (R134). Log entry 7. -/
opaque Config.resetAddr : Nat → BitVec 7

/-- `M_LEN` after a mid-run reset (R134). Log entry 7. -/
opaque Config.resetLen : Nat → BitVec 8

/-- `E_DATA` after a mid-run reset (R134). Log entry 7. -/
opaque Config.resetData : Nat → Byte

/-- Whether `E_NBITS` is 8 (else 1) after a mid-run reset (R134). Log entry 7. -/
opaque Config.resetNbitsIsByte : Nat → Bool

/-- Whether `LINE` is `H` after a mid-run reset (R134). Log entry 7. -/
opaque Config.resetLineIsHigh : Nat → Bool

/-- `T_OVF` after a mid-run reset (R134). Log entry 7. -/
opaque Config.resetOvf : Nat → Bool

/-- `T_CMP` after a mid-run reset (R134). Log entry 7. -/
opaque Config.resetCmp : Nat → BitVec 16

end Sys2Proof
end

