-- ==== Sys2Proof/Machine/State.lean ====
section
/-! DEFINITION. The state of the block and its agents as plain data (10_state.md), the reasons a step can stop
(60_exceptions.md R116, R117), and the state after reset (70_reset_and_hazards.md R134). -/

namespace Sys2Proof.Machine

/-- The fault reasons of R116. Each is raised where the source calls the behaviour undefined or unchecked, or is
silent; the machine stops, so each is safe: nothing about the chip can be proved past it. -/
inductive Fault where
  /-- Raised by `BEGIN_READ` while `M_STATUS` = `BUSY` (R66). Safe. -/
  | beginWhileBusy
  /-- Raised by `BEGIN_READ` with `len` > `BUF_CAP` (R66). Safe. -/
  | lengthExceedsCapacity
  /-- Raised by `EV_BYTE_RX` with `M_CNT` ≥ `BUF_CAP` (R70); no run from a reset reaches it. Safe. -/
  | bufferOverrun
  /-- Raised by any bus event while `M_STATUS` is not `BUSY`, and by `EV_ADDR_ACK` outside `P_ADDR` (R69, R74).
  Safe. -/
  | spuriousEvent
  deriving DecidableEq, Repr

/-- The refusal reasons of R117, and the model's own for an operation without a meaning. -/
inductive Refusal where
  /-- An operation that has no meaning in this model yet; raised by `exec` alone. Safe. -/
  | notModelled (mnemonic : String)
  /-- Raised by a HOST or BUS turn whose word is in no row of the tables (R58). Safe. -/
  | reservedEncoding
  /-- Raised by `BEGIN_READ` with `len` = 0 (R66). Safe. -/
  | zeroLength
  deriving DecidableEq, Repr

/-- The hold reasons of R117: the step changes nothing and what was offered stays offered. -/
inductive Hold where
  /-- A host command while `E_BUSY` = 1; lifted by the ENCODER's last `S_WAIT` release (R92). -/
  | encoderBusy
  /-- The `S_WAIT` micro-step while `T_OVF` = 0; lifted by `EV_OVF` (R86). -/
  | awaitOverflow
  deriving DecidableEq, Repr

/-- The sticky outcome mark `OUTCOME` (R35). -/
inductive Mark where
  | ok
  | fault (r : Fault)
  | refuse (r : Refusal)
  deriving DecidableEq, Repr

/-- The values of `M_STATUS` (R15). -/
inductive Status where
  | ready
  | busy
  | errArbLost
  | errBusError
  | errNack
  deriving DecidableEq, Repr

/-- The values of `M_PHASE` (R20). -/
inductive Phase where
  | idle
  | addr
  | data
  | stop
  deriving DecidableEq, Repr

/-- The values of `E_STEP` (R24). -/
inductive EStep where
  | idle
  | clear
  | prog
  | wait
  deriving DecidableEq, Repr

/-- The receive buffer as sparse memory: the cells written since reset, indices strictly rising (R19, R36). -/
abbrev Memory := List Host.Cell

/-- The MASTER's registers (the source's BusMaster). -/
structure Master where
  /-- `M_STATUS` (R15). -/
  status : Status
  /-- `M_ADDR` (R16). -/
  addr : BitVec 7
  /-- `M_LEN` (R17). -/
  len : BitVec 8
  /-- `M_CNT` (R18). -/
  cnt : BitVec 8
  /-- `M_PHASE` (R20). -/
  phase : Phase
  /-- `M_BUF` (R19): the cells written since reset. -/
  buf : Memory
  /-- The model's own: which reset's stable draws the never-written cells hold (R51). -/
  bufSeed : Nat
  deriving DecidableEq, Repr

/-- The ENCODER's registers (the source's ManchesterFrame) and the output pin. -/
structure Encoder where
  /-- `E_BUSY` (R24). -/
  busy : Bool
  /-- `E_STEP` (R24). -/
  step : EStep
  /-- `E_BITIDX` (R24). -/
  bitIdx : BitVec 3
  /-- `E_HALF` (R24): false for the first half-slot. -/
  half : Bool
  /-- `E_DATA` (R25). -/
  data : Byte
  /-- `E_NBITS` (R25). -/
  nbits : BitVec 4
  /-- `LINE` (R26), level-held on port `line`. -/
  line : Level
  deriving DecidableEq, Repr

/-- The timer channel's registers. -/
structure Timer where
  /-- `T_OVF` (R27). -/
  ovf : Bool
  /-- `T_CMP` (R29), level-held on port `cmp`. -/
  cmp : BitVec 16
  deriving DecidableEq, Repr

/-- What the last step drove or answered on the ports that carry one word per step (R14). -/
structure Ports where
  /-- Port `rsp`: the byte of a read that has just completed (R64). -/
  rsp : Option Byte
  /-- Port `bc`: the bus command the step emitted (R57). -/
  bc : Option BusCmd
  /-- The step was a hold, for this reason (R117). -/
  held : Option Hold
  deriving DecidableEq, Repr

/-- The observation traces, oldest entry first (R28). -/
structure Traces where
  /-- `LINE_TRACE`: the levels of the half-slots completed since reset. -/
  line : List Level
  /-- `BC_TRACE`: the bus commands emitted since reset. -/
  bc : List BusCmd
  deriving DecidableEq, Repr

/-- Where the HOST is inside the script item it runs: the supervisory loop's states (R97), `Draining` with its index
and, once the cell is read, its byte (R103). -/
inductive LoopPhase where
  | idle
  | requesting
  | waiting
  | drainRead (i : BitVec 8)
  | drainSend (i : BitVec 8) (x : Byte)
  deriving DecidableEq, Repr

/-- The HOST: its script, the position of the item it runs, where it is inside that item, and what it knows: the
responses it has received and the values it has computed, the latest first (R95, R96). -/
structure HostCtl where
  script : List ScriptItem
  pos : Nat
  phase : LoopPhase
  known : List Nat
  deriving DecidableEq, Repr

/-- One turn of an agent (R13, R96). An environment agent's turn carries the word it puts on its port (R14). -/
inductive Turn where
  /-- The HOST offers its current command on `cmd`. -/
  | host
  /-- The BUS delivers an event word on `evt`. -/
  | bus (w : EvtWord)
  /-- The TIMER drives `tmr`. -/
  | timer (w : TmrWord)
  /-- The ENCODER takes its micro-step. -/
  | encoder
  /-- The platform strobes `rst`. -/
  | platform
  deriving DecidableEq, Repr

/-- The whole machine: the parameters of the step relation, the block's registers, ports and traces, the HOST, the
turns still to come, and the model's marks. -/
structure State where
  /-- The parameters (R11); no step writes them. -/
  params : Params
  master : Master
  encoder : Encoder
  timer : Timer
  ports : Ports
  traces : Traces
  host : HostCtl
  /-- The model's own: the agents' turns still to come, the next one first. -/
  sched : List Turn
  /-- The model's own: the counter the free values are applied to (R12, `draw`). -/
  freeCtr : Nat
  /-- `OUTCOME` (R35). -/
  outcome : Mark
  deriving DecidableEq, Repr

/-- The parameter values of `State.reset`: the source's example capacity and length, the spec's example address, the
loop's observed behaviour. Log entry 2, DESIGN CHOICE: no claim may rest on them. -/
def Params.reset : Params :=
  { bufCap := 4, timerPeriod := 1000, targetAddr := 0x2A, readLen := 4, drainInclusive := true, gateOnSuccess := false }

/-- The machine right after power-on reset (R134). The registers whose reset value is a `draw` take the values log
entry 3 names (DESIGN CHOICE): 0, and 1 for `E_NBITS`. No buffer cell is written, so each reads as its stable free
value (R51). No script is loaded and no turn is waiting (log entries 1, 11, 17). -/
def State.reset : State :=
  { params := Params.reset
    master := { status := .ready, addr := 0, len := 0, cnt := 0, phase := .idle, buf := [], bufSeed := 0 }
    encoder := { busy := false, step := .idle, bitIdx := 0, half := false, data := 0, nbits := 1, line := .L }
    timer := { ovf := false, cmp := 0 }
    ports := { rsp := none, bc := none, held := none }
    traces := { line := [], bc := [] }
    host := { script := [], pos := 0, phase := .idle, known := [] }
    sched := []
    freeCtr := 1
    outcome := .ok }

end Sys2Proof.Machine
end

