-- ==== Sys2Proof/Machine/Flags.lean ====
section
/-! DEFINITION. The status codes and flag values (10_state.md R15, R20, R24, R30). The block has no arithmetic
condition codes. -/

namespace Sys2Proof.Machine

/-- The 8-bit code of a status, as `RD_STATUS` returns it (R15). -/
def Status.code : Status → Byte
  | .ready => 0x00
  | .busy => 0x01
  | .errArbLost => 0x02
  | .errBusError => 0x03
  | .errNack => 0x04

/-- `is_error` (R15). -/
def Status.isError : Status → Bool
  | .ready => false
  | .busy => false
  | .errArbLost => true
  | .errBusError => true
  | .errNack => true

/-- The label of a phase in the register map (R31). -/
def Phase.code : Phase → BitVec 2
  | .idle => 0
  | .addr => 1
  | .data => 2
  | .stop => 3

/-- The label of a micro-step in the register map (R31). -/
def EStep.code : EStep → BitVec 2
  | .idle => 0
  | .clear => 1
  | .prog => 2
  | .wait => 3

/-- A transaction is in flight (R21, R32). -/
def State.inFlight (s : State) : Bool := s.master.status = .busy

end Sys2Proof.Machine
end

