-- ==== Sys2Proof/Machine/Symbols.lean ====
section
/-! DEFINITION. The Manchester symbol mapping and its reference decoder (41_manchester.md R78, R80, R91), and the
half-period arithmetic (R88). -/

namespace Sys2Proof.Machine

/-- The level whose bit is `b`: `L` = 0, `H` = 1 (R12). -/
def levelOfBit (b : Bool) : Level := if b then .H else .L

/-- The bit of a level (R12). -/
def levelBit : Level → Bool
  | .L => false
  | .H => true

/-- `level(x, h) = x XOR h` (R78). -/
def level (x h : Bool) : Level := levelOfBit (x ^^ h)

/-- The symbol of a bit: its two half-slots (R65, R78). -/
def symbol (x : Bool) : List Level := [level x false, level x true]

/-- The levels of the first `n` bits of a byte, bit 0 first (R80, R81). -/
def frameLevels (data : BitVec 8) (n : Nat) : List Level :=
  (List.range n).flatMap fun k => symbol (data.getLsbD k)

/-- The bits of a list of symbols, first symbol first; a pair of equal levels is no symbol (R91). -/
def decodePairs : List Level → Option (List Bool)
  | [] => some []
  | .H :: .L :: t => (decodePairs t).map (true :: ·)
  | .L :: .H :: t => (decodePairs t).map (false :: ·)
  | _ => none

/-- The byte whose bit k is the k-th entry of a list of bits. -/
def byteOfBits : List Bool → BitVec 8
  | [] => 0
  | x :: xs => (byteOfBits xs <<< 1) ||| (if x then 1 else 0)

/-- `decode16` (R91): the byte of 16 levels, if they are eight symbols. -/
def decode16 (t : List Level) : Option (BitVec 8) :=
  if t.length = 16 then (decodePairs t).map byteOfBits else none

/-- `HALF_OFFSET = floor(TIMER_PERIOD / 2)` (R88). -/
def halfOffset (period : BitVec 16) : BitVec 16 := period / 2

end Sys2Proof.Machine
end

