-- ==== Sys2Proof/Machine/Operands.lean ====
section
/-! DEFINITION. Operand assembly: the address byte (30_encoding.md R62), the index a received byte is stored at (R41),
the bit and the level a half-slot sends (R85). -/

namespace Sys2Proof.Machine

/-- The address byte `ab`, that is addr * 2 + 1: the address in bits 7 to 1, the read bit 1 in bit 0 (R62). PRESUMED by
the spec from general knowledge (log entry 13). -/
def addressByte (addr : BitVec 7) : Byte := addr ++ 1#1

/-- The buffer index of the next store: `M_CNT` before it is advanced (R41, R70). -/
def storeIndex (s : State) : Nat := s.master.cnt.toNat

/-- The bit being sent: `E_DATA[E_BITIDX]` (R85). -/
def frameBit (s : State) : Bool := s.encoder.data.getLsbD s.encoder.bitIdx.toNat

/-- The level of the half-slot that is starting (R85). -/
def frameLevel (s : State) : Level := level (frameBit s) s.encoder.half

/-- `E_DATA` for `SEND_BIT v`: bit 0 is v, the others 0 (R79). -/
def bitFrame (v : BitVec 1) : Byte := v.setWidth 8

end Sys2Proof.Machine
end

