-- ==== Sys2Proof/Machine/Ops.lean ====
section
/-! DEFINITION. The named operations over buffer and registers; the hold of host commands (R92); entering the bus-event
handler and leaving it with a status (60_exceptions.md R114, R115); reset (70_reset_and_hazards.md R134). -/

namespace Sys2Proof.Machine

/-- What an operation answers. -/
abbrev Result := Host.Outcome State Fault Refusal

/-! ### The receive buffer (20_memory.md) -/

/-- The byte written at an index since reset; none for a cell that nothing has written. -/
def Memory.read? : Memory → Nat → Option Byte
  | [], _ => none
  | (b, v) :: m, a => if a = b then some v else Memory.read? m a

/-- `MemWrite(a, 1, v)`, keeping the indices strictly rising (R12). -/
def Memory.write : Memory → Nat → Byte → Memory
  | [], a, v => [(a, v)]
  | (b, w) :: m, a, v =>
    if a < b then (a, v) :: (b, w) :: m
    else if a = b then (a, v) :: m
    else (b, w) :: Memory.write m a v

/-- The canonical form: indices strictly rising. A cell not listed reads as no written value, so no listed entry can
equal it. -/
abbrev Memory.wf (m : Memory) : Prop := m.Pairwise fun x y => x.1 < y.1

/-- Every listed index is below `n` (R36). -/
def Memory.below (n : Nat) (m : Memory) : Prop := ∀ c ∈ m, c.1 < n

/-- `MemRead(i, 1)`: what buffer cell `i` holds: the byte written, or the cell's stable free value from its reset
(R42, R51). -/
def State.cell (s : State) (i : Nat) : Byte :=
  match Memory.read? s.master.buf i with
  | some v => v
  | none => Config.resetCell s.master.bufSeed i

/-! ### Writes of the registers -/

def State.setStatus (s : State) (x : Status) : State := { s with master.status := x }
def State.setPhase (s : State) (x : Phase) : State := { s with master.phase := x }
def State.setCnt (s : State) (x : BitVec 8) : State := { s with master.cnt := x }

/-- `BEGIN_READ` latches its operands (R66). -/
def State.latchTransfer (s : State) (addr : BitVec 7) (len : BitVec 8) : State :=
  { s with master.addr := addr, master.len := len }

/-- `MemWrite(i, 1, v)` on `M_BUF` (R41). -/
def State.storeByte (s : State) (i : Nat) (v : Byte) : State :=
  { s with master.buf := Memory.write s.master.buf i v }

/-- A frame of `n` bits is loaded and its first half-slot is next (R79, R80). -/
def State.loadFrame (s : State) (data : Byte) (n : BitVec 4) : State :=
  { s with encoder := { s.encoder with data := data, nbits := n, bitIdx := 0, half := false, step := .clear, busy := true } }

def State.setEStep (s : State) (x : EStep) : State := { s with encoder.step := x }
def State.setOvf (s : State) (x : Bool) : State := { s with timer.ovf := x }

/-- `T_CMP` and `LINE` take the values of a half-slot of level `l` (R85). -/
def State.programLevel (s : State) (l : Level) : State :=
  { s with timer.cmp := Config.edgeOffset l, encoder.line := l }

/-- `append LINE_TRACE, l` (R28). -/
def State.appendLine (s : State) (l : Level) : State := { s with traces.line := s.traces.line ++ [l] }

/-- The sequence moves to a half-slot of a bit (R86). -/
def State.toHalfSlot (s : State) (bitIdx : BitVec 3) (half : Bool) : State :=
  { s with encoder := { s.encoder with bitIdx := bitIdx, half := half, step := .clear } }

/-- The command is complete: the sequencing registers return to idle (R86, R94). -/
def State.finishFrame (s : State) : State :=
  { s with encoder := { s.encoder with bitIdx := 0, half := false, step := .idle, busy := false } }

/-! ### Ports, free values, sequencing -/

/-- `emit c`: the word is driven on `bc` and recorded in `BC_TRACE` (R12, R28). -/
def State.emit (s : State) (c : BusCmd) : State :=
  { s with ports.bc := some c, traces.bc := s.traces.bc ++ [c] }

/-- `return v` on `rsp` (R12). -/
def State.respond (s : State) (v : Byte) : State := { s with ports.rsp := some v }

/-- `hold`: nothing changes but the port's mark (R12, R117; log entry 10). -/
def State.hold (s : State) (r : Hold) : State := { s with ports.held := some r }

/-- A fresh free value is taken: the counter advances (R12, `draw`). -/
def State.bumpFree (s : State) : State := { s with freeCtr := s.freeCtr + 1 }

/-- A step begins: no read has just completed, nothing is emitted or held yet (R14, R64). -/
def State.clearPorts (s : State) : State :=
  { s with ports := { rsp := none, bc := none, held := none }, freeCtr := s.freeCtr + 1 }

def State.setSched (s : State) (ts : List Turn) : State := { s with sched := ts }
def State.setHost (s : State) (pos : Nat) (p : LoopPhase) : State :=
  { s with host.pos := pos, host.phase := p }
/-- The HOST keeps a value, as the latest it knows (R95). -/
def State.learn (s : State) (v : Nat) : State := { s with host.known := v :: s.host.known }

def State.setScript (s : State) (script : List ScriptItem) : State := { s with host.script := script }
def State.setOutcome (s : State) (m : Mark) : State := { s with outcome := m }

/-- What port `rsp` holds: the response, or an unspecified value when no read has just completed (R64). -/
def State.rspPort (s : State) : Byte :=
  match s.ports.rsp with
  | some v => v
  | none => Config.idleRsp s.freeCtr

/-- What port `cmp` holds (R14). -/
def State.cmpPort (s : State) : BitVec 16 := s.timer.cmp

/-- What port `line` holds (R14, R26). -/
def State.linePort (s : State) : Level := s.encoder.line

/-- The word on port `bc`, if the last step emitted one (R57). -/
def State.bcPort (s : State) : Option BcWord := s.ports.bc.map BusCmd.word

/-! ### Holding a host command; the handler's entry and exit -/

/-- Every host command is under `hold` while `E_BUSY` = 1 (R92). -/
def hostCommand (s : State) (k : Result) : Result :=
  if s.encoder.busy then .next (s.hold .encoderBusy) else k

/-- Entry of the bus-event handler: it saves nothing and switches nothing (R114); with no transaction in flight the
event is spurious (R74). -/
def handlerEntry (s : State) (k : Result) : Result :=
  if s.master.status = .busy then k else .fault .spuriousEvent

/-- Exit of the handler that ends a transaction: the phase returns to idle and the status is the last write; there is
nothing to restore (R45, R71 to R73, R115). -/
def endTransaction (st : Status) (s : State) : State := (s.setPhase .idle).setStatus st

/-! ### Reset -/

/-- The reset operation on `rst` (R134): the registers, the traces and the mark. `draw`s are free values of the
counter (log entry 7). The platform's reset also restarts the HOST's script from its first command (R130; log entry 11);
the script itself, the parameters and the turns still to come are outside the block and stay. -/
def State.resetOp (s : State) : State :=
  let c := s.freeCtr
  { s with
    master :=
      { status := .ready, addr := Config.resetAddr c, len := Config.resetLen c, cnt := 0, phase := .idle, buf := [],
        bufSeed := c }
    encoder :=
      { busy := false, step := .idle, bitIdx := 0, half := false, data := Config.resetData c,
        nbits := if Config.resetNbitsIsByte c then 8 else 1, line := levelOfBit (Config.resetLineIsHigh c) }
    timer := { ovf := Config.resetOvf c, cmp := Config.resetCmp c }
    ports := { rsp := none, bc := none, held := none }
    traces := { line := [], bc := [] }
    host := { s.host with pos := 0, phase := .idle, known := [] }
    freeCtr := c + 1
    outcome := .ok }

end Sys2Proof.Machine
end

