-- ==== Sys2Proof/Machine/Manchester.lean ====
section
/-! DEFINITION. The ENCODER's operations, the timer event, and the half-slot micro-steps (41_manchester.md R79 to
R86). -/

namespace Sys2Proof.Machine

/-- `SEND_BIT v` (R79). -/
def execSendBit (v : BitVec 1) (s : State) : Result :=
  hostCommand s <| .next (s.loadFrame (bitFrame v) 1)

/-- `SEND_BYTE byte` (R80). -/
def execSendByte (byte : Byte) (s : State) : Result :=
  hostCommand s <| .next (s.loadFrame byte 8)

/-- `EV_OVF` (R82). -/
def execEvOvf (s : State) : Result := .next (s.setOvf true)

/-- Micro-step `S_CLEAR` (R84). -/
def microClear (s : State) : State := (s.setOvf false).setEStep .prog

/-- Micro-step `S_PROG` (R85). -/
def microProg (s : State) : State := (s.programLevel (frameLevel s)).setEStep .wait

/-- After a half-slot: the second half of the same bit, the next bit, or the end of the command (R86). `E_BITIDX` + 1 is
compared, not stored, when it reaches `E_NBITS`. -/
def nextHalfSlot (s : State) : State :=
  if s.encoder.half = false then s.toHalfSlot s.encoder.bitIdx true
  else if s.encoder.bitIdx.toNat + 1 < s.encoder.nbits.toNat then s.toHalfSlot (s.encoder.bitIdx + 1) false
  else s.finishFrame

/-- Micro-step `S_WAIT` (R86): the hold while `T_OVF` = 0; else the release. -/
def microWait (s : State) : State :=
  if s.timer.ovf then nextHalfSlot ((s.setOvf false).appendLine s.encoder.line)
  else s.hold .awaitOverflow

/-- The micro-step that `E_STEP` names (R83); an idle ENCODER has none. -/
def microStep (s : State) : State :=
  match s.encoder.step with
  | .idle => s
  | .clear => microClear s
  | .prog => microProg s
  | .wait => microWait s

end Sys2Proof.Machine
end

