-- ==== Sys2Proof/Machine/Master.lean ====
section
/-! DEFINITION. The MASTER's operations: three host commands and the bus-event handler (40_bus_master.md R66 to R74). -/

namespace Sys2Proof.Machine

/-- `BEGIN_READ addr, len` (R66): the tests in the rule's order, then the latches, the start command, the phase, and the
status last. -/
def execBeginRead (addr : BitVec 7) (len : BitVec 8) (s : State) : Result :=
  hostCommand s <|
    if s.master.status = .busy then .fault .beginWhileBusy
    else if len = 0 then .refused .zeroLength
    else if s.params.bufCap < len then .fault .lengthExceedsCapacity
    else
      .next (((((s.latchTransfer addr len).setCnt 0).emit (.startRead (addressByte addr))).setPhase .addr).setStatus .busy)

/-- `RD_STATUS` (R67). -/
def execRdStatus (s : State) : Result :=
  hostCommand s <| .next (s.respond s.master.status.code)

/-- `RD_BUF idx` (R68): the cell, or a fresh free byte where no cell is. -/
def execRdBuf (idx : BitVec 8) (s : State) : Result :=
  hostCommand s <|
    if idx < s.params.bufCap then .next (s.respond (s.cell idx.toNat))
    else .next (s.bumpFree.respond (Config.freeByte s.freeCtr))

/-- `EV_ADDR_ACK` (R69). -/
def execEvAddrAck (s : State) : Result :=
  handlerEntry s <|
    if s.master.phase = .addr then .next (s.setPhase .data) else .fault .spuriousEvent

/-- A byte in the address phase carries the acknowledge with it (R70, D11). -/
def impliedAck (s : State) : State :=
  if s.master.phase = .addr then s.setPhase .data else s

/-- The byte is stored at the counter and the counter advanced (R70). -/
def takeByte (data : Byte) (s : State) : State :=
  (s.storeByte (storeIndex s) data).setCnt (s.master.cnt + 1)

/-- The answer to a stored byte (R70): ACK before the final byte; NACK plus STOP, the stop phase and `READY` on it. -/
def answerByte (s : State) : State :=
  if s.master.cnt < s.master.len then s.emit .ack
  else endTransaction .ready ((s.emit .nackStop).setPhase .stop)

/-- `EV_BYTE_RX data` (R70). -/
def execEvByteRx (data : Byte) (s : State) : Result :=
  handlerEntry s <|
    if s.params.bufCap ≤ s.master.cnt then .fault .bufferOverrun
    else .next (answerByte (takeByte data (impliedAck s)))

/-- `EV_NACK` (R71): the stop condition is commanded, then the error status. -/
def execEvNack (s : State) : Result :=
  handlerEntry s <| .next (endTransaction .errNack (s.emit .stop))

/-- `EV_ARB_LOST` (R72): no bus command. -/
def execEvArbLost (s : State) : Result :=
  handlerEntry s <| .next (endTransaction .errArbLost s)

/-- `EV_BUS_ERROR` (R73): no bus command. -/
def execEvBusError (s : State) : Result :=
  handlerEntry s <| .next (endTransaction .errBusError s)

end Sys2Proof.Machine
end

