-- ==== Sys2Proof/Machine/Dispatch.lean ====
section
/-! DEFINITION. The meaning of every operation, one arm per constructor. -/

namespace Sys2Proof.Machine

def exec (i : Instr) (s : State) : Host.Outcome State Fault Refusal :=
  match i with
  | .beginRead addr len => Sys2Proof.Machine.execBeginRead addr len s
  | .sendBit v => Sys2Proof.Machine.execSendBit v s
  | .sendByte byte => Sys2Proof.Machine.execSendByte byte s
  | .rdStatus => Sys2Proof.Machine.execRdStatus s
  | .rdBuf idx => Sys2Proof.Machine.execRdBuf idx s
  | .evAddrAck => Sys2Proof.Machine.execEvAddrAck s
  | .evByteRx data => Sys2Proof.Machine.execEvByteRx data s
  | .evNack => Sys2Proof.Machine.execEvNack s
  | .evArbLost => Sys2Proof.Machine.execEvArbLost s
  | .evBusError => Sys2Proof.Machine.execEvBusError s
  | .evOvf => Sys2Proof.Machine.execEvOvf s

end Sys2Proof.Machine
end

