-- ==== Sys2Proof/Machine/Supervisor.lean ====
section
/-! DEFINITION. The HOST: the command it offers, what it computes between commands, and how it goes on after a response,
for the commands of any script and for the supervisory loop's pseudo-operations (42_supervisor.md R95 to R104). -/

namespace Sys2Proof.Machine

/-- The command word of an operation of the `cmd` port; other operations have none. -/
def commandWord (i : Instr) : Option CmdWord :=
  match encode i with
  | .cmd w => some w
  | .evt _ => none
  | .tmr _ => none

/-- The last index of the drain range (R103): `BUF_CAP` when inclusive, else `READ_LEN` - 1. -/
def drainLast (p : Params) : Nat :=
  if p.drainInclusive then p.bufCap.toNat else p.readLen.toNat - 1

/-- The command of `REQUEST` (R99). -/
def requestOp (p : Params) : Instr := .beginRead p.targetAddr p.readLen

/-- The command of a drain at its phase (R103): the read of a cell, then the transmission of its byte. -/
def drainOp : LoopPhase → Instr
  | .drainSend _ x => .sendByte x
  | .drainRead i => .rdBuf i
  | .idle => .rdBuf 0
  | .requesting => .rdBuf 0
  | .waiting => .rdBuf 0

/-- The command of `SUPERLOOP` at its phase (R104). DESIGN CHOICE (log entry 27): Idle, before the first Requesting, has
none. -/
def loopOp (p : Params) : LoopPhase → Option Instr
  | .idle => none
  | .requesting => some (requestOp p)
  | .waiting => some .rdStatus
  | .drainRead i => some (.rdBuf i)
  | .drainSend _ x => some (.sendByte x)

/-- The value of an operation of a script's arithmetic; a comparison is 1 or 0. -/
def opValue : HostOp → Nat → Nat → Nat
  | .add, a, b => a + b
  | .sub, a, b => a - b
  | .mul, a, b => a * b
  | .div, a, b => a / b
  | .mod, a, b => a % b
  | .eq, a, b => if a = b then 1 else 0
  | .lt, a, b => if a < b then 1 else 0

/-- The value of an expression for a HOST that knows `known` (R96). -/
def exprValue (known : List Nat) : HostExpr → Nat
  | .const n => n
  | .known k => known.getD (exprValue known k) 0
  | .count => known.length
  | .op o a b => opValue o (exprValue known a) (exprValue known b)
  | .cond c a b => if exprValue known c = 0 then exprValue known b else exprValue known a

/-- The word of a computed command: the low 8 bits of each value (R52, R96). -/
def computedWord (known : List Nat) (op a b : HostExpr) : CmdWord :=
  cmdWord (BitVec.ofNat 8 (exprValue known op)) (BitVec.ofNat 8 (exprValue known a)) (BitVec.ofNat 8 (exprValue known b))

/-- The word a script item offers on `cmd` (R96, R98); what is done between commands, and the loop's Idle,
offer none. -/
def itemWord (p : Params) (phase : LoopPhase) (known : List Nat) : ScriptItem → Option CmdWord
  | .word w => some w
  | .command op a b => some (computedWord known op a b)
  | .compute _ => none
  | .goTo _ => none
  | .request => commandWord (requestOp p)
  | .waitDone => commandWord .rdStatus
  | .drain => commandWord (drainOp phase)
  | .superloop => (loopOp p phase).bind commandWord

/-- The word the HOST offers now; none between commands and when its script is finished (R95, R149). -/
def offered (s : State) : Option CmdWord :=
  (s.host.script[s.host.pos]?).bind (itemWord s.params s.host.phase s.host.known)

/-- `WAIT_DONE` goes on spinning while the response is `BUSY` (R101). -/
def stillBusy (rsp : Byte) : Bool := rsp == Status.code .busy

/-- The loop drains after this final status, or skips it when gating on success (R102). -/
def drainsAfter (p : Params) (rsp : Byte) : Bool := !p.gateOnSuccess || rsp == Status.code .ready

/-- How a drain goes on after an accepted command whose response was `rsp` (R103); none when it is finished. -/
def drainNext (p : Params) (rsp : Byte) : LoopPhase → Option LoopPhase
  | .drainSend i _ => if i.toNat < drainLast p then some (.drainRead (i + 1)) else none
  | .drainRead i => some (.drainSend i rsp)
  | .idle => some (.drainSend 0 rsp)
  | .requesting => some (.drainSend 0 rsp)
  | .waiting => some (.drainSend 0 rsp)

/-- How `SUPERLOOP` goes on after an accepted command whose response was `rsp` (R104). Idle has
no command (log entry 27) and goes to Requesting (R97; loopStart). -/
def loopNext (p : Params) (rsp : Byte) : LoopPhase → LoopPhase
  | .idle => .requesting
  | .requesting => .waiting
  | .waiting =>
    if stillBusy rsp then .waiting else if drainsAfter p rsp then .drainRead 0 else .requesting
  | .drainRead i => .drainSend i rsp
  | .drainSend i _ => if i.toNat < drainLast p then .drainRead (i + 1) else .requesting

/-- Where the HOST stands after an accepted command: it stays in the item at a phase, or goes on to the next item
(none). -/
def itemNext (p : Params) (rsp : Byte) (phase : LoopPhase) : ScriptItem → Option LoopPhase
  | .word _ => none
  | .command _ _ _ => none
  | .compute _ => none
  | .goTo _ => none
  | .request => none
  | .waitDone => if stillBusy rsp then some .waiting else none
  | .drain => drainNext p rsp phase
  | .superloop => some (loopNext p rsp phase)

/-- The response of an accepted command, if it has one, is what the HOST knows latest (R64, R95). -/
def learnResponse (s : State) : State :=
  match s.ports.rsp with
  | some v => s.learn v.toNat
  | none => s

/-- The HOST goes on after its command was accepted, with the response it got (R95). -/
def hostAdvance (s : State) : State :=
  match s.host.script[s.host.pos]? with
  | none => learnResponse s
  | some item =>
    match itemNext s.params (s.ports.rsp.getD 0) s.host.phase item with
    | some p => (learnResponse s).setHost s.host.pos p
    | none => (learnResponse s).setHost (s.host.pos + 1) .idle

/-- `SUPERLOOP` leaves Idle for its first Requesting (R97). DESIGN CHOICE (log entry 27): it does so on a HOST turn of its
own, since no text says what moves it. -/
def loopStart (s : State) : State :=
  if s.host.phase = .idle then s.setHost s.host.pos .requesting else s

/-- What an item does for which the HOST offers no command: it computes or jumps (R95), or the loop starts (R97). -/
def runSilent (s : State) : ScriptItem → State
  | .compute e => (s.learn (exprValue s.host.known e)).setHost (s.host.pos + 1) .idle
  | .goTo e => s.setHost (exprValue s.host.known e) .idle
  | .word _ => s
  | .command _ _ _ => s
  | .request => s
  | .waitDone => s
  | .drain => s
  | .superloop => loopStart s

/-- The HOST's turn when it offers nothing: it computes between its commands (R95), leaves the loop's Idle
(R97), or its script is finished. -/
def hostSilent (s : State) : State :=
  match s.host.script[s.host.pos]? with
  | none => s
  | some item => runSilent s item

end Sys2Proof.Machine
end

