-- ==== Sys2Proof/Machine/Agents.lean ====
section
/-! DEFINITION. The turns of the agents (10_state.md R13, R14): each takes one word from its port, decodes it and runs
it as one atomic step. -/

namespace Sys2Proof.Machine

/-- What a decoded word does: its operation; the refusal of a reserved word (R58); nothing when the strobe is 0
(R56). -/
def runDecoded (d : Decoded) (s : State) : Result :=
  match d with
  | .instr i => exec i s
  | .error .reservedEncoding => .refused .reservedEncoding
  | .error .noOperation => .next s

/-- After the HOST's command: it goes on if the command was accepted and keeps offering it under a hold (R92, R95). -/
def afterCommand : Result → Result
  | .next s => .next (if s.ports.held = none then hostAdvance s else s)
  | .fault r => .fault r
  | .refused r => .refused r

/-- The HOST's turn: the offered word is sampled and runs; between commands, and when its script is finished, it offers
nothing (R48, R95). -/
def hostTurn (s : State) : Result :=
  match offered s with
  | none => .next (hostSilent s)
  | some w => afterCommand (runDecoded (decode (.cmd w)) s)

/-- The BUS's turn: one event word and its whole handler (R111, R114). -/
def busTurn (w : EvtWord) (s : State) : Result := runDecoded (decode (.evt w)) s

/-- The TIMER's turn (R56, R82). -/
def timerTurn (w : TmrWord) (s : State) : Result := runDecoded (decode (.tmr w)) s

/-- The ENCODER's turn (R83). -/
def encoderTurn (s : State) : Result := .next (microStep s)

/-- The platform's turn: the `rst` strobe (R129, R132). -/
def platformTurn (s : State) : Result := .next s.resetOp

/-- One turn, on a state whose ports have been cleared for it. -/
def takeTurn (t : Turn) (s : State) : Result :=
  match t with
  | .host => hostTurn s
  | .bus w => busTurn w s
  | .timer w => timerTurn w s
  | .encoder => encoderTurn s
  | .platform => platformTurn s

/-- The next turn. The schedule says whose it is; when it is empty the outside agents stay silent and the ENCODER, the
one agent that moves by itself, takes its micro-step (R83, R146; log entry 1). -/
def nextTurn (s : State) : Turn := s.sched.headD .encoder

/-- The state a turn starts from: the turn is taken from the schedule and the ports are cleared (R14). -/
def beginTurn (s : State) : State := (s.setSched s.sched.tail).clearPorts

/-- A command word placed as the HOST's next command, before the rest of its script; a finished script gets it at its
end. -/
def placeCommand (s : State) (w : CmdWord) : State :=
  let k := min s.host.pos s.host.script.length
  (s.setScript (s.host.script.take k ++ .word w :: s.host.script.drop k)).setHost k .idle

/-- The port word placed so that the next step takes it. -/
def placeWord (s : State) : PortWord → State
  | .cmd w => (placeCommand s w).setSched (.host :: s.sched)
  | .evt w => s.setSched (.bus w :: s.sched)
  | .tmr w => s.setSched (.timer w :: s.sched)

end Sys2Proof.Machine
end

