-- ==== Sys2Proof/Machine/Step.lean ====
section
/-! DEFINITION. One step of the machine, and the placement of an operation's word for the next step. -/

namespace Sys2Proof.Machine

/-- One step: a marked state has no successor (R35); else the next turn is taken. -/
def step (s : State) : Host.Outcome State Fault Refusal :=
  match s.outcome with
  | .ok => takeTurn (nextTurn s) (beginTurn s)
  | .fault r => .fault r
  | .refuse r => .refused r

/-- The state with an operation's word on its port, so that the next step takes it (log entry 17). -/
def State.withFetchWord (s : State) (nbits w : Nat) : State :=
  match portWordOf nbits w with
  | some p => placeWord s p
  | none => s

end Sys2Proof.Machine
end

