-- ==== Sys2Proof/Machine/RegMap.lean ====
section
/-! DEFINITION. The register map (10_state.md R31): a numbered view of the registers. The numbers and the packing of
`E_CTL` are labels, not bus addresses. -/

namespace Sys2Proof.Machine

/-- One register of the map: its name, its width in bits and its value. -/
structure RegView where
  name : String
  width : Nat
  value : Nat
  deriving DecidableEq, Repr

/-- `E_CTL`: bit 0 `E_BUSY`, bits 2 to 1 `E_STEP`, bits 5 to 3 `E_BITIDX`, bit 6 `E_HALF` (R31). -/
def encoderControl (e : Encoder) : BitVec 7 :=
  BitVec.ofBool e.half ++ e.bitIdx ++ e.step.code ++ BitVec.ofBool e.busy

/-- Register number `n` of the map; none where the map has no register (R31). -/
def State.reg (s : State) (n : Nat) : Option RegView :=
  match n with
  | 0 => some ⟨"M_STATUS", 8, s.master.status.code.toNat⟩
  | 1 => some ⟨"M_ADDR", 7, s.master.addr.toNat⟩
  | 2 => some ⟨"M_LEN", 8, s.master.len.toNat⟩
  | 3 => some ⟨"M_CNT", 8, s.master.cnt.toNat⟩
  | 4 => some ⟨"M_PHASE", 2, s.master.phase.code.toNat⟩
  | 5 => some ⟨"E_CTL", 7, (encoderControl s.encoder).toNat⟩
  | 6 => some ⟨"E_DATA", 8, s.encoder.data.toNat⟩
  | 7 => some ⟨"E_NBITS", 4, s.encoder.nbits.toNat⟩
  | 8 => some ⟨"LINE", 1, (levelBit s.encoder.line).toNat⟩
  | 9 => some ⟨"T_OVF", 1, s.timer.ovf.toNat⟩
  | 10 => some ⟨"T_CMP", 16, s.timer.cmp.toNat⟩
  | k =>
    if 16 ≤ k ∧ k - 16 < s.params.bufCap.toNat then some ⟨"M_BUF", 8, (s.cell (k - 16)).toNat⟩ else none

end Sys2Proof.Machine
end

