-- ==== Sys2Proof/WellFormed.lean ====
section
/-! DEFINITION. Checks on operations, parameters and host scripts, beyond what their types hold. -/

namespace Sys2Proof

/-- An operation is in the admitted set: a transfer has at least one byte (R66, D10). Every other operand may take any
value of its field. -/
def Instr.wf : Instr → Bool
  | .beginRead _ len => len != 0
  | .sendBit _ => true
  | .sendByte _ => true
  | .rdStatus => true
  | .rdBuf _ => true
  | .evAddrAck => true
  | .evByteRx _ => true
  | .evNack => true
  | .evArbLost => true
  | .evBusError => true
  | .evOvf => true

/-- The legal ranges of the parameters (R11, R150). -/
def Params.wf (p : Params) : Bool :=
  p.bufCap != 0 && p.timerPeriod != 0 && p.readLen != 0 && p.readLen.ule p.bufCap

/-- A command word of a script decodes to an operation of the admitted set; the other items, whose words are computed
as the script runs, are always well formed. -/
def ScriptItem.wf : ScriptItem → Bool
  | .word w =>
    match decodeCmd w with
    | .instr i => i.wf
    | .error _ => false
  | .command _ _ _ => true
  | .compute _ => true
  | .goTo _ => true
  | .request => true
  | .waitDone => true
  | .drain => true
  | .superloop => true

/-- Every item of the script is well formed. -/
def scriptWf (script : List ScriptItem) : Bool := script.all ScriptItem.wf

end Sys2Proof
end

