-- ==== Sys2Proof/Safety.lean ====
section
/-! DEFINITION. What claims speak of: launch premises (R150), the end of a run (R149), the invariants (R21, R24), the BUS
agent's contract (R76), the hazards (R138 to R143), runs along a schedule (R96), and fairness (R146). -/

namespace Sys2Proof.Safety

open Sys2Proof.Machine

/-! ### Launch premises and the end of a run -/

/-- `reset_state` (R150): a state that the reset operation produces for some draws (R134). -/
structure ResetState (s : State) : Prop where
  status : s.master.status = .ready
  phase : s.master.phase = .idle
  cnt : s.master.cnt = 0
  buf : s.master.buf = []
  busy : s.encoder.busy = false
  step : s.encoder.step = .idle
  bitIdx : s.encoder.bitIdx = 0
  half : s.encoder.half = false
  nbits : s.encoder.nbits = 1 ∨ s.encoder.nbits = 8
  lineTrace : s.traces.line = []
  bcTrace : s.traces.bc = []
  outcome : s.outcome = .ok

/-- `idle_state` (R150): no transaction in flight, the ENCODER idle, nothing marked. -/
structure IdleState (s : State) : Prop where
  outcome : s.outcome = .ok
  status : s.master.status ≠ .busy
  phase : s.master.phase = .idle
  busy : s.encoder.busy = false
  step : s.encoder.step = .idle
  bitIdx : s.encoder.bitIdx = 0
  half : s.encoder.half = false

/-- A state that can end the run of a finite script (R149): the last command has been accepted, the ENCODER is idle,
nothing is marked, and no transaction is in flight, unless the claim allows one. -/
def ended (flightAllowed : Bool) (s : State) : Bool :=
  s.outcome = .ok && s.host.script.length ≤ s.host.pos && !s.encoder.busy && (flightAllowed || !s.inFlight)

/-! ### Invariants -/

/-- The MASTER's invariants (R21), the range of `M_CNT` (R18), and the buffer's canonical form within its capacity
(R36). -/
structure MasterInv (s : State) : Prop where
  flight : s.master.status = .busy ↔ (s.master.phase = .addr ∨ s.master.phase = .data)
  neverStop : s.master.phase ≠ .stop
  addrCnt : s.master.phase = .addr → s.master.cnt = 0
  dataCnt : s.master.phase = .data → s.master.cnt < s.master.len
  lenRange : s.master.status = .busy → 1 ≤ s.master.len ∧ s.master.len ≤ s.params.bufCap
  readyCnt : s.master.status = .ready → s.traces.bc ≠ [] → s.master.cnt = s.master.len
  cntRange : s.master.cnt ≤ s.params.bufCap
  bufWf : Memory.wf s.master.buf
  bufRange : Memory.below s.params.bufCap.toNat s.master.buf

/-- The ENCODER's invariants (R24, R25, R86). -/
structure EncoderInv (s : State) : Prop where
  busyStep : s.encoder.busy = false ↔ s.encoder.step = .idle
  nbits : s.encoder.nbits = 1 ∨ s.encoder.nbits = 8
  idleSeq : s.encoder.busy = false → s.encoder.bitIdx = 0 ∧ s.encoder.half = false
  bitRange : s.encoder.busy = true → s.encoder.bitIdx.toNat < s.encoder.nbits.toNat
  waitLine : s.encoder.step = .wait → s.encoder.line = frameLevel s

/-- The invariants of both machines. -/
structure Inv (s : State) : Prop where
  master : MasterInv s
  encoder : EncoderInv s

/-- `LINE_TRACE` is a list of whole symbols, and, between the half-slots of a bit, the first half of that bit's symbol
besides (R94 (b)). -/
structure LineInv (s : State) : Prop where
  whole : s.encoder.half = false → (decodePairs s.traces.line).isSome
  split : s.encoder.half = true →
    ∃ pre, (decodePairs pre).isSome ∧ s.traces.line = pre ++ [level (frameBit s) false]

/-- How many levels of the current frame have been appended (R83). -/
def sentLevels (e : Encoder) : Nat := 2 * e.bitIdx.toNat + (if e.half then 1 else 0)

/-- All the levels of the current frame (R79, R80). -/
def wholeFrame (e : Encoder) : List Level := frameLevels e.data e.nbits.toNat

/-- A frame is being sent after the levels `base`: the trace is `base` and the frame's first levels (R83). -/
structure Sending (base : List Level) (s : State) : Prop where
  busy : s.encoder.busy = true
  trace : s.traces.line = base ++ (wholeFrame s.encoder).take (sentLevels s.encoder)

/-- The HOST runs `SUPERLOOP` alone, and keeps the loop's duty: a transaction is in flight only while it waits, and
never while the ENCODER sends (R100, R104). -/
structure LoopInv (s : State) : Prop where
  script : s.host.script = [.superloop]
  pos : s.host.pos = 0
  waiting : s.master.status = .busy → s.host.phase = .waiting
  alone : s.encoder.busy = true → s.master.status ≠ .busy

/-- The HOST runs `SUPERLOOP` alone and stands at this phase of it (R104). -/
structure LoopAt (p : LoopPhase) (s : State) : Prop where
  script : s.host.script = [.superloop]
  pos : s.host.pos = 0
  phase : s.host.phase = p

/-! ### How the HOST goes on after a command -/

/-- The HOST stands at a position of its script, in a phase. -/
def Stands (t : State) (pos : Nat) (p : LoopPhase) : Prop := t.host.pos = pos ∧ t.host.phase = p

/-- `DRAIN` after its command `w` was accepted in `s` with the response `rsp` (R103): `RD_BUF i` and then `SEND_BYTE` of
the byte read, for i from 0 to the last index of the parameters' bound. -/
def DrainGoesOn (s : State) (w : CmdWord) (rsp : Option Byte) (t : State) : LoopPhase → Prop
  | .drainRead i => w = cmdWord 0x11 0 i ∧ ∃ x, rsp = some x ∧ Stands t s.host.pos (.drainSend i x)
  | .drainSend i x =>
    w = cmdWord 0x03 0 x ∧
    (s.params.drainInclusive = true →
      (i < s.params.bufCap → Stands t s.host.pos (.drainRead (i + 1))) ∧
      (s.params.bufCap ≤ i → Stands t (s.host.pos + 1) .idle)) ∧
    (s.params.drainInclusive = false →
      (i.toNat + 1 < s.params.readLen.toNat → Stands t s.host.pos (.drainRead (i + 1))) ∧
      (s.params.readLen.toNat ≤ i.toNat + 1 → Stands t (s.host.pos + 1) .idle))
  | .idle => w = cmdWord 0x11 0 0 ∧ ∃ x, rsp = some x ∧ Stands t s.host.pos (.drainSend 0 x)
  | .requesting => w = cmdWord 0x11 0 0 ∧ ∃ x, rsp = some x ∧ Stands t s.host.pos (.drainSend 0 x)
  | .waiting => w = cmdWord 0x11 0 0 ∧ ∃ x, rsp = some x ∧ Stands t s.host.pos (.drainSend 0 x)

/-- The word that each script item offers, and where the HOST stands in `t` after that word `w` was accepted in `s` with
the response `rsp` (R95, R98): a command and `REQUEST` are done (R99); `WAIT_DONE` stays while the response is `BUSY`
(R101); `DRAIN` goes through its range (R103); `SUPERLOOP` goes round (R104). -/
def HostGoesOn (s : State) (w : CmdWord) (rsp : Option Byte) (t : State) : ScriptItem → Prop
  | .word v => w = v ∧ Stands t (s.host.pos + 1) .idle
  | .command op a b => w = computedWord s.host.known op a b ∧ Stands t (s.host.pos + 1) .idle
  | .compute _ => False
  | .goTo _ => False
  | .request => w = cmdWord 0x01 (0#1 ++ s.params.targetAddr) s.params.readLen ∧ Stands t (s.host.pos + 1) .idle
  | .waitDone =>
    w = cmdWord 0x10 0 0 ∧ ∃ st, rsp = some st ∧
      (st = 0x01 → Stands t s.host.pos .waiting) ∧ (st ≠ 0x01 → Stands t (s.host.pos + 1) .idle)
  | .drain => DrainGoesOn s w rsp t s.host.phase
  | .superloop =>
    (loopOp s.params s.host.phase).bind commandWord = some w ∧
      Stands t s.host.pos (loopNext s.params (rsp.getD 0) s.host.phase)

/-! ### The BUS agent's contract and the hazards -/

/-- The events the BUS agent may deliver now (R76): after the start command, after an acknowledge, after `BC_ACK`; the
phase says which of these was last. DESIGN CHOICE (log entry 26): since the phase is idle after `rst`, no event is allowed
from a reset until the next `BEGIN_READ`, not even an answer to a command emitted before the reset; R76 and R132 leave
this open. -/
def busMay (s : State) : Instr → Bool
  | .evAddrAck => s.master.phase = .addr
  | .evByteRx _ => s.master.phase = .addr || s.master.phase = .data
  | .evNack => s.master.phase = .addr
  | .evArbLost => s.master.phase = .addr || s.master.phase = .data
  | .evBusError => s.master.phase = .addr || s.master.phase = .data
  | .beginRead _ _ => false
  | .sendBit _ => false
  | .sendByte _ => false
  | .rdStatus => false
  | .rdBuf _ => false
  | .evOvf => false

/-- A turn keeps the contract: an event word is one the BUS agent may deliver (R76). -/
def keepsContract (s : State) : Turn → Bool
  | .bus w =>
    match decodeEvt w with
    | .instr i => busMay s i
    | .error _ => false
  | .host => true
  | .timer _ => true
  | .encoder => true
  | .platform => true

/-- A host command respects the hazards H1 to H4 and H6 (R138 to R141, R143): no start while busy, a length that fits,
the buffer read only after `READY` and only below the length read. -/
def respectsHazards (s : State) : Instr → Bool
  | .beginRead _ len => s.master.status != .busy && len != 0 && len.ule s.params.bufCap
  | .rdBuf idx => s.master.status == .ready && idx.ult s.master.len
  | .rdStatus => true
  | .sendBit _ => true
  | .sendByte _ => true
  | .evAddrAck => true
  | .evByteRx _ => true
  | .evNack => true
  | .evArbLost => true
  | .evBusError => true
  | .evOvf => true

/-! ### Illegal words -/

/-- The illegal command words, class by class as R58 lists them. -/
def illegalCmd (w : CmdWord) : Bool :=
  let op := w.toNat / 2 ^ 16
  (op != 0x01 && op != 0x02 && op != 0x03 && op != 0x10 && op != 0x11)
    || (op == 0x01 && w.getLsbD 15)
    || (op == 0x02 && w.toNat / 2 % 2 ^ 15 != 0)
    || ((op == 0x03 || op == 0x11) && w.toNat / 2 ^ 8 % 2 ^ 8 != 0)
    || (op == 0x10 && w.toNat % 2 ^ 16 != 0)

/-- The illegal event words, class by class as R58 lists them. -/
def illegalEvt (w : EvtWord) : Bool :=
  let kind := w.toNat / 2 ^ 8 % 2 ^ 3
  (kind == 5 || kind == 6 || kind == 7) || w.toNat / 2 ^ 11 != 0 || (kind != 1 && w.toNat % 2 ^ 8 != 0)

/-! ### Runs -/

/-- The steps along a schedule: the machine's own step, as often as the schedule has turns (R96). -/
def runSched (ts : List Turn) (s : State) : Result :=
  Host.Core.run core ts.length (s.setSched ts)

/-- Operations one after another, each as one atomic step of its port. -/
def execAll : List Instr → State → Result
  | [], s => .next s
  | i :: is, s =>
    match exec i s with
    | .next s' => execAll is s'
    | .fault r => .fault r
    | .refused r => .refused r

/-- The marked state after an outcome (R35): a fault or a refusal leaves the state and sets the mark. -/
def settle (s : State) : Result → State
  | .next s' => s'
  | .fault r => s.setOutcome (.fault r)
  | .refused r => s.setOutcome (.refuse r)

/-- One half-slot with the overflow while the ENCODER waits: `S_CLEAR`, `S_PROG`, `EV_OVF`, the release (R87). -/
def halfSlotTurns : List Turn := [.encoder, .encoder, .timer 1, .encoder]

/-- The turns of `n` bit symbols, two half-slots each (R79, R80). -/
def frameTurns (n : Nat) : List Turn := (List.replicate (2 * n) halfSlotTurns).flatten

/-- A host command and then the turns that bring it to its end. -/
def execThen (i : Instr) (ts : List Turn) (s : State) : Result :=
  match exec i s with
  | .next s' => runSched ts s'
  | .fault r => .fault r
  | .refused r => .refused r

/-- The eight `SEND_BIT` commands of a byte, each brought to its end (R63, R81). -/
def sendBits (byte : Byte) : List Nat → State → Result
  | [], s => .next s
  | k :: ks, s =>
    match execThen (.sendBit (BitVec.ofBool (byte.getLsbD k))) (frameTurns 1) s with
    | .next s' => sendBits byte ks s'
    | .fault r => .fault r
    | .refused r => .refused r

/-- The turns of one iteration of `SUPERLOOP` in which the BUS delivers the bytes `ds` and the HOST polls once at the
end, then drains `n` bytes (R104, R106). -/
def iterationTurns (ds : List Byte) (n : Nat) : List Turn :=
  [.host] ++ ds.map (fun d => .bus (evtWord 1 d)) ++ [.host]
    ++ (List.replicate n ([Turn.host, Turn.host] ++ frameTurns 8)).flatten

/-- The first `n` turns of an infinite schedule. -/
def prefixOf (ts : Nat → Turn) (n : Nat) : List Turn := (List.range n).map ts

/-- Fairness (R146): TIMER, ENCODER and HOST turns come again and again; the BUS owes nothing. -/
structure Fair (ts : Nat → Turn) : Prop where
  timer : ∀ n, ∃ m, n ≤ m ∧ ts m = .timer 1
  encoder : ∀ n, ∃ m, n ≤ m ∧ ts m = .encoder
  host : ∀ n, ∃ m, n ≤ m ∧ ts m = .host

/-! ### The end of a run and the launch premises, along an infinite schedule -/

/-- The end of a run (R149): `t`, after `n` turns, is the first state of the run that can end it. A run that has no such
state hangs (R118). -/
structure EndOfRun (flightAllowed : Bool) (ts : Nat → Turn) (s : State) (n : Nat) (t : State) : Prop where
  reached : runSched (prefixOf ts n) s = .next t
  final : ended flightAllowed t = true
  first : ∀ m u, m < n → runSched (prefixOf ts m) s = .next u → ended flightAllowed u = false

/-- `boot_done` (R150), as a run can show it (log entry 22): with R137 met the BUS agent keeps its contract (R76) at
every state of the run, and the TIMER is running: it overflows again and again (R146). -/
structure BootDone (ts : Nat → Turn) (s : State) : Prop where
  contract : ∀ n u, runSched (prefixOf ts n) s = .next u → keepsContract u (ts n) = true
  timer : ∀ n, ∃ m, n ≤ m ∧ ts m = .timer 1

/-- The launch premises (R150): `reset_state`, or `idle_state` for a script started later; `boot_done`; the parameters'
ranges. -/
structure LaunchPremises (ts : Nat → Turn) (s : State) : Prop where
  start : ResetState s ∨ IdleState s
  boot : BootDone ts s
  params : s.params.wf = true

end Sys2Proof.Safety
end

