-- ==== Sys2Proof/Certificates/Slice0/Obligations.lean ====
section
/-! DEFINITION. The statements for the provers. Each docstring names the rule of spec/ it formalises. -/

open Sys2Proof Sys2Proof.Machine Sys2Proof.Safety

/-! ### Encoding -/

/-- Every operation, with every operand at every value, decodes from the word the encoder gives it (R53 to R56). -/
def Obligations.DecodeOfEncodeIsTheOperation : Prop :=
  ∀ i : Instr, decode (encode i) = .instr i

/-- R59: decoding is by port and table; rows are disjoint; a word of no row is reserved (the strobe 0, which is no word,
R56, is no operation); encoding what a word decodes to gives the word back. -/
def Obligations.DecodingFollowsTheTables : Prop :=
  ∀ p : PortWord,
    (∀ i, decode p = .instr i → encode i = p ∧ i.row ∈ opcodeTable ∧ i.row.admits p = true) ∧
    (∀ r ∈ opcodeTable, r.admits p = true → ∃ i, decode p = .instr i ∧ i.row = r) ∧
    (∀ r ∈ opcodeTable, ∀ q ∈ opcodeTable, r.admits p = true → q.admits p = true → r = q) ∧
    ((∀ r ∈ opcodeTable, r.admits p = false) →
      decode p = if p = .tmr 0 then .error .noOperation else .error .reservedEncoding)

/-- R58: the illegal command and event words are exactly the classes the rule lists, and a step that takes one is
refused in every unmarked state; a command word also while the ENCODER is busy (table C2, 'at any state'; log entry
16). -/
def Obligations.IllegalWordsAreRefused : Prop :=
  (∀ w, illegalCmd w = true ↔ decodeCmd w = .error .reservedEncoding) ∧
  (∀ w, illegalEvt w = true ↔ decodeEvt w = .error .reservedEncoding) ∧
  (∀ s w, s.outcome = .ok → nextTurn s = .host → offered s = some w → illegalCmd w = true →
    step s = .refused .reservedEncoding) ∧
  (∀ s w, s.outcome = .ok → nextTurn s = .bus w → illegalEvt w = true → step s = .refused .reservedEncoding)

/-- Words written out from the encodings of R53, R55 and R56 (tables C1 and C3 of 95_test_vectors.md). -/
def Obligations.WrittenWordsDecode : Prop :=
  decode (.cmd 0x012A04) = .instr (.beginRead 0x2A 4) ∧
  decode (.cmd 0x017FFF) = .instr (.beginRead 0x7F 255) ∧
  decode (.cmd 0x020001) = .instr (.sendBit 1) ∧
  decode (.cmd 0x0300CA) = .instr (.sendByte 0xCA) ∧
  decode (.cmd 0x100000) = .instr .rdStatus ∧
  decode (.cmd 0x110004) = .instr (.rdBuf 4) ∧
  decode (.evt 0x0000) = .instr .evAddrAck ∧
  decode (.evt 0x01CA) = .instr (.evByteRx 0xCA) ∧
  decode (.evt 0x0200) = .instr .evNack ∧
  decode (.evt 0x0300) = .instr .evArbLost ∧
  decode (.evt 0x0400) = .instr .evBusError ∧
  decode (.tmr 1) = .instr .evOvf

/-- R57: the words of the bus commands, kind in bits 9 to 8 and data in bits 7 to 0. -/
def Obligations.BusCommandWords : Prop :=
  (∀ ab, (BusCmd.startRead ab).word.toNat = ab.toNat) ∧
  BusCmd.ack.word = 0x100 ∧ BusCmd.nackStop.word = 0x200 ∧ BusCmd.stop.word = 0x300

/-- The address byte is addr * 2 + 1 and is what an accepted `BEGIN_READ` emits (R62, which the spec takes from general
knowledge: log entry 13), with the rule's three examples. -/
def Obligations.AddressByteIsShiftedWithReadBit : Prop :=
  (∀ addr, (addressByte addr).toNat = addr.toNat * 2 + 1) ∧
  (∀ s t addr len, s.encoder.busy = false → exec (.beginRead addr len) s = .next t →
    t.ports.bc = some (.startRead (addressByte addr))) ∧
  addressByte 0x2A = 0x55 ∧ addressByte 0x7F = 0xFF ∧ addressByte 0x00 = 0x01

/-- The packing of `E_CTL` in the register map (R31): bit 0, bits 2 to 1, bits 5 to 3, bit 6. -/
def Obligations.EncoderControlPacking : Prop :=
  ∀ e : Encoder, (encoderControl e).toNat =
    e.busy.toNat + 2 * e.step.code.toNat + 8 * e.bitIdx.toNat + 64 * e.half.toNat

/-! ### Host commands of the MASTER -/

/-- R66: the tests of `BEGIN_READ` in their order, and its whole effect when it is accepted. -/
def Obligations.BeginReadRule : Prop :=
  ∀ (s : State) (addr : BitVec 7) (len : BitVec 8),
    (s.encoder.busy = true →
      exec (.beginRead addr len) s = .next { s with ports.held := some .encoderBusy }) ∧
    (s.encoder.busy = false → s.master.status = .busy →
      exec (.beginRead addr len) s = .fault .beginWhileBusy) ∧
    (s.encoder.busy = false → s.master.status ≠ .busy → len = 0 →
      exec (.beginRead addr len) s = .refused .zeroLength) ∧
    (s.encoder.busy = false → s.master.status ≠ .busy → len ≠ 0 → s.params.bufCap < len →
      exec (.beginRead addr len) s = .fault .lengthExceedsCapacity) ∧
    (s.encoder.busy = false → s.master.status ≠ .busy → len ≠ 0 → len ≤ s.params.bufCap →
      exec (.beginRead addr len) s = .next
        { s with
          master := { s.master with addr := addr, len := len, cnt := 0, phase := .addr, status := .busy }
          ports.bc := some (.startRead (addressByte addr))
          traces.bc := s.traces.bc ++ [.startRead (addressByte addr)] })

/-- R67: `RD_STATUS` answers the code of the status and changes nothing else; held while the ENCODER is busy. -/
def Obligations.ReadStatusRule : Prop :=
  ∀ s : State,
    (s.encoder.busy = true → exec .rdStatus s = .next { s with ports.held := some .encoderBusy }) ∧
    (s.encoder.busy = false → ∀ st code,
      (st, code) ∈ [(Status.ready, (0x00 : Byte)), (.busy, 0x01), (.errArbLost, 0x02), (.errBusError, 0x03),
        (.errNack, 0x04)] →
      s.master.status = st → exec .rdStatus s = .next { s with ports.rsp := some code })

/-- R68: `RD_BUF` answers the cell, or, where no cell is, a fresh free byte (R39); held while the ENCODER is busy. -/
def Obligations.ReadBufferRule : Prop :=
  ∀ (s : State) (idx : BitVec 8),
    (s.encoder.busy = true → exec (.rdBuf idx) s = .next { s with ports.held := some .encoderBusy }) ∧
    (s.encoder.busy = false → idx < s.params.bufCap →
      exec (.rdBuf idx) s = .next { s with ports.rsp := some (s.cell idx.toNat) }) ∧
    (s.encoder.busy = false → s.params.bufCap ≤ idx →
      exec (.rdBuf idx) s = .next
        { s with ports.rsp := some (Config.freeByte s.freeCtr), freeCtr := s.freeCtr + 1 })

/-- A cell that nothing has written since reset holds its reset draw (R51): the read answers it, and a second read
answers the same, nothing having changed in between. -/
def Obligations.NeverWrittenCellReadsStable : Prop :=
  ∀ (s : State) (idx : BitVec 8), s.encoder.busy = false → idx < s.params.bufCap →
    Memory.read? s.master.buf idx.toNat = none →
    ∃ t, exec (.rdBuf idx) s = .next t ∧
      t.ports.rsp = some (Config.resetCell s.master.bufSeed idx.toNat) ∧ exec (.rdBuf idx) t = .next t

/-- The frame of the reads (R40, R67, R68): nothing but the response, the hold mark and the free-value counter
changes, and every buffer cell reads as before. -/
def Obligations.ReadsChangeNothing : Prop :=
  ∀ (s t : State) (i : Instr), (i = .rdStatus ∨ ∃ idx, i = .rdBuf idx) → exec i s = .next t →
    t.master = s.master ∧ t.encoder = s.encoder ∧ t.timer = s.timer ∧ t.traces = s.traces ∧
    t.ports.bc = s.ports.bc ∧ t.host = s.host ∧ t.params = s.params ∧ ∀ a, t.cell a = s.cell a

/-- Host commands that respect the hazards H1 to H4 and H6 (R138 to R141, R143) are accepted. -/
def Obligations.HazardFreeCommandsAreAccepted : Prop :=
  ∀ (s : State) (i : Instr), i.port = .cmd → s.encoder.busy = false → s.ports.held = none →
    respectsHazards s i = true → ∃ t, exec i s = .next t ∧ t.ports.held = none

/-! ### The bus-event handler -/

/-- R69: the address acknowledge opens the data phase and does nothing else; a second one is spurious. -/
def Obligations.AddressAckRule : Prop :=
  ∀ s : State, s.master.status = .busy →
    (s.master.phase = .addr → exec .evAddrAck s = .next { s with master.phase := .data }) ∧
    (s.master.phase ≠ .addr → exec .evAddrAck s = .fault .spuriousEvent)

/-- R70: a received byte is stored at `M_CNT` before the increment; ACK before the final byte; NACK plus STOP, the idle
phase and `READY` on it; all else unchanged. -/
def Obligations.ByteReceivedRule : Prop :=
  ∀ (s : State) (data : Byte), s.master.status = .busy →
    (s.params.bufCap ≤ s.master.cnt → exec (.evByteRx data) s = .fault .bufferOverrun) ∧
    (s.master.cnt < s.params.bufCap → ∃ t, exec (.evByteRx data) s = .next t ∧
      (∀ a, t.cell a = if a = storeIndex s then data else s.cell a) ∧
      t.master.cnt = s.master.cnt + 1 ∧ t.master.addr = s.master.addr ∧ t.master.len = s.master.len ∧
      t.encoder = s.encoder ∧ t.timer = s.timer ∧ t.traces.line = s.traces.line ∧ t.ports.rsp = s.ports.rsp ∧
      t.ports.held = s.ports.held ∧ t.host = s.host ∧ t.params = s.params ∧
      (s.master.cnt + 1 < s.master.len →
        t.master.status = .busy ∧ t.master.phase = (if s.master.phase = .addr then .data else s.master.phase) ∧
        t.ports.bc = some .ack ∧ t.traces.bc = s.traces.bc ++ [.ack]) ∧
      (s.master.len ≤ s.master.cnt + 1 →
        t.master.status = .ready ∧ t.master.phase = .idle ∧
        t.ports.bc = some .nackStop ∧ t.traces.bc = s.traces.bc ++ [.nackStop]))

/-- R71: `EV_NACK` commands the stop condition, ends the transaction with `ERR_NACK`, and touches nothing else. -/
def Obligations.NackRule : Prop :=
  ∀ s : State, s.master.status = .busy →
    exec .evNack s = .next
      { s with
        master := { s.master with phase := .idle, status := .errNack }
        ports.bc := some .stop
        traces.bc := s.traces.bc ++ [.stop] }

/-- R72: `EV_ARB_LOST` ends the transaction with `ERR_ARB_LOST`, emits nothing, and touches nothing else. -/
def Obligations.ArbitrationLostRule : Prop :=
  ∀ s : State, s.master.status = .busy →
    exec .evArbLost s = .next { s with master := { s.master with phase := .idle, status := .errArbLost } }

/-- R73: `EV_BUS_ERROR` ends the transaction with `ERR_BUS_ERROR`, emits nothing, and touches nothing else. -/
def Obligations.BusErrorRule : Prop :=
  ∀ s : State, s.master.status = .busy →
    exec .evBusError s = .next { s with master := { s.master with phase := .idle, status := .errBusError } }

/-- R74: every bus event with no transaction in flight faults. -/
def Obligations.SpuriousEventRule : Prop :=
  ∀ (s : State) (i : Instr), i.port = .evt → s.master.status ≠ .busy → exec i s = .fault .spuriousEvent

/-- The frame of the bus events that store nothing (R50, R69, R71 to R73): every buffer cell, the counter, the address
and the length keep their values, and so do the ENCODER, the timer and the response port. -/
def Obligations.EventsThatStoreNothingKeepTheBuffer : Prop :=
  ∀ (s t : State) (i : Instr), (i = .evAddrAck ∨ i = .evNack ∨ i = .evArbLost ∨ i = .evBusError) →
    exec i s = .next t →
    (∀ a, t.cell a = s.cell a) ∧ t.master.cnt = s.master.cnt ∧ t.master.addr = s.master.addr ∧
    t.master.len = s.master.len ∧ t.encoder = s.encoder ∧ t.timer = s.timer ∧ t.traces.line = s.traces.line ∧
    t.ports.rsp = s.ports.rsp ∧ t.host = s.host ∧ t.params = s.params

/-- The three error statuses are distinct errors and never `READY` (R15, R107, R108). -/
def Obligations.ErrorEventsGiveDistinctErrors : Prop :=
  ∀ s : State, s.master.status = .busy →
    ∃ a b c, exec .evNack s = .next a ∧ exec .evArbLost s = .next b ∧ exec .evBusError s = .next c ∧
      a.master.status.isError = true ∧ b.master.status.isError = true ∧ c.master.status.isError = true ∧
      a.master.status ≠ b.master.status ∧ b.master.status ≠ c.master.status ∧ a.master.status ≠ c.master.status

/-- An event that the BUS agent's contract allows (R76; log entry 26) is handled: no fault, from every state that meets the
invariants. -/
def Obligations.ContractEventsAreHandled : Prop :=
  ∀ (s : State) (i : Instr), Inv s → busMay s i = true → ∃ t, exec i s = .next t

/-! ### The ENCODER and the timer -/

/-- R78: the level function and the symbols of the two bit values. -/
def Obligations.LevelFunctionTable : Prop :=
  (∀ x h, levelBit (level x h) = (x ^^ h)) ∧ symbol true = [.H, .L] ∧ symbol false = [.L, .H]

/-- `SEND_BIT` and `SEND_BYTE` load their frame at its first half-slot (R79, R80), and are held while a frame is being
sent. -/
def Obligations.SendCommandsLoadTheirFrame : Prop :=
  ∀ s : State,
    (∀ v, s.encoder.busy = false → exec (.sendBit v) s = .next
      { s with encoder := { s.encoder with
          data := v.setWidth 8, nbits := 1, bitIdx := 0, half := false, step := .clear, busy := true } }) ∧
    (∀ byte, s.encoder.busy = false → exec (.sendByte byte) s = .next
      { s with encoder := { s.encoder with
          data := byte, nbits := 8, bitIdx := 0, half := false, step := .clear, busy := true } }) ∧
    (∀ v, s.encoder.busy = true → exec (.sendBit v) s = .next { s with ports.held := some .encoderBusy }) ∧
    (∀ byte, s.encoder.busy = true → exec (.sendByte byte) s = .next { s with ports.held := some .encoderBusy })

/-- The frame of `SEND_BIT`, `SEND_BYTE` and `EV_OVF` (R79, R80, R82): the MASTER, every buffer cell, the traces and the
line are unchanged, and `SEND_` changes no timer register. -/
def Obligations.SendsAndOverflowKeepTheMaster : Prop :=
  ∀ (s t : State) (i : Instr), (i = .evOvf ∨ (∃ v, i = .sendBit v) ∨ ∃ b, i = .sendByte b) → exec i s = .next t →
    t.master = s.master ∧ (∀ a, t.cell a = s.cell a) ∧ t.traces = s.traces ∧ t.encoder.line = s.encoder.line ∧
    t.timer.cmp = s.timer.cmp ∧ (i = .evOvf → t.encoder = s.encoder) ∧ (i ≠ .evOvf → t.timer = s.timer) ∧
    t.ports.rsp = s.ports.rsp ∧ t.ports.bc = s.ports.bc ∧ t.host = s.host ∧ t.params = s.params

/-- R82: `EV_OVF` sets `T_OVF` in every state, and nothing else; on a flag already set it changes nothing. -/
def Obligations.OverflowRule : Prop :=
  ∀ s : State, exec .evOvf s = .next { s with timer.ovf := true } ∧
    (s.timer.ovf = true → exec .evOvf s = .next s)

/-- R84: the micro-step `S_CLEAR`. -/
def Obligations.ClearMicroStepRule : Prop :=
  ∀ s : State, s.encoder.step = .clear →
    takeTurn .encoder s = .next { s with timer.ovf := false, encoder.step := .prog }

/-- R85: the micro-step `S_PROG`; the compare value is the open parameter's (R89). -/
def Obligations.ProgramMicroStepRule : Prop :=
  ∀ s : State, s.encoder.step = .prog →
    takeTurn .encoder s = .next
      { s with
        timer.cmp := Config.edgeOffset (level (s.encoder.data.getLsbD s.encoder.bitIdx.toNat) s.encoder.half)
        encoder.line := level (s.encoder.data.getLsbD s.encoder.bitIdx.toNat) s.encoder.half
        encoder.step := .wait }

/-- R86: the micro-step `S_WAIT`: the hold, the second half, the next bit, the end of the command. -/
def Obligations.WaitMicroStepRule : Prop :=
  ∀ s : State, s.encoder.step = .wait →
    (s.timer.ovf = false → takeTurn .encoder s = .next { s with ports.held := some .awaitOverflow }) ∧
    (s.timer.ovf = true → s.encoder.half = false →
      takeTurn .encoder s = .next
        { s with
          timer.ovf := false
          traces.line := s.traces.line ++ [s.encoder.line]
          encoder := { s.encoder with half := true, step := .clear } }) ∧
    (s.timer.ovf = true → s.encoder.half = true → s.encoder.bitIdx.toNat + 1 < s.encoder.nbits.toNat →
      takeTurn .encoder s = .next
        { s with
          timer.ovf := false
          traces.line := s.traces.line ++ [s.encoder.line]
          encoder := { s.encoder with half := false, bitIdx := s.encoder.bitIdx + 1, step := .clear } }) ∧
    (s.timer.ovf = true → s.encoder.half = true → s.encoder.nbits.toNat ≤ s.encoder.bitIdx.toNat + 1 →
      takeTurn .encoder s = .next
        { s with
          timer.ovf := false
          traces.line := s.traces.line ++ [s.encoder.line]
          encoder := { s.encoder with half := false, bitIdx := 0, step := .idle, busy := false } })

/-- `HALF_OFFSET` is the period halved and rounded down (R88): the halves are equal for an even period and differ by 1
for an odd one. -/
def Obligations.HalfOffsetRoundsDown : Prop :=
  ∀ p : BitVec 16, (halfOffset p).toNat = p.toNat / 2 ∧
    (p.toNat % 2 = 0 → p.toNat - (halfOffset p).toNat = (halfOffset p).toNat) ∧
    (p.toNat % 2 = 1 → p.toNat - (halfOffset p).toNat = (halfOffset p).toNat + 1)

/-- R91: the reference decoder gives a byte exactly on the 16 levels of that byte's frame. -/
def Obligations.Decode16InvertsTheFrame : Prop :=
  ∀ (t : List Level) (b : Byte), decode16 t = some b ↔ t = frameLevels b 8

/-- A list of whole symbols has as many `H` as `L` (R94 (b), "no DC bias"). -/
def Obligations.WholeSymbolsHaveNoBias : Prop :=
  ∀ t : List Level, (decodePairs t).isSome = true → t.count .H = t.count .L

/-- Every step keeps `LINE_TRACE` a list of whole symbols, with the first half of the current one between its
half-slots (R94 (b)). -/
def Obligations.StepKeepsLineTraceSymbols : Prop :=
  ∀ s t : State, EncoderInv s → LineInv s → step s = .next t → LineInv t

/-- While a frame is being sent every turn but a reset keeps the trace at the frame's first levels, until the step that
ends the command, when the whole frame has been appended (R79 to R81, R83, R86), whatever the order of the turns. -/
def Obligations.FrameIsSentUnderAnySchedule : Prop :=
  ∀ (base : List Level) (s t : State), EncoderInv s → Sending base s → nextTurn s ≠ .platform → step s = .next t →
    t.encoder.data = s.encoder.data ∧ t.encoder.nbits = s.encoder.nbits ∧
    (Sending base t ∨ (t.encoder.busy = false ∧ t.traces.line = base ++ wholeFrame s.encoder))

/-- `SEND_BIT` and `SEND_BYTE`, with one overflow per half-slot, complete: two and sixteen overflows, the symbols in bit
order, the ENCODER idle again, the MASTER untouched (R79, R80, R87, R94). -/
def Obligations.SendCommandsCompleteWithTheirSymbols : Prop :=
  ∀ s : State, s.outcome = .ok → s.encoder.busy = false →
    (∀ v : BitVec 1, ∃ t, execThen (.sendBit v) (frameTurns 1) s = .next t ∧
      t.traces.line = s.traces.line ++ symbol (v.getLsbD 0) ∧ t.traces.bc = s.traces.bc ∧ t.master = s.master ∧
      t.encoder.busy = false ∧ t.encoder.step = .idle ∧ t.encoder.bitIdx = 0 ∧ t.encoder.half = false ∧
      t.encoder.line = level (v.getLsbD 0) true ∧ t.timer.ovf = false) ∧
    (∀ b : Byte, ∃ t, execThen (.sendByte b) (frameTurns 8) s = .next t ∧
      t.traces.line = s.traces.line ++ frameLevels b 8 ∧ t.traces.bc = s.traces.bc ∧ t.master = s.master ∧
      t.encoder.busy = false ∧ t.encoder.step = .idle ∧ t.encoder.bitIdx = 0 ∧ t.encoder.half = false ∧
      t.encoder.line = level (b.getLsbD 7) true ∧ t.timer.ovf = false)

/-- `SEND_BYTE` has the same effect on `LINE_TRACE`, `LINE`, `T_OVF` and `T_CMP` as the eight `SEND_BIT`s of its bits,
bit 0 first (R63, R81), one overflow per half-slot. -/
def Obligations.SendByteEqualsEightSendBits : Prop :=
  ∀ (s : State) (b : Byte), s.outcome = .ok → s.encoder.busy = false →
    ∃ t u, execThen (.sendByte b) (frameTurns 8) s = .next t ∧ sendBits b [0, 1, 2, 3, 4, 5, 6, 7] s = .next u ∧
      t.traces.line = u.traces.line ∧ t.encoder.line = u.encoder.line ∧ t.timer = u.timer

/-- No half-slot ends without an overflow after its `S_CLEAR` (R84, R86, R94 (d)): with the flag clear, every turn but
`EV_OVF` and reset leaves the ENCODER in the half-slot and appends nothing; so without the TIMER it holds for ever
(R118 (b)). -/
def Obligations.NoReleaseWithoutOverflow : Prop :=
  ∀ s t : State, EncoderInv s → (s.encoder.step = .prog ∨ s.encoder.step = .wait) → s.timer.ovf = false →
    nextTurn s ≠ .platform → nextTurn s ≠ .timer 1 → step s = .next t →
    (t.encoder.step = .prog ∨ t.encoder.step = .wait) ∧ t.timer.ovf = false ∧ t.traces.line = s.traces.line ∧
    t.encoder.bitIdx = s.encoder.bitIdx ∧ t.encoder.half = s.encoder.half ∧ t.encoder.busy = true

/-- Under fairness every frame completes (R146): along a fair schedule without a reset, on which no step stops, the
ENCODER comes to idle. -/
def Obligations.FairSchedulesCompleteEveryFrame : Prop :=
  ∀ (s : State) (ts : Nat → Turn), EncoderInv s → s.outcome = .ok → Fair ts → (∀ n, ts n ≠ .platform) →
    (∀ n, ∃ t, runSched (prefixOf ts n) s = .next t) →
    ∃ n t, runSched (prefixOf ts n) s = .next t ∧ t.encoder.busy = false

/-! ### The two machines together -/

/-- Bus events leave the ENCODER, the timer and `LINE_TRACE` alone; the ENCODER's commands and micro-steps and `EV_OVF`
leave the MASTER and `BC_TRACE` alone (R92: the two machines share no state). -/
def Obligations.TheTwoMachinesShareNoState : Prop :=
  (∀ (s t : State) (i : Instr), i.port = .evt → exec i s = .next t →
    t.encoder = s.encoder ∧ t.timer = s.timer ∧ t.traces.line = s.traces.line) ∧
  (∀ (s t : State) (i : Instr), i.port ≠ .evt → (∀ a n, i ≠ .beginRead a n) → exec i s = .next t →
    t.master = s.master ∧ t.traces.bc = s.traces.bc) ∧
  (∀ s : State, (microStep s).master = s.master ∧ (microStep s).traces.bc = s.traces.bc)

/-- A bus event gives the same state before and after an ENCODER micro-step, and before and after an overflow (R92,
R113). -/
def Obligations.EventsCommuteWithTheEncoder : Prop :=
  ∀ (s t : State) (i : Instr), i.port = .evt → exec i s = .next t →
    exec i (microStep s) = .next (microStep t) ∧
    ∃ u, exec .evOvf s = .next u ∧ ∃ v, exec i u = .next v ∧ exec .evOvf t = .next v

/-- While the ENCODER is busy a host command is not accepted and stays offered; nothing but the ports' marks, the
schedule and the free-value counter changes (R92, R48). -/
def Obligations.HeldCommandStaysOffered : Prop :=
  ∀ (s : State) (w : CmdWord) (i : Instr), s.outcome = .ok → nextTurn s = .host → offered s = some w →
    decodeCmd w = .instr i → s.encoder.busy = true →
    ∃ t, step s = .next t ∧ t.ports.held = some .encoderBusy ∧ t.ports.rsp = none ∧ t.ports.bc = none ∧
      t.host = s.host ∧ offered t = some w ∧ t.master = s.master ∧ t.encoder = s.encoder ∧ t.timer = s.timer ∧
      t.traces = s.traces ∧ t.sched = s.sched.tail

/-- Only a bus event or a reset ends a transaction, and nothing else touches the MASTER while one is in flight (R105,
R118 (a), R142); only `BEGIN_READ` starts one. -/
def Obligations.OnlyBusEventsEndATransaction : Prop :=
  (∀ s t : State, s.master.status = .busy → (∀ w, nextTurn s ≠ .bus w) → nextTurn s ≠ .platform →
    step s = .next t → t.master = s.master) ∧
  (∀ s t : State, s.master.status ≠ .busy → step s = .next t → t.master.status = .busy →
    nextTurn s = .host ∧ ∃ w a n, offered s = some w ∧ decodeCmd w = .instr (.beginRead a n))

/-- Only `EV_BYTE_RX` changes a buffer cell, the one at `M_CNT`, to its byte (R41, R120); a reset aside. -/
def Obligations.OnlyTheHandlerWritesTheBuffer : Prop :=
  ∀ (s t : State) (a : Nat), nextTurn s ≠ .platform → step s = .next t → t.cell a ≠ s.cell a →
    ∃ w d, nextTurn s = .bus w ∧ decodeEvt w = .instr (.evByteRx d) ∧ a = storeIndex s ∧ t.cell a = d

/-- The traces only grow at their ends between resets (R28). -/
def Obligations.TracesOnlyGrow : Prop :=
  ∀ s t : State, nextTurn s ≠ .platform → step s = .next t →
    s.traces.line <+: t.traces.line ∧ s.traces.bc <+: t.traces.bc

/-- No step writes the parameters or the HOST's script, and the schedule only loses its first turn (R33, R96). -/
def Obligations.StepKeepsParametersAndScript : Prop :=
  ∀ s t : State, step s = .next t →
    t.params = s.params ∧ t.host.script = s.host.script ∧ t.sched = s.sched.tail ∧ t.outcome = .ok

/-! ### Invariants, faults, reset, steps -/

/-- The invariants of R21 and R24 hold at the state after reset. -/
def Obligations.ResetStateMeetsInvariants : Prop :=
  Inv State.reset ∧ ∀ s, ResetState s → Inv s

/-- Every step that answers a next state keeps the invariants of R21 and R24, from every state that meets them. -/
def Obligations.StepKeepsInvariants : Prop :=
  ∀ s t : State, Inv s → step s = .next t → Inv t

/-- From a state that meets the invariants a step faults only as R116 lists, each under the listed condition; the
buffer overrun does not occur. -/
def Obligations.FaultsOnlyAsListed : Prop :=
  ∀ (s : State) (r : Fault), Inv s → s.outcome = .ok → step s = .fault r →
    (r = .beginWhileBusy ∧ nextTurn s = .host ∧ s.master.status = .busy ∧
      ∃ w a n, offered s = some w ∧ decodeCmd w = .instr (.beginRead a n)) ∨
    (r = .lengthExceedsCapacity ∧ nextTurn s = .host ∧
      ∃ w a n, offered s = some w ∧ decodeCmd w = .instr (.beginRead a n) ∧ s.params.bufCap < n) ∨
    (r = .spuriousEvent ∧ ∃ w, nextTurn s = .bus w ∧
      (s.master.status ≠ .busy ∨ (decodeEvt w = .instr .evAddrAck ∧ s.master.phase = .data)))

/-- R35: the mark is `ok` at first; a fault or a refusal sets it; a marked state has no successor, the mark is what the
step answers, nothing clears it, and the state is never final. That `rst` does not clear it either is log entry 9 (R35
against R134). -/
def Obligations.OutcomeMarkIsSticky : Prop :=
  State.reset.outcome = .ok ∧
  (∀ (s : State) (r : Fault), step s = .fault r → (settle s (step s)).outcome = .fault r) ∧
  (∀ (s : State) (r : Refusal), step s = .refused r → (settle s (step s)).outcome = .refuse r) ∧
  (∀ (s : State) (flightAllowed : Bool), s.outcome ≠ .ok → ended flightAllowed s = false) ∧
  (∀ (s : State) (r : Fault), s.outcome = .fault r → step s = .fault r ∧ settle s (step s) = s) ∧
  (∀ (s : State) (r : Refusal), s.outcome = .refuse r → step s = .refused r ∧ settle s (step s) = s)

/-- The reset operation on `rst` (R134), from any unmarked state (log entry 9), active or not (R132): a state of
`reset_state`, with nothing emitted, the parameters as they were (R33; log entry 21), the HOST at the start of its script
and knowing nothing (R130; log entries 11 and 21), whose never-written cells read as that reset's stable values. -/
def Obligations.ResetRule : Prop :=
  ∀ s : State, s.outcome = .ok → nextTurn s = .platform →
    ∃ t, step s = .next t ∧ ResetState t ∧ t.ports.bc = none ∧ t.params = s.params ∧
      t.host = { s.host with pos := 0, phase := .idle, known := [] } ∧
      ∀ i, t.cell i = Config.resetCell t.master.bufSeed i

/-- A step runs the operation its turn's word decodes to: the HOST's, with the HOST going on if it was accepted; the
BUS's; the TIMER's; the ENCODER's micro-step. A HOST turn without a word is the HOST's own (HostScriptSteps); a strobe
of 0 changes nothing. -/
def Obligations.StepRunsTheDecodedOperation : Prop :=
  ∀ s : State, s.outcome = .ok →
    (∀ w i, nextTurn s = .host → offered s = some w → decode (.cmd w) = .instr i →
      step s = afterCommand (exec i (beginTurn s))) ∧
    (nextTurn s = .host → offered s = none → step s = .next (hostSilent (beginTurn s))) ∧
    (∀ w i, nextTurn s = .bus w → decode (.evt w) = .instr i → step s = exec i (beginTurn s)) ∧
    (nextTurn s = .timer 1 → step s = exec .evOvf (beginTurn s)) ∧
    (nextTurn s = .timer 0 → step s = .next (beginTurn s)) ∧
    (nextTurn s = .encoder → step s = .next (microStep (beginTurn s)))

/-- A word placed with `withFetchWord` is what the next step runs (log entry 17). -/
def Obligations.PlacedWordRunsNext : Prop :=
  ∀ (s : State) (nbits w : Nat) (i : Instr), s.outcome = .ok → decodeTableWord nbits w = some i →
    step (s.withFetchWord nbits w) =
      if i.port = .cmd then afterCommand (exec i (beginTurn (s.withFetchWord nbits w)))
      else exec i (beginTurn (s.withFetchWord nbits w))

/-- With no outside turn left and no micro-step enabled the machine waits: the registers stay as they are, for ever
(R118: no step times out). -/
def Obligations.SilentMachineWaits : Prop :=
  ∀ s : State, s.outcome = .ok → s.sched = [] →
    (s.encoder.step = .idle ∨ (s.encoder.step = .wait ∧ s.timer.ovf = false)) →
    ∃ t, step s = .next t ∧ t.sched = [] ∧ t.master = s.master ∧ t.encoder = s.encoder ∧ t.timer = s.timer ∧
      t.traces = s.traces ∧ t.host = s.host ∧ t.outcome = .ok

/-! ### Transactions and the supervisory loop -/

/-- R77: a read whose bytes all arrive, with or without a separate address acknowledge, fills the first cells in the
order received, leaves the others, emits the start, the ACKs and the final NACK plus STOP, and is `BUSY` until the last
byte. -/
def Obligations.SuccessfulReadFillsTheBuffer : Prop :=
  ∀ (s : State) (addr : BitVec 7) (ds : List Byte) (acks : List Instr), s.encoder.busy = false →
    s.master.status ≠ .busy → ds ≠ [] → ds.length ≤ s.params.bufCap.toNat → (acks = [] ∨ acks = [.evAddrAck]) →
    let ops := .beginRead addr (BitVec.ofNat 8 ds.length) :: (acks ++ ds.map .evByteRx)
    (∃ t, execAll ops s = .next t ∧ t.master.status = .ready ∧ t.master.phase = .idle ∧
      t.master.cnt.toNat = ds.length ∧ (∀ k (h : k < ds.length), t.cell k = ds[k]) ∧
      (∀ k, ds.length ≤ k → t.cell k = s.cell k) ∧
      t.traces.bc = s.traces.bc ++ [.startRead (addressByte addr)] ++ List.replicate (ds.length - 1) .ack
        ++ [.nackStop]) ∧
    (∀ n, 1 ≤ n → n < ops.length → ∃ t, execAll (ops.take n) s = .next t ∧ t.master.status = .busy)

/-- What `SUPERLOOP` offers and how it goes on (R99, R101 to R104): the request, the poll until the response is not
`BUSY`, the gate, the drain in index order to its bound, and round again. That Idle offers no command is the
model's choice (log entry 27); how it is left for the first Requesting is in HostScriptSteps. -/
def Obligations.SuperloopCommands : Prop :=
  ∀ (p : Params) (rsp : Byte) (i : BitVec 8) (x : Byte),
    loopOp p .idle = none ∧
    (loopOp p .requesting).bind commandWord = some (cmdWord 0x01 (0#1 ++ p.targetAddr) p.readLen) ∧
    loopNext p rsp .requesting = .waiting ∧
    loopOp p .waiting = some .rdStatus ∧
    (rsp = 0x01 → loopNext p rsp .waiting = .waiting) ∧
    (rsp ≠ 0x01 → (p.gateOnSuccess = false ∨ rsp = 0x00) → loopNext p rsp .waiting = .drainRead 0) ∧
    (rsp ≠ 0x01 → p.gateOnSuccess = true → rsp ≠ 0x00 → loopNext p rsp .waiting = .requesting) ∧
    loopOp p (.drainRead i) = some (.rdBuf i) ∧ loopNext p rsp (.drainRead i) = .drainSend i rsp ∧
    loopOp p (.drainSend i x) = some (.sendByte x) ∧
    (p.drainInclusive = true → i < p.bufCap → loopNext p rsp (.drainSend i x) = .drainRead (i + 1)) ∧
    (p.drainInclusive = true → p.bufCap ≤ i → loopNext p rsp (.drainSend i x) = .requesting) ∧
    (p.drainInclusive = false → i.toNat + 1 < p.readLen.toNat →
      loopNext p rsp (.drainSend i x) = .drainRead (i + 1)) ∧
    (p.drainInclusive = false → p.readLen.toNat ≤ i.toNat + 1 → loopNext p rsp (.drainSend i x) = .requesting)

/-- R100: from reset the loop keeps its duty under every schedule, whatever the BUS does, and no turn of the HOST ever
stops: `REQUEST` never faults inside `SUPERLOOP`. The duty's second half is R104's: the two machines are never active
at the same time. -/
def Obligations.SuperloopNeverFaults : Prop :=
  (∀ s, ResetState s → LoopAt .idle s → LoopInv s) ∧
  (∀ s t, LoopInv s → step s = .next t → LoopInv t) ∧
  (∀ s, LoopInv s → s.outcome = .ok → s.params.wf = true → nextTurn s = .host → ∃ t, step s = .next t)

/-- R106: one successful iteration of the loop reads the bytes and sends their frames in order; with the inclusive
bound one more frame, of an arbitrary byte, follows. -/
def Obligations.SuperloopIteration : Prop :=
  ∀ (s : State) (ds : List Byte), IdleState s → LoopAt .requesting s → s.params.wf = true →
    ds.length = s.params.readLen.toNat →
    (s.params.drainInclusive = false →
      ∃ t, runSched (iterationTurns ds ds.length) s = .next t ∧ t.master.status = .ready ∧
        (∀ k (h : k < ds.length), t.cell k = ds[k]) ∧ t.encoder.busy = false ∧
        LoopAt .requesting t ∧
        t.traces.line = s.traces.line ++ ds.flatMap (fun d => frameLevels d 8)) ∧
    (s.params.drainInclusive = true → s.params.readLen = s.params.bufCap →
      ∃ t x, runSched (iterationTurns ds (ds.length + 1)) s = .next t ∧ t.master.status = .ready ∧
        (∀ k (h : k < ds.length), t.cell k = ds[k]) ∧ t.encoder.busy = false ∧
        LoopAt .requesting t ∧
        t.traces.line = s.traces.line ++ (ds ++ [x]).flatMap (fun d => frameLevels d 8))

/-! ### Host scripts, the end of a run, launch premises -/

/-- A HOST turn of any script (R95, R96): a finished script does nothing; between commands the HOST computes from what it
knows, or jumps; a computed command is what its word decodes to, and is followed by the next item once it is accepted;
the response of an accepted command is what the HOST then knows latest; every item offers its word and goes on as its
rule says, `WAIT_DONE` until the response is not `BUSY` (R101), `DRAIN` to its bound (R103); the supervisory loop goes from Idle to its
first Requesting (R97). The items of a script are the model's (log entry 11), and so is that Idle is left on a HOST turn
of its own (log entry 27). -/
def Obligations.HostScriptSteps : Prop :=
  ∀ s : State, s.outcome = .ok → nextTurn s = .host →
    (s.host.script[s.host.pos]? = none → step s = .next (beginTurn s)) ∧
    (∀ e, s.host.script[s.host.pos]? = some (.compute e) →
      step s = .next
        { beginTurn s with
          host := { s.host with
            known := exprValue s.host.known e :: s.host.known, pos := s.host.pos + 1, phase := .idle } }) ∧
    (∀ e, s.host.script[s.host.pos]? = some (.goTo e) →
      step s = .next { beginTurn s with host := { s.host with pos := exprValue s.host.known e, phase := .idle } }) ∧
    (s.host.script[s.host.pos]? = some .superloop → s.host.phase = .idle →
      step s = .next { beginTurn s with host := { s.host with phase := .requesting } }) ∧
    (∀ op a b i, s.host.script[s.host.pos]? = some (.command op a b) →
      decodeCmd (computedWord s.host.known op a b) = .instr i →
      step s = afterCommand (exec i (beginTurn s)) ∧
      ∀ s', exec i (beginTurn s) = .next s' → s'.ports.held = none →
        ∃ t, step s = .next t ∧ t.host.pos = s.host.pos + 1 ∧ t.host.phase = .idle) ∧
    (∀ w i s', offered s = some w → decodeCmd w = .instr i → exec i (beginTurn s) = .next s' → s'.ports.held = none →
      ∃ t, step s = .next t ∧ t.host.known = (s'.ports.rsp.map BitVec.toNat).toList ++ s.host.known ∧
        ∀ item, s.host.script[s.host.pos]? = some item → HostGoesOn s w s'.ports.rsp t item)

/-- The end of a run (R149) is one state, it is no later for a claim that allows a transaction in flight, and the two
hangs of R118 have none: a transaction whose BUS stays silent (R142), and a transmission whose TIMER stays silent. -/
def Obligations.RunsEndOnceAndHangsNever : Prop :=
  (∀ f ts s n m t u, EndOfRun f ts s n t → EndOfRun f ts s m u → n = m ∧ t = u) ∧
  (∀ ts s n t, EndOfRun false ts s n t → ∃ m u, m ≤ n ∧ EndOfRun true ts s m u) ∧
  (∀ ts s n t, s.master.status = .busy → (∀ k w, ts k ≠ .bus w) → (∀ k, ts k ≠ .platform) →
    ¬ EndOfRun false ts s n t) ∧
  (∀ f ts s n t, EncoderInv s → s.encoder.busy = true → s.timer.ovf = false → (∀ k, ts k ≠ .timer 1) →
    (∀ k, ts k ≠ .platform) → ¬ EndOfRun f ts s n t)

/-- Under the launch premises (R150) the BUS's turns never stop a run: at every state that a launched run reaches, the
event that the BUS delivers under its contract (R76; after a mid-run reset as log entry 26 reads it) is handled. -/
def Obligations.LaunchedRunsHandleEveryEvent : Prop :=
  ∀ (ts : Nat → Turn) (s u : State) (n : Nat) (w : EvtWord), LaunchPremises ts s → Inv s →
    runSched (prefixOf ts n) s = .next u → ts n = .bus w → ∃ t, runSched (prefixOf ts (n + 1)) s = .next t
end

