-- ==== Sys2Proof/Laws/Decode.lean ====
section
/-! SUPPORT. The fields of the words the encoder builds, and what a decoded field check says. -/

namespace Sys2Proof.Laws

variable (o a b : BitVec 8)

@[simp] theorem cmdWord_op : CmdWord.op (cmdWord o a b) = o := by
  apply BitVec.eq_of_getElem_eq
  intro k hk
  simp only [CmdWord.op, cmdWord, BitVec.getElem_extractLsb', BitVec.getLsbD_append]
  interval_cases k <;> simp

@[simp] theorem cmdWord_a : CmdWord.a (cmdWord o a b) = a := by
  apply BitVec.eq_of_getElem_eq
  intro k hk
  simp only [CmdWord.a, cmdWord, BitVec.getElem_extractLsb', BitVec.getLsbD_append]
  interval_cases k <;> simp

@[simp] theorem cmdWord_b : CmdWord.b (cmdWord o a b) = b := by
  apply BitVec.eq_of_getElem_eq
  intro k hk
  simp only [CmdWord.b, cmdWord, BitVec.getElem_extractLsb', BitVec.getLsbD_append]
  interval_cases k <;> simp

/-- The address field of a command word is the low seven bits of its second byte (R53). -/
@[simp] theorem cmdWord_addr : (cmdWord o a b).extractLsb' 8 7 = a.extractLsb' 0 7 := by
  apply BitVec.eq_of_getElem_eq
  intro k hk
  simp only [cmdWord, BitVec.getElem_extractLsb', BitVec.getLsbD_append]
  interval_cases k <;> simp

/-- Bit 15 of a command word is bit 7 of its second byte (R53). -/
@[simp] theorem cmdWord_bit15 : (cmdWord o a b).extractLsb' 15 1 = a.extractLsb' 7 1 := by
  apply BitVec.eq_of_getElem_eq
  intro k hk
  simp only [cmdWord, BitVec.getElem_extractLsb', BitVec.getLsbD_append]
  interval_cases k
  simp

variable (kind : BitVec 3) (data : BitVec 8)

@[simp] theorem evtWord_zero : EvtWord.zero (evtWord kind data) = 0 := by
  apply BitVec.eq_of_getElem_eq
  intro k hk
  simp only [EvtWord.zero, evtWord, BitVec.getElem_extractLsb', BitVec.getLsbD_append]
  interval_cases k <;> simp

@[simp] theorem evtWord_kind : EvtWord.kind (evtWord kind data) = kind := by
  apply BitVec.eq_of_getElem_eq
  intro k hk
  simp only [EvtWord.kind, evtWord, BitVec.getElem_extractLsb', BitVec.getLsbD_append]
  interval_cases k <;> simp

@[simp] theorem evtWord_data : EvtWord.data (evtWord kind data) = data := by
  apply BitVec.eq_of_getElem_eq
  intro k hk
  simp only [EvtWord.data, evtWord, BitVec.getElem_extractLsb', BitVec.getLsbD_append]
  interval_cases k <;> simp

/-- A must-be-zero check passes exactly when the bits are zero (R58). -/
theorem whenZero_instr {n : Nat} (must : BitVec n) (i j : Instr) :
    whenZero must i = .instr j ↔ must = 0 ∧ i = j := by
  unfold whenZero
  split <;> simp_all

/-- What a command word decodes to is a host command (R53, R59). -/
theorem decodeCmd_port {w : CmdWord} {i : Instr} (h : decodeCmd w = .instr i) : i.port = .cmd := by
  unfold decodeCmd at h
  split at h
  · obtain ⟨-, rfl⟩ := (whenZero_instr _ _ _).1 h
    rfl
  split at h
  · obtain ⟨-, rfl⟩ := (whenZero_instr _ _ _).1 h
    rfl
  split at h
  · obtain ⟨-, rfl⟩ := (whenZero_instr _ _ _).1 h
    rfl
  split at h
  · obtain ⟨-, rfl⟩ := (whenZero_instr _ _ _).1 h
    rfl
  split at h
  · obtain ⟨-, rfl⟩ := (whenZero_instr _ _ _).1 h
    rfl
  · cases h

/-- What an event word decodes to is a bus event (R55, R59). -/
theorem decodeEvt_port {w : EvtWord} {i : Instr} (h : decodeEvt w = .instr i) : i.port = .evt := by
  unfold decodeEvt at h
  split at h
  · cases h
  split at h
  · obtain ⟨-, rfl⟩ := (whenZero_instr _ _ _).1 h
    rfl
  split at h
  · cases h
    rfl
  split at h
  · obtain ⟨-, rfl⟩ := (whenZero_instr _ _ _).1 h
    rfl
  split at h
  · obtain ⟨-, rfl⟩ := (whenZero_instr _ _ _).1 h
    rfl
  split at h
  · obtain ⟨-, rfl⟩ := (whenZero_instr _ _ _).1 h
    rfl
  · cases h

/-- A command or event word is never the idle strobe. -/
theorem decodeCmd_error {w : CmdWord} {e : DecodeError} (h : decodeCmd w = .error e) : e = .reservedEncoding := by
  unfold decodeCmd whenZero at h
  grind

theorem decodeEvt_error {w : EvtWord} {e : DecodeError} (h : decodeEvt w = .error e) : e = .reservedEncoding := by
  unfold decodeEvt whenZero at h
  grind

/-- The strobe's two values (R56). -/
theorem decodeTmr_cases (w : TmrWord) :
    (w = 1 ∧ decodeTmr w = .instr .evOvf) ∨ (w = 0 ∧ decodeTmr w = .error .noOperation) := by
  by_cases h : w = 1
  · exact .inl ⟨h, if_pos h⟩
  · exact .inr ⟨by bv_omega, if_neg h⟩

end Sys2Proof.Laws
end

