-- ==== Sys2Proof/Laws/State.lean ====
section
/-! SUPPORT. What each named update of State does to each component: one lemma per component per update, true by
rfl. -/

namespace Sys2Proof.Machine

variable (s : State)

@[simp] theorem State.setStatus_params (x : Status) : (s.setStatus x).params = s.params := rfl
@[simp] theorem State.setStatus_master (x : Status) : (s.setStatus x).master = { s.master with status := x } := rfl
@[simp] theorem State.setStatus_encoder (x : Status) : (s.setStatus x).encoder = s.encoder := rfl
@[simp] theorem State.setStatus_timer (x : Status) : (s.setStatus x).timer = s.timer := rfl
@[simp] theorem State.setStatus_ports (x : Status) : (s.setStatus x).ports = s.ports := rfl
@[simp] theorem State.setStatus_traces (x : Status) : (s.setStatus x).traces = s.traces := rfl
@[simp] theorem State.setStatus_host (x : Status) : (s.setStatus x).host = s.host := rfl
@[simp] theorem State.setStatus_sched (x : Status) : (s.setStatus x).sched = s.sched := rfl
@[simp] theorem State.setStatus_freeCtr (x : Status) : (s.setStatus x).freeCtr = s.freeCtr := rfl
@[simp] theorem State.setStatus_outcome (x : Status) : (s.setStatus x).outcome = s.outcome := rfl

@[simp] theorem State.setPhase_params (x : Phase) : (s.setPhase x).params = s.params := rfl
@[simp] theorem State.setPhase_master (x : Phase) : (s.setPhase x).master = { s.master with phase := x } := rfl
@[simp] theorem State.setPhase_encoder (x : Phase) : (s.setPhase x).encoder = s.encoder := rfl
@[simp] theorem State.setPhase_timer (x : Phase) : (s.setPhase x).timer = s.timer := rfl
@[simp] theorem State.setPhase_ports (x : Phase) : (s.setPhase x).ports = s.ports := rfl
@[simp] theorem State.setPhase_traces (x : Phase) : (s.setPhase x).traces = s.traces := rfl
@[simp] theorem State.setPhase_host (x : Phase) : (s.setPhase x).host = s.host := rfl
@[simp] theorem State.setPhase_sched (x : Phase) : (s.setPhase x).sched = s.sched := rfl
@[simp] theorem State.setPhase_freeCtr (x : Phase) : (s.setPhase x).freeCtr = s.freeCtr := rfl
@[simp] theorem State.setPhase_outcome (x : Phase) : (s.setPhase x).outcome = s.outcome := rfl

@[simp] theorem State.setCnt_params (x : BitVec 8) : (s.setCnt x).params = s.params := rfl
@[simp] theorem State.setCnt_master (x : BitVec 8) : (s.setCnt x).master = { s.master with cnt := x } := rfl
@[simp] theorem State.setCnt_encoder (x : BitVec 8) : (s.setCnt x).encoder = s.encoder := rfl
@[simp] theorem State.setCnt_timer (x : BitVec 8) : (s.setCnt x).timer = s.timer := rfl
@[simp] theorem State.setCnt_ports (x : BitVec 8) : (s.setCnt x).ports = s.ports := rfl
@[simp] theorem State.setCnt_traces (x : BitVec 8) : (s.setCnt x).traces = s.traces := rfl
@[simp] theorem State.setCnt_host (x : BitVec 8) : (s.setCnt x).host = s.host := rfl
@[simp] theorem State.setCnt_sched (x : BitVec 8) : (s.setCnt x).sched = s.sched := rfl
@[simp] theorem State.setCnt_freeCtr (x : BitVec 8) : (s.setCnt x).freeCtr = s.freeCtr := rfl
@[simp] theorem State.setCnt_outcome (x : BitVec 8) : (s.setCnt x).outcome = s.outcome := rfl

@[simp] theorem State.latchTransfer_params (a : BitVec 7) (n : BitVec 8) : (s.latchTransfer a n).params = s.params := rfl
@[simp] theorem State.latchTransfer_master (a : BitVec 7) (n : BitVec 8) : (s.latchTransfer a n).master = { s.master with addr := a, len := n } := rfl
@[simp] theorem State.latchTransfer_encoder (a : BitVec 7) (n : BitVec 8) : (s.latchTransfer a n).encoder = s.encoder := rfl
@[simp] theorem State.latchTransfer_timer (a : BitVec 7) (n : BitVec 8) : (s.latchTransfer a n).timer = s.timer := rfl
@[simp] theorem State.latchTransfer_ports (a : BitVec 7) (n : BitVec 8) : (s.latchTransfer a n).ports = s.ports := rfl
@[simp] theorem State.latchTransfer_traces (a : BitVec 7) (n : BitVec 8) : (s.latchTransfer a n).traces = s.traces := rfl
@[simp] theorem State.latchTransfer_host (a : BitVec 7) (n : BitVec 8) : (s.latchTransfer a n).host = s.host := rfl
@[simp] theorem State.latchTransfer_sched (a : BitVec 7) (n : BitVec 8) : (s.latchTransfer a n).sched = s.sched := rfl
@[simp] theorem State.latchTransfer_freeCtr (a : BitVec 7) (n : BitVec 8) : (s.latchTransfer a n).freeCtr = s.freeCtr := rfl
@[simp] theorem State.latchTransfer_outcome (a : BitVec 7) (n : BitVec 8) : (s.latchTransfer a n).outcome = s.outcome := rfl

@[simp] theorem State.storeByte_params (i : Nat) (v : Byte) : (s.storeByte i v).params = s.params := rfl
@[simp] theorem State.storeByte_master (i : Nat) (v : Byte) : (s.storeByte i v).master = { s.master with buf := Memory.write s.master.buf i v } := rfl
@[simp] theorem State.storeByte_encoder (i : Nat) (v : Byte) : (s.storeByte i v).encoder = s.encoder := rfl
@[simp] theorem State.storeByte_timer (i : Nat) (v : Byte) : (s.storeByte i v).timer = s.timer := rfl
@[simp] theorem State.storeByte_ports (i : Nat) (v : Byte) : (s.storeByte i v).ports = s.ports := rfl
@[simp] theorem State.storeByte_traces (i : Nat) (v : Byte) : (s.storeByte i v).traces = s.traces := rfl
@[simp] theorem State.storeByte_host (i : Nat) (v : Byte) : (s.storeByte i v).host = s.host := rfl
@[simp] theorem State.storeByte_sched (i : Nat) (v : Byte) : (s.storeByte i v).sched = s.sched := rfl
@[simp] theorem State.storeByte_freeCtr (i : Nat) (v : Byte) : (s.storeByte i v).freeCtr = s.freeCtr := rfl
@[simp] theorem State.storeByte_outcome (i : Nat) (v : Byte) : (s.storeByte i v).outcome = s.outcome := rfl

@[simp] theorem State.loadFrame_params (d : Byte) (n : BitVec 4) : (s.loadFrame d n).params = s.params := rfl
@[simp] theorem State.loadFrame_master (d : Byte) (n : BitVec 4) : (s.loadFrame d n).master = s.master := rfl
@[simp] theorem State.loadFrame_encoder (d : Byte) (n : BitVec 4) : (s.loadFrame d n).encoder = { s.encoder with data := d, nbits := n, bitIdx := 0, half := false, step := .clear, busy := true } := rfl
@[simp] theorem State.loadFrame_timer (d : Byte) (n : BitVec 4) : (s.loadFrame d n).timer = s.timer := rfl
@[simp] theorem State.loadFrame_ports (d : Byte) (n : BitVec 4) : (s.loadFrame d n).ports = s.ports := rfl
@[simp] theorem State.loadFrame_traces (d : Byte) (n : BitVec 4) : (s.loadFrame d n).traces = s.traces := rfl
@[simp] theorem State.loadFrame_host (d : Byte) (n : BitVec 4) : (s.loadFrame d n).host = s.host := rfl
@[simp] theorem State.loadFrame_sched (d : Byte) (n : BitVec 4) : (s.loadFrame d n).sched = s.sched := rfl
@[simp] theorem State.loadFrame_freeCtr (d : Byte) (n : BitVec 4) : (s.loadFrame d n).freeCtr = s.freeCtr := rfl
@[simp] theorem State.loadFrame_outcome (d : Byte) (n : BitVec 4) : (s.loadFrame d n).outcome = s.outcome := rfl

@[simp] theorem State.setEStep_params (x : EStep) : (s.setEStep x).params = s.params := rfl
@[simp] theorem State.setEStep_master (x : EStep) : (s.setEStep x).master = s.master := rfl
@[simp] theorem State.setEStep_encoder (x : EStep) : (s.setEStep x).encoder = { s.encoder with step := x } := rfl
@[simp] theorem State.setEStep_timer (x : EStep) : (s.setEStep x).timer = s.timer := rfl
@[simp] theorem State.setEStep_ports (x : EStep) : (s.setEStep x).ports = s.ports := rfl
@[simp] theorem State.setEStep_traces (x : EStep) : (s.setEStep x).traces = s.traces := rfl
@[simp] theorem State.setEStep_host (x : EStep) : (s.setEStep x).host = s.host := rfl
@[simp] theorem State.setEStep_sched (x : EStep) : (s.setEStep x).sched = s.sched := rfl
@[simp] theorem State.setEStep_freeCtr (x : EStep) : (s.setEStep x).freeCtr = s.freeCtr := rfl
@[simp] theorem State.setEStep_outcome (x : EStep) : (s.setEStep x).outcome = s.outcome := rfl

@[simp] theorem State.setOvf_params (x : Bool) : (s.setOvf x).params = s.params := rfl
@[simp] theorem State.setOvf_master (x : Bool) : (s.setOvf x).master = s.master := rfl
@[simp] theorem State.setOvf_encoder (x : Bool) : (s.setOvf x).encoder = s.encoder := rfl
@[simp] theorem State.setOvf_timer (x : Bool) : (s.setOvf x).timer = { s.timer with ovf := x } := rfl
@[simp] theorem State.setOvf_ports (x : Bool) : (s.setOvf x).ports = s.ports := rfl
@[simp] theorem State.setOvf_traces (x : Bool) : (s.setOvf x).traces = s.traces := rfl
@[simp] theorem State.setOvf_host (x : Bool) : (s.setOvf x).host = s.host := rfl
@[simp] theorem State.setOvf_sched (x : Bool) : (s.setOvf x).sched = s.sched := rfl
@[simp] theorem State.setOvf_freeCtr (x : Bool) : (s.setOvf x).freeCtr = s.freeCtr := rfl
@[simp] theorem State.setOvf_outcome (x : Bool) : (s.setOvf x).outcome = s.outcome := rfl

@[simp] theorem State.programLevel_params (l : Level) : (s.programLevel l).params = s.params := rfl
@[simp] theorem State.programLevel_master (l : Level) : (s.programLevel l).master = s.master := rfl
@[simp] theorem State.programLevel_encoder (l : Level) : (s.programLevel l).encoder = { s.encoder with line := l } := rfl
@[simp] theorem State.programLevel_timer (l : Level) : (s.programLevel l).timer = { s.timer with cmp := Config.edgeOffset l } := rfl
@[simp] theorem State.programLevel_ports (l : Level) : (s.programLevel l).ports = s.ports := rfl
@[simp] theorem State.programLevel_traces (l : Level) : (s.programLevel l).traces = s.traces := rfl
@[simp] theorem State.programLevel_host (l : Level) : (s.programLevel l).host = s.host := rfl
@[simp] theorem State.programLevel_sched (l : Level) : (s.programLevel l).sched = s.sched := rfl
@[simp] theorem State.programLevel_freeCtr (l : Level) : (s.programLevel l).freeCtr = s.freeCtr := rfl
@[simp] theorem State.programLevel_outcome (l : Level) : (s.programLevel l).outcome = s.outcome := rfl

@[simp] theorem State.appendLine_params (l : Level) : (s.appendLine l).params = s.params := rfl
@[simp] theorem State.appendLine_master (l : Level) : (s.appendLine l).master = s.master := rfl
@[simp] theorem State.appendLine_encoder (l : Level) : (s.appendLine l).encoder = s.encoder := rfl
@[simp] theorem State.appendLine_timer (l : Level) : (s.appendLine l).timer = s.timer := rfl
@[simp] theorem State.appendLine_ports (l : Level) : (s.appendLine l).ports = s.ports := rfl
@[simp] theorem State.appendLine_traces (l : Level) : (s.appendLine l).traces = { s.traces with line := s.traces.line ++ [l] } := rfl
@[simp] theorem State.appendLine_host (l : Level) : (s.appendLine l).host = s.host := rfl
@[simp] theorem State.appendLine_sched (l : Level) : (s.appendLine l).sched = s.sched := rfl
@[simp] theorem State.appendLine_freeCtr (l : Level) : (s.appendLine l).freeCtr = s.freeCtr := rfl
@[simp] theorem State.appendLine_outcome (l : Level) : (s.appendLine l).outcome = s.outcome := rfl

@[simp] theorem State.toHalfSlot_params (b : BitVec 3) (h : Bool) : (s.toHalfSlot b h).params = s.params := rfl
@[simp] theorem State.toHalfSlot_master (b : BitVec 3) (h : Bool) : (s.toHalfSlot b h).master = s.master := rfl
@[simp] theorem State.toHalfSlot_encoder (b : BitVec 3) (h : Bool) : (s.toHalfSlot b h).encoder = { s.encoder with bitIdx := b, half := h, step := .clear } := rfl
@[simp] theorem State.toHalfSlot_timer (b : BitVec 3) (h : Bool) : (s.toHalfSlot b h).timer = s.timer := rfl
@[simp] theorem State.toHalfSlot_ports (b : BitVec 3) (h : Bool) : (s.toHalfSlot b h).ports = s.ports := rfl
@[simp] theorem State.toHalfSlot_traces (b : BitVec 3) (h : Bool) : (s.toHalfSlot b h).traces = s.traces := rfl
@[simp] theorem State.toHalfSlot_host (b : BitVec 3) (h : Bool) : (s.toHalfSlot b h).host = s.host := rfl
@[simp] theorem State.toHalfSlot_sched (b : BitVec 3) (h : Bool) : (s.toHalfSlot b h).sched = s.sched := rfl
@[simp] theorem State.toHalfSlot_freeCtr (b : BitVec 3) (h : Bool) : (s.toHalfSlot b h).freeCtr = s.freeCtr := rfl
@[simp] theorem State.toHalfSlot_outcome (b : BitVec 3) (h : Bool) : (s.toHalfSlot b h).outcome = s.outcome := rfl

@[simp] theorem State.finishFrame_params : s.finishFrame.params = s.params := rfl
@[simp] theorem State.finishFrame_master : s.finishFrame.master = s.master := rfl
@[simp] theorem State.finishFrame_encoder : s.finishFrame.encoder = { s.encoder with bitIdx := 0, half := false, step := .idle, busy := false } := rfl
@[simp] theorem State.finishFrame_timer : s.finishFrame.timer = s.timer := rfl
@[simp] theorem State.finishFrame_ports : s.finishFrame.ports = s.ports := rfl
@[simp] theorem State.finishFrame_traces : s.finishFrame.traces = s.traces := rfl
@[simp] theorem State.finishFrame_host : s.finishFrame.host = s.host := rfl
@[simp] theorem State.finishFrame_sched : s.finishFrame.sched = s.sched := rfl
@[simp] theorem State.finishFrame_freeCtr : s.finishFrame.freeCtr = s.freeCtr := rfl
@[simp] theorem State.finishFrame_outcome : s.finishFrame.outcome = s.outcome := rfl

@[simp] theorem State.emit_params (c : BusCmd) : (s.emit c).params = s.params := rfl
@[simp] theorem State.emit_master (c : BusCmd) : (s.emit c).master = s.master := rfl
@[simp] theorem State.emit_encoder (c : BusCmd) : (s.emit c).encoder = s.encoder := rfl
@[simp] theorem State.emit_timer (c : BusCmd) : (s.emit c).timer = s.timer := rfl
@[simp] theorem State.emit_ports (c : BusCmd) : (s.emit c).ports = { s.ports with bc := some c } := rfl
@[simp] theorem State.emit_traces (c : BusCmd) : (s.emit c).traces = { s.traces with bc := s.traces.bc ++ [c] } := rfl
@[simp] theorem State.emit_host (c : BusCmd) : (s.emit c).host = s.host := rfl
@[simp] theorem State.emit_sched (c : BusCmd) : (s.emit c).sched = s.sched := rfl
@[simp] theorem State.emit_freeCtr (c : BusCmd) : (s.emit c).freeCtr = s.freeCtr := rfl
@[simp] theorem State.emit_outcome (c : BusCmd) : (s.emit c).outcome = s.outcome := rfl

@[simp] theorem State.respond_params (v : Byte) : (s.respond v).params = s.params := rfl
@[simp] theorem State.respond_master (v : Byte) : (s.respond v).master = s.master := rfl
@[simp] theorem State.respond_encoder (v : Byte) : (s.respond v).encoder = s.encoder := rfl
@[simp] theorem State.respond_timer (v : Byte) : (s.respond v).timer = s.timer := rfl
@[simp] theorem State.respond_ports (v : Byte) : (s.respond v).ports = { s.ports with rsp := some v } := rfl
@[simp] theorem State.respond_traces (v : Byte) : (s.respond v).traces = s.traces := rfl
@[simp] theorem State.respond_host (v : Byte) : (s.respond v).host = s.host := rfl
@[simp] theorem State.respond_sched (v : Byte) : (s.respond v).sched = s.sched := rfl
@[simp] theorem State.respond_freeCtr (v : Byte) : (s.respond v).freeCtr = s.freeCtr := rfl
@[simp] theorem State.respond_outcome (v : Byte) : (s.respond v).outcome = s.outcome := rfl

@[simp] theorem State.hold_params (r : Hold) : (s.hold r).params = s.params := rfl
@[simp] theorem State.hold_master (r : Hold) : (s.hold r).master = s.master := rfl
@[simp] theorem State.hold_encoder (r : Hold) : (s.hold r).encoder = s.encoder := rfl
@[simp] theorem State.hold_timer (r : Hold) : (s.hold r).timer = s.timer := rfl
@[simp] theorem State.hold_ports (r : Hold) : (s.hold r).ports = { s.ports with held := some r } := rfl
@[simp] theorem State.hold_traces (r : Hold) : (s.hold r).traces = s.traces := rfl
@[simp] theorem State.hold_host (r : Hold) : (s.hold r).host = s.host := rfl
@[simp] theorem State.hold_sched (r : Hold) : (s.hold r).sched = s.sched := rfl
@[simp] theorem State.hold_freeCtr (r : Hold) : (s.hold r).freeCtr = s.freeCtr := rfl
@[simp] theorem State.hold_outcome (r : Hold) : (s.hold r).outcome = s.outcome := rfl

@[simp] theorem State.bumpFree_params : s.bumpFree.params = s.params := rfl
@[simp] theorem State.bumpFree_master : s.bumpFree.master = s.master := rfl
@[simp] theorem State.bumpFree_encoder : s.bumpFree.encoder = s.encoder := rfl
@[simp] theorem State.bumpFree_timer : s.bumpFree.timer = s.timer := rfl
@[simp] theorem State.bumpFree_ports : s.bumpFree.ports = s.ports := rfl
@[simp] theorem State.bumpFree_traces : s.bumpFree.traces = s.traces := rfl
@[simp] theorem State.bumpFree_host : s.bumpFree.host = s.host := rfl
@[simp] theorem State.bumpFree_sched : s.bumpFree.sched = s.sched := rfl
@[simp] theorem State.bumpFree_freeCtr : s.bumpFree.freeCtr = s.freeCtr + 1 := rfl
@[simp] theorem State.bumpFree_outcome : s.bumpFree.outcome = s.outcome := rfl

@[simp] theorem State.clearPorts_params : s.clearPorts.params = s.params := rfl
@[simp] theorem State.clearPorts_master : s.clearPorts.master = s.master := rfl
@[simp] theorem State.clearPorts_encoder : s.clearPorts.encoder = s.encoder := rfl
@[simp] theorem State.clearPorts_timer : s.clearPorts.timer = s.timer := rfl
@[simp] theorem State.clearPorts_ports : s.clearPorts.ports = { rsp := none, bc := none, held := none } := rfl
@[simp] theorem State.clearPorts_traces : s.clearPorts.traces = s.traces := rfl
@[simp] theorem State.clearPorts_host : s.clearPorts.host = s.host := rfl
@[simp] theorem State.clearPorts_sched : s.clearPorts.sched = s.sched := rfl
@[simp] theorem State.clearPorts_freeCtr : s.clearPorts.freeCtr = s.freeCtr + 1 := rfl
@[simp] theorem State.clearPorts_outcome : s.clearPorts.outcome = s.outcome := rfl

@[simp] theorem State.setSched_params (ts : List Turn) : (s.setSched ts).params = s.params := rfl
@[simp] theorem State.setSched_master (ts : List Turn) : (s.setSched ts).master = s.master := rfl
@[simp] theorem State.setSched_encoder (ts : List Turn) : (s.setSched ts).encoder = s.encoder := rfl
@[simp] theorem State.setSched_timer (ts : List Turn) : (s.setSched ts).timer = s.timer := rfl
@[simp] theorem State.setSched_ports (ts : List Turn) : (s.setSched ts).ports = s.ports := rfl
@[simp] theorem State.setSched_traces (ts : List Turn) : (s.setSched ts).traces = s.traces := rfl
@[simp] theorem State.setSched_host (ts : List Turn) : (s.setSched ts).host = s.host := rfl
@[simp] theorem State.setSched_sched (ts : List Turn) : (s.setSched ts).sched = ts := rfl
@[simp] theorem State.setSched_freeCtr (ts : List Turn) : (s.setSched ts).freeCtr = s.freeCtr := rfl
@[simp] theorem State.setSched_outcome (ts : List Turn) : (s.setSched ts).outcome = s.outcome := rfl

@[simp] theorem State.setHost_params (k : Nat) (p : LoopPhase) : (s.setHost k p).params = s.params := rfl
@[simp] theorem State.setHost_master (k : Nat) (p : LoopPhase) : (s.setHost k p).master = s.master := rfl
@[simp] theorem State.setHost_encoder (k : Nat) (p : LoopPhase) : (s.setHost k p).encoder = s.encoder := rfl
@[simp] theorem State.setHost_timer (k : Nat) (p : LoopPhase) : (s.setHost k p).timer = s.timer := rfl
@[simp] theorem State.setHost_ports (k : Nat) (p : LoopPhase) : (s.setHost k p).ports = s.ports := rfl
@[simp] theorem State.setHost_traces (k : Nat) (p : LoopPhase) : (s.setHost k p).traces = s.traces := rfl
@[simp] theorem State.setHost_host (k : Nat) (p : LoopPhase) : (s.setHost k p).host = { s.host with pos := k, phase := p } := rfl
@[simp] theorem State.setHost_sched (k : Nat) (p : LoopPhase) : (s.setHost k p).sched = s.sched := rfl
@[simp] theorem State.setHost_freeCtr (k : Nat) (p : LoopPhase) : (s.setHost k p).freeCtr = s.freeCtr := rfl
@[simp] theorem State.setHost_outcome (k : Nat) (p : LoopPhase) : (s.setHost k p).outcome = s.outcome := rfl

@[simp] theorem State.learn_params (v : Nat) : (s.learn v).params = s.params := rfl
@[simp] theorem State.learn_master (v : Nat) : (s.learn v).master = s.master := rfl
@[simp] theorem State.learn_encoder (v : Nat) : (s.learn v).encoder = s.encoder := rfl
@[simp] theorem State.learn_timer (v : Nat) : (s.learn v).timer = s.timer := rfl
@[simp] theorem State.learn_ports (v : Nat) : (s.learn v).ports = s.ports := rfl
@[simp] theorem State.learn_traces (v : Nat) : (s.learn v).traces = s.traces := rfl
@[simp] theorem State.learn_host (v : Nat) : (s.learn v).host = { s.host with known := v :: s.host.known } := rfl
@[simp] theorem State.learn_sched (v : Nat) : (s.learn v).sched = s.sched := rfl
@[simp] theorem State.learn_freeCtr (v : Nat) : (s.learn v).freeCtr = s.freeCtr := rfl
@[simp] theorem State.learn_outcome (v : Nat) : (s.learn v).outcome = s.outcome := rfl

@[simp] theorem State.setScript_params (c : List ScriptItem) : (s.setScript c).params = s.params := rfl
@[simp] theorem State.setScript_master (c : List ScriptItem) : (s.setScript c).master = s.master := rfl
@[simp] theorem State.setScript_encoder (c : List ScriptItem) : (s.setScript c).encoder = s.encoder := rfl
@[simp] theorem State.setScript_timer (c : List ScriptItem) : (s.setScript c).timer = s.timer := rfl
@[simp] theorem State.setScript_ports (c : List ScriptItem) : (s.setScript c).ports = s.ports := rfl
@[simp] theorem State.setScript_traces (c : List ScriptItem) : (s.setScript c).traces = s.traces := rfl
@[simp] theorem State.setScript_host (c : List ScriptItem) : (s.setScript c).host = { s.host with script := c } := rfl
@[simp] theorem State.setScript_sched (c : List ScriptItem) : (s.setScript c).sched = s.sched := rfl
@[simp] theorem State.setScript_freeCtr (c : List ScriptItem) : (s.setScript c).freeCtr = s.freeCtr := rfl
@[simp] theorem State.setScript_outcome (c : List ScriptItem) : (s.setScript c).outcome = s.outcome := rfl

@[simp] theorem State.setOutcome_params (m : Mark) : (s.setOutcome m).params = s.params := rfl
@[simp] theorem State.setOutcome_master (m : Mark) : (s.setOutcome m).master = s.master := rfl
@[simp] theorem State.setOutcome_encoder (m : Mark) : (s.setOutcome m).encoder = s.encoder := rfl
@[simp] theorem State.setOutcome_timer (m : Mark) : (s.setOutcome m).timer = s.timer := rfl
@[simp] theorem State.setOutcome_ports (m : Mark) : (s.setOutcome m).ports = s.ports := rfl
@[simp] theorem State.setOutcome_traces (m : Mark) : (s.setOutcome m).traces = s.traces := rfl
@[simp] theorem State.setOutcome_host (m : Mark) : (s.setOutcome m).host = s.host := rfl
@[simp] theorem State.setOutcome_sched (m : Mark) : (s.setOutcome m).sched = s.sched := rfl
@[simp] theorem State.setOutcome_freeCtr (m : Mark) : (s.setOutcome m).freeCtr = s.freeCtr := rfl
@[simp] theorem State.setOutcome_outcome (m : Mark) : (s.setOutcome m).outcome = m := rfl

@[simp] theorem State.resetOp_params : s.resetOp.params = s.params := rfl
@[simp] theorem State.resetOp_sched : s.resetOp.sched = s.sched := rfl
@[simp] theorem State.resetOp_freeCtr : s.resetOp.freeCtr = s.freeCtr + 1 := rfl
@[simp] theorem State.resetOp_outcome : s.resetOp.outcome = .ok := rfl
@[simp] theorem State.resetOp_ports : s.resetOp.ports = { rsp := none, bc := none, held := none } := rfl
@[simp] theorem State.resetOp_traces : s.resetOp.traces = { line := [], bc := [] } := rfl
@[simp] theorem State.resetOp_host : s.resetOp.host = { s.host with pos := 0, phase := .idle, known := [] } := rfl
@[simp] theorem State.resetOp_timer : s.resetOp.timer = { ovf := Config.resetOvf s.freeCtr, cmp := Config.resetCmp s.freeCtr } := rfl
@[simp] theorem State.resetOp_master_status : s.resetOp.master.status = .ready := rfl
@[simp] theorem State.resetOp_master_cnt : s.resetOp.master.cnt = 0 := rfl
@[simp] theorem State.resetOp_master_phase : s.resetOp.master.phase = .idle := rfl
@[simp] theorem State.resetOp_master_buf : s.resetOp.master.buf = [] := rfl
@[simp] theorem State.resetOp_master_bufSeed : s.resetOp.master.bufSeed = s.freeCtr := rfl
@[simp] theorem State.resetOp_encoder_busy : s.resetOp.encoder.busy = false := rfl
@[simp] theorem State.resetOp_encoder_step : s.resetOp.encoder.step = .idle := rfl
@[simp] theorem State.resetOp_encoder_bitIdx : s.resetOp.encoder.bitIdx = 0 := rfl
@[simp] theorem State.resetOp_encoder_half : s.resetOp.encoder.half = false := rfl
@[simp] theorem State.resetOp_encoder_nbits : s.resetOp.encoder.nbits = if Config.resetNbitsIsByte s.freeCtr then 8 else 1 := rfl

end Sys2Proof.Machine
end

