-- ==== Sys2Proof/Laws/Memory.lean ====
section
/-! SUPPORT. The receive buffer: a read after a write, other cells unchanged, the canonical form and the range of the
listed indices kept by every write (R36, R41, R42). -/

namespace Sys2Proof.Machine

/-- A write gives the value at its own index and leaves every other index alone. -/
theorem Memory.read_write (m : Memory) (a b : Nat) (v : Byte) :
    Memory.read? (Memory.write m a v) b = if b = a then some v else Memory.read? m b := by
  induction m with
  | nil => simp [Memory.write, Memory.read?]
  | cons c m ih =>
    obtain ⟨k, w⟩ := c
    simp only [Memory.write]
    split
    · simp [Memory.read?]
    · split
      · subst_vars
        simp only [Memory.read?]
        split <;> simp_all
      · simp only [Memory.read?, ih]
        split <;> split <;> simp_all

/-- The indices listed after a write are the old ones and the written one. -/
theorem Memory.mem_write (m : Memory) (a : Nat) (v : Byte) (c : Host.Cell) (h : c ∈ Memory.write m a v) :
    c = (a, v) ∨ c ∈ m := by
  induction m with
  | nil => simpa [Memory.write] using h
  | cons d m ih =>
    obtain ⟨k, w⟩ := d
    simp only [Memory.write] at h
    split at h
    · simpa using h
    · split at h
      · rcases List.mem_cons.1 h with h | h <;> simp [h]
      · rcases List.mem_cons.1 h with h | h
        · simp [h]
        · rcases ih h with h | h <;> simp [h]

/-- A write keeps the canonical form. -/
theorem Memory.wf_write (m : Memory) (a : Nat) (v : Byte) (h : Memory.wf m) : Memory.wf (Memory.write m a v) := by
  induction m with
  | nil => simp [Memory.write, Memory.wf]
  | cons c m ih =>
    obtain ⟨k, w⟩ := c
    obtain ⟨hk, hm⟩ := List.pairwise_cons.1 h
    simp only [Memory.write]
    split
    · rename_i ha
      refine List.pairwise_cons.2 ⟨fun d hd => ?_, h⟩
      rcases List.mem_cons.1 hd with rfl | hd
      · exact ha
      · exact Nat.lt_trans ha (hk d hd)
    · split
      · subst_vars
        exact List.pairwise_cons.2 ⟨hk, hm⟩
      · refine List.pairwise_cons.2 ⟨fun d hd => ?_, ih hm⟩
        rcases Memory.mem_write m a v d hd with rfl | hd
        · show k < a
          omega
        · exact hk d hd

@[simp] theorem Memory.below_nil (n : Nat) : Memory.below n [] := by
  intro c hc
  cases hc

/-- A write below a bound keeps every listed index below it. -/
theorem Memory.below_write {m : Memory} {a n : Nat} (v : Byte) (ha : a < n) (h : Memory.below n m) :
    Memory.below n (Memory.write m a v) := by
  intro c hc
  rcases Memory.mem_write m a v c hc with rfl | hc
  · exact ha
  · exact h c hc

/-- `MemWrite` then `MemRead` (R12, R41, R42). -/
theorem State.cell_storeByte (s : State) (i j : Nat) (v : Byte) :
    (s.storeByte i v).cell j = if j = i then v else s.cell j := by
  by_cases h : j = i <;> simp [State.cell, Memory.read_write, h]

/-- Two states with the same buffer and seed read the same at every index. -/
theorem State.cell_congr (s t : State) (hb : t.master.buf = s.master.buf) (hs : t.master.bufSeed = s.master.bufSeed)
    (i : Nat) : t.cell i = s.cell i := by
  simp [State.cell, hb, hs]

end Sys2Proof.Machine
end

