-- ==== Sys2Proof/Laws/Ops.lean ====
section
/-! SUPPORT. What each shared operation and each meaning can answer: for the hold, the handler's entry, and every
meaning, the next state it gives and when (R66 to R74, R79, R80, R82, R92, R114). -/

namespace Sys2Proof.Machine

/-! ### The hold and the handler's entry -/

@[simp] theorem hostCommand_busy {s : State} (h : s.encoder.busy = true) (k : Result) :
    hostCommand s k = .next (s.hold .encoderBusy) := by
  simp [hostCommand, h]

@[simp] theorem hostCommand_idle {s : State} (h : s.encoder.busy = false) (k : Result) : hostCommand s k = k := by
  simp [hostCommand, h]

/-- A host command that answers a next state was held, or answered it while the ENCODER was idle. -/
theorem hostCommand_next {s t : State} {k : Result} (h : hostCommand s k = .next t) :
    (s.encoder.busy = true ∧ t = s.hold .encoderBusy) ∨ (s.encoder.busy = false ∧ k = .next t) := by
  unfold hostCommand at h
  split at h
  · exact .inl ⟨‹_›, by simpa using h.symm⟩
  · rename_i hb
    exact .inr ⟨by simpa using hb, h⟩

@[simp] theorem handlerEntry_busy {s : State} (h : s.master.status = .busy) (k : Result) : handlerEntry s k = k := by
  simp [handlerEntry, h]

@[simp] theorem handlerEntry_idle {s : State} (h : s.master.status ≠ .busy) (k : Result) :
    handlerEntry s k = .fault .spuriousEvent := by
  simp [handlerEntry, h]

/-- An event that answers a next state found a transaction in flight. -/
theorem handlerEntry_next {s t : State} {k : Result} (h : handlerEntry s k = .next t) :
    s.master.status = .busy ∧ k = .next t := by
  unfold handlerEntry at h
  split at h
  · exact ⟨‹_›, h⟩
  · cases h

/-- An event that faults found no transaction in flight, or its handler faulted. -/
theorem handlerEntry_fault {s : State} {k : Result} {r : Fault} (h : handlerEntry s k = .fault r) :
    (s.master.status ≠ .busy ∧ r = .spuriousEvent) ∨ (s.master.status = .busy ∧ k = .fault r) := by
  unfold handlerEntry at h
  split at h
  · exact .inr ⟨‹_›, h⟩
  · exact .inl ⟨‹_›, by simpa using h.symm⟩

@[simp] theorem endTransaction_master (st : Status) (s : State) :
    (endTransaction st s).master = { s.master with phase := .idle, status := st } := rfl

@[simp] theorem endTransaction_params (st : Status) (s : State) : (endTransaction st s).params = s.params := rfl
@[simp] theorem endTransaction_encoder (st : Status) (s : State) : (endTransaction st s).encoder = s.encoder := rfl
@[simp] theorem endTransaction_timer (st : Status) (s : State) : (endTransaction st s).timer = s.timer := rfl
@[simp] theorem endTransaction_ports (st : Status) (s : State) : (endTransaction st s).ports = s.ports := rfl
@[simp] theorem endTransaction_traces (st : Status) (s : State) : (endTransaction st s).traces = s.traces := rfl
@[simp] theorem endTransaction_host (st : Status) (s : State) : (endTransaction st s).host = s.host := rfl
@[simp] theorem endTransaction_sched (st : Status) (s : State) : (endTransaction st s).sched = s.sched := rfl
@[simp] theorem endTransaction_freeCtr (st : Status) (s : State) : (endTransaction st s).freeCtr = s.freeCtr := rfl
@[simp] theorem endTransaction_outcome (st : Status) (s : State) : (endTransaction st s).outcome = s.outcome := rfl

/-! ### What each meaning can answer -/

theorem execBeginRead_next {addr : BitVec 7} {len : BitVec 8} {s t : State}
    (h : execBeginRead addr len s = .next t) :
    (s.encoder.busy = true ∧ t = s.hold .encoderBusy) ∨
    (s.encoder.busy = false ∧ s.master.status ≠ .busy ∧ len ≠ 0 ∧ len ≤ s.params.bufCap ∧
      t = (((((s.latchTransfer addr len).setCnt 0).emit (.startRead (addressByte addr))).setPhase .addr).setStatus
        .busy)) := by
  rcases hostCommand_next h with h | ⟨hb, h⟩
  · exact .inl h
  · split at h
    · cases h
    · split at h
      · cases h
      · split at h
        · cases h
        · rename_i h1 h2 h3
          exact .inr ⟨hb, h1, h2, BitVec.not_lt.1 h3, by simpa using h.symm⟩

theorem execRdStatus_next {s t : State} (h : execRdStatus s = .next t) :
    (s.encoder.busy = true ∧ t = s.hold .encoderBusy) ∨
    (s.encoder.busy = false ∧ t = s.respond s.master.status.code) := by
  rcases hostCommand_next h with h | ⟨hb, h⟩
  · exact .inl h
  · exact .inr ⟨hb, by simpa using h.symm⟩

theorem execRdBuf_next {idx : BitVec 8} {s t : State} (h : execRdBuf idx s = .next t) :
    (s.encoder.busy = true ∧ t = s.hold .encoderBusy) ∨
    (s.encoder.busy = false ∧ idx < s.params.bufCap ∧ t = s.respond (s.cell idx.toNat)) ∨
    (s.encoder.busy = false ∧ s.params.bufCap ≤ idx ∧ t = s.bumpFree.respond (Config.freeByte s.freeCtr)) := by
  rcases hostCommand_next h with h | ⟨hb, h⟩
  · exact .inl h
  · split at h
    · exact .inr (.inl ⟨hb, ‹_›, by simpa using h.symm⟩)
    · exact .inr (.inr ⟨hb, BitVec.not_lt.1 ‹_›, by simpa using h.symm⟩)

theorem execEvAddrAck_next {s t : State} (h : execEvAddrAck s = .next t) :
    s.master.status = .busy ∧ s.master.phase = .addr ∧ t = s.setPhase .data := by
  obtain ⟨hb, h⟩ := handlerEntry_next h
  split at h
  · exact ⟨hb, ‹_›, by simpa using h.symm⟩
  · cases h

theorem execEvByteRx_next {data : Byte} {s t : State} (h : execEvByteRx data s = .next t) :
    s.master.status = .busy ∧ s.master.cnt < s.params.bufCap ∧ t = answerByte (takeByte data (impliedAck s)) := by
  obtain ⟨hb, h⟩ := handlerEntry_next h
  split at h
  · cases h
  · exact ⟨hb, BitVec.not_le.1 ‹_›, by simpa using h.symm⟩

theorem execEvNack_next {s t : State} (h : execEvNack s = .next t) :
    s.master.status = .busy ∧ t = endTransaction .errNack (s.emit .stop) := by
  obtain ⟨hb, h⟩ := handlerEntry_next h
  exact ⟨hb, by simpa using h.symm⟩

theorem execEvArbLost_next {s t : State} (h : execEvArbLost s = .next t) :
    s.master.status = .busy ∧ t = endTransaction .errArbLost s := by
  obtain ⟨hb, h⟩ := handlerEntry_next h
  exact ⟨hb, by simpa using h.symm⟩

theorem execEvBusError_next {s t : State} (h : execEvBusError s = .next t) :
    s.master.status = .busy ∧ t = endTransaction .errBusError s := by
  obtain ⟨hb, h⟩ := handlerEntry_next h
  exact ⟨hb, by simpa using h.symm⟩

theorem execSendBit_next {v : BitVec 1} {s t : State} (h : execSendBit v s = .next t) :
    (s.encoder.busy = true ∧ t = s.hold .encoderBusy) ∨
    (s.encoder.busy = false ∧ t = s.loadFrame (bitFrame v) 1) := by
  rcases hostCommand_next h with h | ⟨hb, h⟩
  · exact .inl h
  · exact .inr ⟨hb, by simpa using h.symm⟩

theorem execSendByte_next {byte : Byte} {s t : State} (h : execSendByte byte s = .next t) :
    (s.encoder.busy = true ∧ t = s.hold .encoderBusy) ∨ (s.encoder.busy = false ∧ t = s.loadFrame byte 8) := by
  rcases hostCommand_next h with h | ⟨hb, h⟩
  · exact .inl h
  · exact .inr ⟨hb, by simpa using h.symm⟩

theorem execEvOvf_next {s t : State} (h : execEvOvf s = .next t) : t = s.setOvf true := by
  simpa [execEvOvf] using h.symm

/-! ### The pieces of EV_BYTE_RX -/

/-- The implied acknowledge changes the phase alone, and only from the address phase (R70). -/
theorem impliedAck_cases (s : State) :
    (s.master.phase = .addr ∧ impliedAck s = s.setPhase .data) ∨ (s.master.phase ≠ .addr ∧ impliedAck s = s) := by
  unfold impliedAck
  split
  · exact .inl ⟨‹_›, rfl⟩
  · exact .inr ⟨‹_›, rfl⟩

/-- A byte is answered with ACK before the final one, and with NACK plus STOP and `READY` on it (R70). -/
theorem answerByte_cases (s : State) :
    (s.master.cnt < s.master.len ∧ answerByte s = s.emit .ack) ∨
    (s.master.len ≤ s.master.cnt ∧ answerByte s = endTransaction .ready ((s.emit .nackStop).setPhase .stop)) := by
  unfold answerByte
  split
  · exact .inl ⟨‹_›, rfl⟩
  · exact .inr ⟨BitVec.not_lt.1 ‹_›, rfl⟩

/-! ### The micro-steps -/

/-- What a half-slot's end does: the second half, the next bit, or the end of the command (R86). -/
theorem nextHalfSlot_cases (s : State) :
    (s.encoder.half = false ∧ nextHalfSlot s = s.toHalfSlot s.encoder.bitIdx true) ∨
    (s.encoder.half = true ∧ s.encoder.bitIdx.toNat + 1 < s.encoder.nbits.toNat ∧
      nextHalfSlot s = s.toHalfSlot (s.encoder.bitIdx + 1) false) ∨
    (s.encoder.half = true ∧ s.encoder.nbits.toNat ≤ s.encoder.bitIdx.toNat + 1 ∧ nextHalfSlot s = s.finishFrame) := by
  unfold nextHalfSlot
  split
  · exact .inl ⟨‹_›, rfl⟩
  · rename_i hf
    split
    · exact .inr (.inl ⟨by simpa using hf, ‹_›, rfl⟩)
    · exact .inr (.inr ⟨by simpa using hf, by omega, rfl⟩)

/-- What a micro-step does, by `E_STEP` and, in `S_WAIT`, by `T_OVF` (R83 to R86). -/
theorem microStep_cases (s : State) :
    (s.encoder.step = .idle ∧ microStep s = s) ∨
    (s.encoder.step = .clear ∧ microStep s = (s.setOvf false).setEStep .prog) ∨
    (s.encoder.step = .prog ∧ microStep s = (s.programLevel (frameLevel s)).setEStep .wait) ∨
    (s.encoder.step = .wait ∧ s.timer.ovf = false ∧ microStep s = s.hold .awaitOverflow) ∨
    (s.encoder.step = .wait ∧ s.timer.ovf = true ∧
      microStep s = nextHalfSlot ((s.setOvf false).appendLine s.encoder.line)) := by
  cases hs : s.encoder.step <;> cases ho : s.timer.ovf <;>
    simp [microStep, microClear, microProg, microWait, hs, ho]

/-! ### What a micro-step leaves alone: all but the ENCODER, the timer, the line trace and the hold mark -/

@[simp] theorem nextHalfSlot_params (s : State) : (nextHalfSlot s).params = s.params := by
  rcases nextHalfSlot_cases s with ⟨_, h⟩ | ⟨_, _, h⟩ | ⟨_, _, h⟩ <;> simp [h]

@[simp] theorem nextHalfSlot_master (s : State) : (nextHalfSlot s).master = s.master := by
  rcases nextHalfSlot_cases s with ⟨_, h⟩ | ⟨_, _, h⟩ | ⟨_, _, h⟩ <;> simp [h]

@[simp] theorem nextHalfSlot_timer (s : State) : (nextHalfSlot s).timer = s.timer := by
  rcases nextHalfSlot_cases s with ⟨_, h⟩ | ⟨_, _, h⟩ | ⟨_, _, h⟩ <;> simp [h]

@[simp] theorem nextHalfSlot_ports (s : State) : (nextHalfSlot s).ports = s.ports := by
  rcases nextHalfSlot_cases s with ⟨_, h⟩ | ⟨_, _, h⟩ | ⟨_, _, h⟩ <;> simp [h]

@[simp] theorem nextHalfSlot_traces (s : State) : (nextHalfSlot s).traces = s.traces := by
  rcases nextHalfSlot_cases s with ⟨_, h⟩ | ⟨_, _, h⟩ | ⟨_, _, h⟩ <;> simp [h]

@[simp] theorem nextHalfSlot_host (s : State) : (nextHalfSlot s).host = s.host := by
  rcases nextHalfSlot_cases s with ⟨_, h⟩ | ⟨_, _, h⟩ | ⟨_, _, h⟩ <;> simp [h]

@[simp] theorem nextHalfSlot_sched (s : State) : (nextHalfSlot s).sched = s.sched := by
  rcases nextHalfSlot_cases s with ⟨_, h⟩ | ⟨_, _, h⟩ | ⟨_, _, h⟩ <;> simp [h]

@[simp] theorem nextHalfSlot_freeCtr (s : State) : (nextHalfSlot s).freeCtr = s.freeCtr := by
  rcases nextHalfSlot_cases s with ⟨_, h⟩ | ⟨_, _, h⟩ | ⟨_, _, h⟩ <;> simp [h]

@[simp] theorem nextHalfSlot_outcome (s : State) : (nextHalfSlot s).outcome = s.outcome := by
  rcases nextHalfSlot_cases s with ⟨_, h⟩ | ⟨_, _, h⟩ | ⟨_, _, h⟩ <;> simp [h]

@[simp] theorem microStep_params (s : State) : (microStep s).params = s.params := by
  rcases microStep_cases s with ⟨_, h⟩ | ⟨_, h⟩ | ⟨_, h⟩ | ⟨_, _, h⟩ | ⟨_, _, h⟩ <;> simp [h]

@[simp] theorem microStep_master (s : State) : (microStep s).master = s.master := by
  rcases microStep_cases s with ⟨_, h⟩ | ⟨_, h⟩ | ⟨_, h⟩ | ⟨_, _, h⟩ | ⟨_, _, h⟩ <;> simp [h]

@[simp] theorem microStep_host (s : State) : (microStep s).host = s.host := by
  rcases microStep_cases s with ⟨_, h⟩ | ⟨_, h⟩ | ⟨_, h⟩ | ⟨_, _, h⟩ | ⟨_, _, h⟩ <;> simp [h]

@[simp] theorem microStep_sched (s : State) : (microStep s).sched = s.sched := by
  rcases microStep_cases s with ⟨_, h⟩ | ⟨_, h⟩ | ⟨_, h⟩ | ⟨_, _, h⟩ | ⟨_, _, h⟩ <;> simp [h]

@[simp] theorem microStep_freeCtr (s : State) : (microStep s).freeCtr = s.freeCtr := by
  rcases microStep_cases s with ⟨_, h⟩ | ⟨_, h⟩ | ⟨_, h⟩ | ⟨_, _, h⟩ | ⟨_, _, h⟩ <;> simp [h]

@[simp] theorem microStep_outcome (s : State) : (microStep s).outcome = s.outcome := by
  rcases microStep_cases s with ⟨_, h⟩ | ⟨_, h⟩ | ⟨_, h⟩ | ⟨_, _, h⟩ | ⟨_, _, h⟩ <;> simp [h]

end Sys2Proof.Machine
end

