-- ==== Sys2Proof/Laws/PerInstr.lean ====
section
/-! SUPPORT. Statements about every operation as syntax. Family TableRow: the word the encoder gives an operation meets
the match and mask of that operation's row of the opcode table, on the row's port (R53, R55, R56). -/

namespace Sys2Proof.Laws.TableRow

/-- The operation's word is one of its own row's words. -/
def Statement (i : Instr) : Prop := i.row.admits (encode i) = true

/-- A word is a row's word when the port is the row's and the masked bits are the pattern's. -/
theorem admits_of (r : Row) (p : PortWord) (hp : p.port = r.port) (h : p.bits &&& r.mask = r.pattern) :
    r.admits p = true := by
  simp [Row.admits, hp, h]

theorem beginRead (addr : BitVec 7) (len : BitVec 8) : Statement (.beginRead addr len) := by
  refine admits_of _ _ rfl (BitVec.eq_of_getElem_eq fun k hk => ?_)
  simp only [encode, PortWord.bits, Instr.row, cmdWord, BitVec.getElem_and, BitVec.getElem_append]
  interval_cases k <;> simp

theorem sendBit (v : BitVec 1) : Statement (.sendBit v) := by
  refine admits_of _ _ rfl (BitVec.eq_of_getElem_eq fun k hk => ?_)
  simp only [encode, PortWord.bits, Instr.row, cmdWord, BitVec.getElem_and, BitVec.getElem_append]
  interval_cases k <;> simp

theorem sendByte (byte : Byte) : Statement (.sendByte byte) := by
  refine admits_of _ _ rfl (BitVec.eq_of_getElem_eq fun k hk => ?_)
  simp only [encode, PortWord.bits, Instr.row, cmdWord, BitVec.getElem_and, BitVec.getElem_append]
  interval_cases k <;> simp

theorem rdStatus : Statement .rdStatus := admits_of _ _ rfl (by decide)

theorem rdBuf (idx : BitVec 8) : Statement (.rdBuf idx) := by
  refine admits_of _ _ rfl (BitVec.eq_of_getElem_eq fun k hk => ?_)
  simp only [encode, PortWord.bits, Instr.row, cmdWord, BitVec.getElem_and, BitVec.getElem_append]
  interval_cases k <;> simp

theorem evAddrAck : Statement .evAddrAck := admits_of _ _ rfl (by decide)

theorem evByteRx (data : Byte) : Statement (.evByteRx data) := by
  refine admits_of _ _ rfl (BitVec.eq_of_getElem_eq fun k hk => ?_)
  simp only [encode, PortWord.bits, Instr.row, evtWord, BitVec.getElem_and, BitVec.getElem_setWidth,
    BitVec.getLsbD_append]
  interval_cases k <;> simp

theorem evNack : Statement .evNack := admits_of _ _ rfl (by decide)

theorem evArbLost : Statement .evArbLost := admits_of _ _ rfl (by decide)

theorem evBusError : Statement .evBusError := admits_of _ _ rfl (by decide)

theorem evOvf : Statement .evOvf := admits_of _ _ rfl (by decide)

end Sys2Proof.Laws.TableRow
end

