-- ==== Sys2Proof/Laws/Step.lean ====
section
/-! SUPPORT. What a step and a run along a schedule do. -/

namespace Sys2Proof.Machine

/-- A step of an unmarked state is the next turn's. -/
theorem step_ok {s : State} (h : s.outcome = .ok) : step s = takeTurn (nextTurn s) (beginTurn s) := by
  simp [step, h]

/-- Only an unmarked state has a successor (R35). -/
theorem step_next {s t : State} (h : step s = .next t) :
    s.outcome = .ok ∧ takeTurn (nextTurn s) (beginTurn s) = .next t := by
  unfold step at h
  split at h
  · exact ⟨‹_›, h⟩
  · cases h
  · cases h

/-- The components a turn starts from. -/
@[simp] theorem beginTurn_params (s : State) : (beginTurn s).params = s.params := rfl
@[simp] theorem beginTurn_master (s : State) : (beginTurn s).master = s.master := rfl
@[simp] theorem beginTurn_encoder (s : State) : (beginTurn s).encoder = s.encoder := rfl
@[simp] theorem beginTurn_timer (s : State) : (beginTurn s).timer = s.timer := rfl
@[simp] theorem beginTurn_traces (s : State) : (beginTurn s).traces = s.traces := rfl
@[simp] theorem beginTurn_host (s : State) : (beginTurn s).host = s.host := rfl
@[simp] theorem beginTurn_outcome (s : State) : (beginTurn s).outcome = s.outcome := rfl
@[simp] theorem beginTurn_sched (s : State) : (beginTurn s).sched = s.sched.tail := rfl
@[simp] theorem beginTurn_ports (s : State) : (beginTurn s).ports = ⟨none, none, none⟩ := rfl

/-- No operation of the block touches the HOST (R95). -/
theorem exec_next_host {i : Instr} {s t : State} (h : exec i s = .next t) : t.host = s.host := by
  cases i <;> simp only [exec] at h
  case beginRead => rcases execBeginRead_next h with ⟨_, rfl⟩ | ⟨_, _, _, _, rfl⟩ <;> rfl
  case sendBit => rcases execSendBit_next h with ⟨_, rfl⟩ | ⟨_, rfl⟩ <;> rfl
  case sendByte => rcases execSendByte_next h with ⟨_, rfl⟩ | ⟨_, rfl⟩ <;> rfl
  case rdStatus => rcases execRdStatus_next h with ⟨_, rfl⟩ | ⟨_, rfl⟩ <;> rfl
  case rdBuf => rcases execRdBuf_next h with ⟨_, rfl⟩ | ⟨_, _, rfl⟩ | ⟨_, _, rfl⟩ <;> rfl
  case evAddrAck =>
    obtain ⟨_, _, rfl⟩ := execEvAddrAck_next h
    rfl
  case evByteRx =>
    obtain ⟨_, _, rfl⟩ := execEvByteRx_next h
    simp only [answerByte, takeByte, impliedAck]
    split <;> split <;> rfl
  case evNack =>
    obtain ⟨_, rfl⟩ := execEvNack_next h
    rfl
  case evArbLost =>
    obtain ⟨_, rfl⟩ := execEvArbLost_next h
    rfl
  case evBusError =>
    obtain ⟨_, rfl⟩ := execEvBusError_next h
    rfl
  case evOvf => rw [execEvOvf_next h]; rfl

/-- No operation of the block writes the parameters (R33). -/
theorem exec_next_params {i : Instr} {s t : State} (h : exec i s = .next t) : t.params = s.params := by
  cases i <;> simp only [exec] at h
  case beginRead => rcases execBeginRead_next h with ⟨_, rfl⟩ | ⟨_, _, _, _, rfl⟩ <;> rfl
  case sendBit => rcases execSendBit_next h with ⟨_, rfl⟩ | ⟨_, rfl⟩ <;> rfl
  case sendByte => rcases execSendByte_next h with ⟨_, rfl⟩ | ⟨_, rfl⟩ <;> rfl
  case rdStatus => rcases execRdStatus_next h with ⟨_, rfl⟩ | ⟨_, rfl⟩ <;> rfl
  case rdBuf => rcases execRdBuf_next h with ⟨_, rfl⟩ | ⟨_, _, rfl⟩ | ⟨_, _, rfl⟩ <;> rfl
  case evAddrAck =>
    obtain ⟨_, _, rfl⟩ := execEvAddrAck_next h
    rfl
  case evByteRx =>
    obtain ⟨_, _, rfl⟩ := execEvByteRx_next h
    simp only [answerByte, takeByte, impliedAck]
    split <;> split <;> rfl
  case evNack =>
    obtain ⟨_, rfl⟩ := execEvNack_next h
    rfl
  case evArbLost =>
    obtain ⟨_, rfl⟩ := execEvArbLost_next h
    rfl
  case evBusError =>
    obtain ⟨_, rfl⟩ := execEvBusError_next h
    rfl
  case evOvf => rw [execEvOvf_next h]; rfl

/-- A decoded word that answers a next state was an operation that answered it, or an idle strobe. -/
theorem runDecoded_next {d : Decoded} {s t : State} (h : runDecoded d s = .next t) :
    (∃ i, d = .instr i ∧ exec i s = .next t) ∨ (d = .error .noOperation ∧ t = s) := by
  unfold runDecoded at h
  split at h
  · exact .inl ⟨_, rfl, h⟩
  · cases h
  · exact .inr ⟨rfl, by simpa using h.symm⟩

/-- After its command the HOST goes on, or keeps offering a held command (R92, R95). -/
theorem afterCommand_next {o : Result} {t : State} (h : afterCommand o = .next t) :
    ∃ s', o = .next s' ∧ ((s'.ports.held = none ∧ t = hostAdvance s') ∨ (s'.ports.held ≠ none ∧ t = s')) := by
  unfold afterCommand at h
  split at h
  · rename_i s'
    by_cases hh : s'.ports.held = none
    · exact ⟨s', rfl, .inl ⟨hh, by simpa [hh] using h.symm⟩⟩
    · exact ⟨s', rfl, .inr ⟨hh, by simpa [hh] using h.symm⟩⟩
  · cases h
  · cases h

/-- What a HOST turn that answers a next state did: it computed or had finished its script, or the
offered word's operation ran and the
HOST went on or stayed with it. -/
theorem hostTurn_next {s t : State} (h : hostTurn s = .next t) :
    (offered s = none ∧ t = hostSilent s) ∨
    ∃ w s', offered s = some w ∧ runDecoded (decode (.cmd w)) s = .next s' ∧
      ((s'.ports.held = none ∧ t = hostAdvance s') ∨ (s'.ports.held ≠ none ∧ t = s')) := by
  unfold hostTurn at h
  split at h
  · exact .inl ⟨‹_›, by simpa using h.symm⟩
  · obtain ⟨s', h1, h2⟩ := afterCommand_next h
    exact .inr ⟨_, s', ‹_›, h1, h2⟩

/-- The HOST keeps the response of a read, and nothing else changes. -/
theorem learnResponse_cases (s : State) :
    (s.ports.rsp = none ∧ learnResponse s = s) ∨ ∃ v, s.ports.rsp = some v ∧ learnResponse s = s.learn v.toNat := by
  unfold learnResponse
  split
  · exact .inr ⟨_, ‹_›, rfl⟩
  · exact .inl ⟨‹_›, rfl⟩

/-- What the HOST knows after a command: the response first, if there was one. -/
theorem learnResponse_host (s : State) :
    (learnResponse s).host =
      { s.host with known := (s.ports.rsp.map BitVec.toNat).toList ++ s.host.known } := by
  rcases learnResponse_cases s with ⟨h1, h⟩ | ⟨_, h1, h⟩ <;> simp [h1, h]

/-- The HOST's advance writes the HOST alone, and not its script. -/
theorem hostAdvance_cases (s : State) :
    ∃ c : HostCtl, c.script = s.host.script ∧ hostAdvance s = { s with host := c } := by
  refine ⟨(hostAdvance s).host, ?_⟩
  rcases learnResponse_cases s with ⟨-, h⟩ | ⟨_, -, h⟩ <;>
  · unfold hostAdvance
    rw [h]
    split
    · exact ⟨rfl, rfl⟩
    · split <;> exact ⟨rfl, rfl⟩

/-- The loop's start changes its state alone, and only from Idle (R97). -/
theorem loopStart_cases (s : State) :
    (s.host.phase = .idle ∧ loopStart s = s.setHost s.host.pos .requesting) ∨
    (s.host.phase ≠ .idle ∧ loopStart s = s) := by
  unfold loopStart
  split
  · exact .inl ⟨‹_›, rfl⟩
  · exact .inr ⟨‹_›, rfl⟩

/-- Between commands the HOST writes itself alone, and not its script. -/
theorem hostSilent_cases (s : State) :
    ∃ c : HostCtl, c.script = s.host.script ∧ hostSilent s = { s with host := c } := by
  refine ⟨(hostSilent s).host, ?_⟩
  unfold hostSilent
  split
  · exact ⟨rfl, rfl⟩
  · rename_i item _
    cases item with
    | superloop =>
      rcases loopStart_cases s with ⟨-, h⟩ | ⟨-, h⟩ <;> simp [runSilent, h, State.setHost]
    | _ => exact ⟨rfl, rfl⟩

/-- Where the HOST stands after its advance: in the item, at the phase the item goes on at, or at the next item. -/
theorem hostAdvance_stands {s : State} {item : ScriptItem} (h : s.host.script[s.host.pos]? = some item) :
    (∀ p, itemNext s.params (s.ports.rsp.getD 0) s.host.phase item = some p →
      Safety.Stands (hostAdvance s) s.host.pos p) ∧
    (itemNext s.params (s.ports.rsp.getD 0) s.host.phase item = none →
      Safety.Stands (hostAdvance s) (s.host.pos + 1) .idle) := by
  unfold hostAdvance
  rw [h]
  constructor
  · intro p hp
    simp only [hp]
    exact ⟨rfl, rfl⟩
  · intro hp
    simp only [hp]
    exact ⟨rfl, rfl⟩

@[simp] theorem hostAdvance_params (s : State) : (hostAdvance s).params = s.params := by
  obtain ⟨_, _, h⟩ := hostAdvance_cases s
  simp [h]

@[simp] theorem hostAdvance_master (s : State) : (hostAdvance s).master = s.master := by
  obtain ⟨_, _, h⟩ := hostAdvance_cases s
  simp [h]

@[simp] theorem hostAdvance_encoder (s : State) : (hostAdvance s).encoder = s.encoder := by
  obtain ⟨_, _, h⟩ := hostAdvance_cases s
  simp [h]

@[simp] theorem hostAdvance_timer (s : State) : (hostAdvance s).timer = s.timer := by
  obtain ⟨_, _, h⟩ := hostAdvance_cases s
  simp [h]

@[simp] theorem hostAdvance_ports (s : State) : (hostAdvance s).ports = s.ports := by
  obtain ⟨_, _, h⟩ := hostAdvance_cases s
  simp [h]

@[simp] theorem hostAdvance_traces (s : State) : (hostAdvance s).traces = s.traces := by
  obtain ⟨_, _, h⟩ := hostAdvance_cases s
  simp [h]

@[simp] theorem hostAdvance_sched (s : State) : (hostAdvance s).sched = s.sched := by
  obtain ⟨_, _, h⟩ := hostAdvance_cases s
  simp [h]

@[simp] theorem hostAdvance_freeCtr (s : State) : (hostAdvance s).freeCtr = s.freeCtr := by
  obtain ⟨_, _, h⟩ := hostAdvance_cases s
  simp [h]

@[simp] theorem hostAdvance_outcome (s : State) : (hostAdvance s).outcome = s.outcome := by
  obtain ⟨_, _, h⟩ := hostAdvance_cases s
  simp [h]

@[simp] theorem hostAdvance_script (s : State) : (hostAdvance s).host.script = s.host.script := by
  obtain ⟨_, hc, h⟩ := hostAdvance_cases s
  simp [h, hc]

@[simp] theorem hostSilent_params (s : State) : (hostSilent s).params = s.params := by
  obtain ⟨_, _, h⟩ := hostSilent_cases s
  simp [h]

@[simp] theorem hostSilent_master (s : State) : (hostSilent s).master = s.master := by
  obtain ⟨_, _, h⟩ := hostSilent_cases s
  simp [h]

@[simp] theorem hostSilent_encoder (s : State) : (hostSilent s).encoder = s.encoder := by
  obtain ⟨_, _, h⟩ := hostSilent_cases s
  simp [h]

@[simp] theorem hostSilent_timer (s : State) : (hostSilent s).timer = s.timer := by
  obtain ⟨_, _, h⟩ := hostSilent_cases s
  simp [h]

@[simp] theorem hostSilent_ports (s : State) : (hostSilent s).ports = s.ports := by
  obtain ⟨_, _, h⟩ := hostSilent_cases s
  simp [h]

@[simp] theorem hostSilent_traces (s : State) : (hostSilent s).traces = s.traces := by
  obtain ⟨_, _, h⟩ := hostSilent_cases s
  simp [h]

@[simp] theorem hostSilent_sched (s : State) : (hostSilent s).sched = s.sched := by
  obtain ⟨_, _, h⟩ := hostSilent_cases s
  simp [h]

@[simp] theorem hostSilent_freeCtr (s : State) : (hostSilent s).freeCtr = s.freeCtr := by
  obtain ⟨_, _, h⟩ := hostSilent_cases s
  simp [h]

@[simp] theorem hostSilent_outcome (s : State) : (hostSilent s).outcome = s.outcome := by
  obtain ⟨_, _, h⟩ := hostSilent_cases s
  simp [h]

@[simp] theorem hostSilent_script (s : State) : (hostSilent s).host.script = s.host.script := by
  obtain ⟨_, hc, h⟩ := hostSilent_cases s
  simp [h, hc]

/-- The HOST offers the same at the start of its turn. -/
@[simp] theorem offered_beginTurn (s : State) : offered (beginTurn s) = offered s := rfl

/-- Everything a step that answers a next state can do, by whose turn it is: the HOST computes or has finished its
script; a host command runs, and the HOST goes on or keeps it; a bus event's handler runs; an overflow; an idle strobe; a micro-step; a
reset. -/
theorem step_cases {s t : State} (h : step s = .next t) :
    s.outcome = .ok ∧
    ((nextTurn s = .host ∧ offered s = none ∧ t = hostSilent (beginTurn s)) ∨
     (∃ w i s', nextTurn s = .host ∧ offered s = some w ∧ decodeCmd w = .instr i ∧ i.port = .cmd ∧
        exec i (beginTurn s) = .next s' ∧
        ((s'.ports.held = none ∧ t = hostAdvance s') ∨ (s'.ports.held ≠ none ∧ t = s'))) ∨
     (∃ w i, nextTurn s = .bus w ∧ decodeEvt w = .instr i ∧ i.port = .evt ∧ exec i (beginTurn s) = .next t) ∨
     (nextTurn s = .timer 1 ∧ t = (beginTurn s).setOvf true) ∨
     (nextTurn s = .timer 0 ∧ t = beginTurn s) ∨
     (nextTurn s = .encoder ∧ t = microStep (beginTurn s)) ∨
     (nextTurn s = .platform ∧ t = (beginTurn s).resetOp)) := by
  obtain ⟨ho, h⟩ := step_next h
  refine ⟨ho, ?_⟩
  cases hn : nextTurn s with
  | host =>
    rw [hn] at h
    rcases hostTurn_next h with ⟨h1, h2⟩ | ⟨w, s', h1, h2, h3⟩
    · exact .inl ⟨rfl, h1, h2⟩
    · rcases runDecoded_next h2 with ⟨i, h4, h5⟩ | ⟨h4, -⟩
      · exact .inr (.inl ⟨w, i, s', rfl, h1, h4, Laws.decodeCmd_port h4, h5, h3⟩)
      · cases Laws.decodeCmd_error h4
  | bus w =>
    rw [hn] at h
    rcases runDecoded_next h with ⟨i, h4, h5⟩ | ⟨h4, -⟩
    · exact .inr (.inr (.inl ⟨w, i, rfl, h4, Laws.decodeEvt_port h4, h5⟩))
    · cases Laws.decodeEvt_error h4
  | timer w =>
    rw [hn] at h
    rcases Laws.decodeTmr_cases w with ⟨rfl, h4⟩ | ⟨rfl, h4⟩
    · refine .inr (.inr (.inr (.inl ⟨rfl, ?_⟩)))
      exact execEvOvf_next h
    · refine .inr (.inr (.inr (.inr (.inl ⟨rfl, ?_⟩))))
      have h5 : runDecoded (decodeTmr 0) (beginTurn s) = .next t := h
      rw [h4] at h5
      simpa [runDecoded] using h5.symm
  | encoder =>
    rw [hn] at h
    exact .inr (.inr (.inr (.inr (.inr (.inl ⟨rfl, by simpa [takeTurn, encoderTurn] using h.symm⟩)))))
  | platform =>
    rw [hn] at h
    exact .inr (.inr (.inr (.inr (.inr (.inr ⟨rfl, by simpa [takeTurn, platformTurn] using h.symm⟩)))))

end Sys2Proof.Machine
end

