-- ==== Sys2Proof/Machine/Asm.lean ====
section
/-! DEFINITION. The textual syntax of host scripts (30_encoding.md R61, R63): one operation a line, mnemonic and
comma-separated operands, decimal or `0x` numbers, `;` comments, `bus:` and `tmr:` prefixes for environment steps. Log
entry 25. -/

namespace Sys2Proof.Machine

/-- A line of a script. -/
inductive ScriptLine where
  /-- An empty line or a comment. -/
  | blank
  /-- A command or a pseudo-operation of the HOST. -/
  | host (item : ScriptItem)
  /-- An environment step. -/
  | env (t : Turn)
  deriving DecidableEq, Repr

/-- The value of a decimal or hexadecimal digit. -/
def digitValue (c : Char) : Option Nat :=
  if '0' ≤ c ∧ c ≤ '9' then some (c.toNat - '0'.toNat)
  else if 'a' ≤ c ∧ c ≤ 'f' then some (c.toNat - 'a'.toNat + 10)
  else if 'A' ≤ c ∧ c ≤ 'F' then some (c.toNat - 'A'.toNat + 10)
  else none

/-- Digits of a base, most significant first, after a value already read. -/
def readDigits (base : Nat) : Nat → List Char → Option Nat
  | n, [] => some n
  | n, c :: cs => (digitValue c).bind fun d => if d < base then readDigits base (n * base + d) cs else none

/-- A number: `0x` hexadecimal or decimal, at least one digit. -/
def readNumber : List Char → Option Nat
  | '0' :: 'x' :: c :: cs => readDigits 16 0 (c :: cs)
  | [] => none
  | cs => readDigits 10 0 cs

/-- A number that fits `n` bits. -/
def readField (n : Nat) (cs : List Char) : Option (BitVec n) :=
  (readNumber cs).bind fun v => if v < 2 ^ n then some (BitVec.ofNat n v) else none

/-- The text without blanks at its ends. -/
def trim (cs : List Char) : List Char :=
  ((cs.dropWhile (· == ' ')).reverse.dropWhile (· == ' ')).reverse

/-- The text cut at every occurrence of a character. -/
def cutAt (c : Char) : List Char → List (List Char)
  | [] => [[]]
  | x :: xs =>
    if x = c then [] :: cutAt c xs
    else
      match cutAt c xs with
      | [] => [[x]]
      | y :: ys => (x :: y) :: ys

/-- The operands after a mnemonic, comma-separated. -/
def operandTexts (cs : List Char) : List (List Char) :=
  if trim cs = [] then [] else (cutAt ',' cs).map trim

/-- The operation a mnemonic and its operands name; the source's spellings are synonyms (R61). -/
def readOp (name : List Char) (ops : List (List Char)) : Option Instr :=
  match ops with
  | [] =>
    if name = "RD_STATUS".toList then some .rdStatus
    else if name = "EV_ADDR_ACK".toList then some .evAddrAck
    else if name = "EV_NACK".toList then some .evNack
    else if name = "EV_ARB_LOST".toList then some .evArbLost
    else if name = "EV_BUS_ERROR".toList then some .evBusError
    else if name = "EV_OVF".toList then some .evOvf
    else none
  | [x] =>
    if name = "SEND_BIT".toList ∨ name = "sendBit".toList then (readField 1 x).map .sendBit
    else if name = "SEND_BYTE".toList ∨ name = "sendByte".toList then (readField 8 x).map .sendByte
    else if name = "RD_BUF".toList then (readField 8 x).map .rdBuf
    else if name = "EV_BYTE_RX".toList then (readField 8 x).map .evByteRx
    else none
  | [x, y] =>
    if name = "BEGIN_READ".toList ∨ name = "beginRead".toList then
      (readField 7 x).bind fun a => (readField 8 y).map fun n => .beginRead a n
    else none
  | _ => none

/-- The pseudo-operation a mnemonic names (R98). -/
def readPseudo (name : List Char) (ops : List (List Char)) : Option ScriptItem :=
  if ops ≠ [] then none
  else if name = "REQUEST".toList then some .request
  else if name = "WAIT_DONE".toList then some .waitDone
  else if name = "DRAIN".toList then some .drain
  else if name = "SUPERLOOP".toList then some .superloop
  else none

/-- The mnemonic and the operand texts of a line's body. -/
def splitOp (cs : List Char) : List Char × List (List Char) :=
  (cs.takeWhile (· != ' '), operandTexts (cs.dropWhile (· != ' ')))

/-- A body without a prefix: a host command or a pseudo-operation. -/
def readHostBody (cs : List Char) : Option ScriptLine :=
  let (name, ops) := splitOp cs
  match readPseudo name ops with
  | some item => some (.host item)
  | none => (readOp name ops).bind fun i => (commandWord i).map fun w => .host (.word w)

/-- A body after the prefix of its agent. -/
def readEnvBody (port : Port) (cs : List Char) : Option ScriptLine :=
  let (name, ops) := splitOp cs
  (readOp name ops).bind fun i =>
    match encode i with
    | .cmd _ => none
    | .evt w => if port = .evt then some (.env (.bus w)) else none
    | .tmr w => if port = .tmr then some (.env (.timer w)) else none

/-- One line of a script (R61). -/
def readLine (cs : List Char) : Option ScriptLine :=
  match trim (cs.takeWhile (· != ';')) with
  | [] => some .blank
  | 'b' :: 'u' :: 's' :: ':' :: body => readEnvBody .evt (trim body)
  | 't' :: 'm' :: 'r' :: ':' :: body => readEnvBody .tmr (trim body)
  | body => readHostBody body

/-- What a line adds to the HOST's script. -/
def ScriptLine.items : ScriptLine → List ScriptItem
  | .blank => []
  | .host item => [item]
  | .env _ => []

/-- What a line adds to the schedule. -/
def ScriptLine.turns : ScriptLine → List Turn
  | .blank => []
  | .host _ => [.host]
  | .env t => [t]

/-- A text of lines as a script and a schedule of the outside agents' turns, in the text's order. -/
def assemble (text : List Char) : Option (List ScriptItem × List Turn) :=
  ((cutAt '\n' text).mapM readLine).map fun ls => (ls.flatMap ScriptLine.items, ls.flatMap ScriptLine.turns)

end Sys2Proof.Machine
end

