-- ==== Sys2Proof/Tests/Slice0.lean ====
section
/-! SUPPORT. The model's own tests. Expected values are those of 95_test_vectors.md (the table or vector is named); the
witness_ theorems show that each statement's hypotheses can be met. -/

namespace Sys2Proof.Tests

open Sys2Proof Sys2Proof.Machine Sys2Proof.Safety

/-- The next state of an answer, if it is one. -/
def nextOf : Result → Option State
  | .next s => some s
  | .fault _ => none
  | .refused _ => none

/-- The fault of an answer, if it is one. -/
def faultOf : Result → Option Fault
  | .next _ => none
  | .fault r => some r
  | .refused _ => none

/-- The refusal of an answer, if it is one. -/
def refusalOf : Result → Option Refusal
  | .next _ => none
  | .fault _ => none
  | .refused r => some r

/-! ### Small states -/

/-- After `BEGIN_READ 0x2A, 4` from reset: address phase. -/
def inAddr : State :=
  { State.reset with
    master := { State.reset.master with status := .busy, phase := .addr, addr := 0x2A, len := 4 }
    traces.bc := [.startRead 0x55] }

/-- Data phase with `n` bytes of four received. -/
def inData (n : BitVec 8) : State :=
  { inAddr with
    master := { inAddr.master with
      phase := .data, cnt := n, buf := (List.range n.toNat).map fun k => (k, BitVec.ofNat 8 (0x10 * k + 0x11)) } }

/-- A byte is being sent: bit `b`, half `h`, micro-step `e`, the line at that half-slot's level. -/
def sending (data : Byte) (b : BitVec 3) (h : Bool) (e : EStep) (ovf : Bool) : State :=
  { State.reset with
    encoder :=
      { busy := true, step := e, bitIdx := b, half := h, data := data, nbits := 8, line := level (data.getLsbD b.toNat) h }
    timer.ovf := ovf
    traces.line := (frameLevels data 8).take (2 * b.toNat + (if h then 1 else 0)) }

/-- A state with a script and a schedule. -/
def running (s : State) (script : List ScriptItem) (ts : List Turn) : State :=
  { s with host := ⟨script, 0, .idle, []⟩, sched := ts }

/-- An ended transaction: error status, two of four bytes stored. -/
def failed : State :=
  { inData 2 with master := { (inData 2).master with status := .errNack, phase := .idle } }

/-- Parameters with the exclusive drain bound (R103). -/
def exclusive : State := { State.reset with params.drainInclusive := false }

/-! ### Well-formedness: each check refuses an ill-formed term -/

theorem test_wf_refuses_zero_length : Instr.wf (.beginRead 0x2A 0) = false := by decide
theorem test_wf_accepts_length : Instr.wf (.beginRead 0x2A 4) = true := by decide
theorem test_params_wf : Params.wf Params.reset = true := by decide
theorem test_params_wf_refuses_no_capacity : Params.wf { Params.reset with bufCap := 0 } = false := by decide
theorem test_params_wf_refuses_no_period : Params.wf { Params.reset with timerPeriod := 0 } = false := by decide
theorem test_params_wf_refuses_no_length : Params.wf { Params.reset with readLen := 0 } = false := by decide
theorem test_params_wf_refuses_long_read : Params.wf { Params.reset with readLen := 5 } = false := by decide
theorem test_script_wf_refuses_reserved : scriptWf [.request, .word 0x040000] = false := by decide
theorem test_script_wf_refuses_zero_length : scriptWf [.word 0x012A00] = false := by decide

/-! ### Encoding: tables C1 to C4 -/

theorem test_decode_beginRead : decodeCmd 0b000000010010101000000100 = .instr (.beginRead 0x2A 4) := by decide
theorem test_decode_beginRead_zero : decodeCmd 0x012A00 = .instr (.beginRead 0x2A 0) := by decide
theorem test_decode_sendBit : decodeCmd 0b000000100000000000000001 = .instr (.sendBit 1) := by decide
theorem test_decode_sendByte : decodeCmd 0b000000110000000011001010 = .instr (.sendByte 0xCA) := by decide
theorem test_decode_rdStatus : decodeCmd 0b000100000000000000000000 = .instr .rdStatus := by decide
theorem test_decode_rdBuf : decodeCmd 0b000100010000000011111111 = .instr (.rdBuf 255) := by decide
theorem test_decode_evAddrAck : decodeEvt 0b0000000000000000 = .instr .evAddrAck := by decide
theorem test_decode_evByteRx : decodeEvt 0b0000000111001010 = .instr (.evByteRx 0xCA) := by decide
theorem test_decode_evNack : decodeEvt 0b0000001000000000 = .instr .evNack := by decide
theorem test_decode_evArbLost : decodeEvt 0b0000001100000000 = .instr .evArbLost := by decide
theorem test_decode_evBusError : decodeEvt 0b0000010000000000 = .instr .evBusError := by decide
theorem test_decode_evOvf : decodeTmr 0b1 = .instr .evOvf := by decide
theorem test_decode_no_strobe : decodeTmr 0 = .error .noOperation := by decide

/-- Table C2. -/
theorem test_decode_reserved_commands :
    ([0x000000, 0x040000, 0x120000, 0xFF0000, 0x018004, 0x01AA04, 0x020002, 0x020100, 0x0301CA, 0x100001, 0x110100] :
      List CmdWord).all (fun w => decodeCmd w = .error .reservedEncoding && illegalCmd w) = true := by decide

/-- Table C3. -/
theorem test_decode_reserved_events :
    ([0x0001, 0x0201, 0x0500, 0x0600, 0x0700, 0x0800, 0x8000] : List EvtWord).all
      (fun w => decodeEvt w = .error .reservedEncoding && illegalEvt w) = true := by decide

/-- Table C1, by the host's numbering. -/
theorem test_decodeTableWord :
    decodeTableWord 24 0x0300FF = some (.sendByte 0xFF) ∧ decodeTableWord 16 0x0400 = some .evBusError ∧
    decodeTableWord 8 1 = some .evOvf ∧ decodeTableWord 8 0 = none := by decide

/-- Table C4. -/
theorem test_start_read_words :
    (BusCmd.startRead (addressByte 0x50)).word = 0x0A1 ∧ (BusCmd.startRead (addressByte 0x7F)).word = 0x0FF := by
  decide

/-! ### The MASTER: vectors M1 to M21, F1 to F12 -/

/-- M1. -/
theorem test_beginRead :
    (nextOf (exec (.beginRead 0x2A 4) State.reset)).map (fun t => (t.master, t.ports.bc)) =
      some (inAddr.master, some (.startRead 0x55)) := by decide

/-- F6: busy comes before the length. -/
theorem test_beginRead_while_busy : faultOf (exec (.beginRead 0x2A 0) inAddr) = some .beginWhileBusy := by decide

/-- F3, F4. -/
theorem test_beginRead_lengths :
    refusalOf (exec (.beginRead 0x2A 0) State.reset) = some .zeroLength ∧
    faultOf (exec (.beginRead 0x2A 5) State.reset) = some .lengthExceedsCapacity := by decide

/-- M17. -/
theorem test_rdStatus : (nextOf (exec .rdStatus failed)).map (fun t => t.ports.rsp) = some (some 0x04) := by decide

/-- F11. -/
theorem test_rdStatus_held :
    (nextOf (exec .rdStatus (sending 0 0 false .clear false))).map (fun t => t.ports) =
      some ⟨none, none, some .encoderBusy⟩ := by decide

/-- M21: a read while busy is answered from the cells. -/
theorem test_rdBuf : (nextOf (exec (.rdBuf 0) (inData 1))).map (fun t => t.ports.rsp) = some (some 0x11) := by decide

/-- M19: no fault beyond the capacity, whatever the byte is. -/
theorem test_rdBuf_beyond : (nextOf (exec (.rdBuf 4) State.reset)).map (fun t => t.outcome) = some .ok := by decide

/-- M4. -/
theorem test_evAddrAck :
    (nextOf (exec .evAddrAck inAddr)).map (fun t => (t.master.phase, t.master.status)) = some (.data, .busy) := by decide

/-- F10. -/
theorem test_evAddrAck_again : faultOf (exec .evAddrAck (inData 0)) = some .spuriousEvent := by decide

/-- M6. -/
theorem test_evByteRx :
    (nextOf (exec (.evByteRx 0xBA) (inData 2))).map
      (fun t => (t.cell 2, t.master.cnt, t.master.status, t.ports.bc)) = some (0xBA, 3, .busy, some .ack) := by decide

/-- M7. -/
theorem test_evByteRx_final :
    (nextOf (exec (.evByteRx 0xBE) (inData 3))).map
      (fun t => (t.cell 3, t.master.cnt, t.master.phase, t.master.status, t.ports.bc)) =
      some (0xBE, 4, .idle, .ready, some .nackStop) := by decide

/-- M9. -/
theorem test_evNack :
    (nextOf (exec .evNack inAddr)).map (fun t => (t.master.status, t.master.phase, t.ports.bc)) =
      some (.errNack, .idle, some .stop) := by decide

/-- M12. -/
theorem test_evArbLost :
    (nextOf (exec .evArbLost (inData 2))).map (fun t => (t.master.status, t.master.cnt, t.cell 1, t.ports.bc)) =
      some (.errArbLost, 2, 0x21, none) := by decide

/-- M14. -/
theorem test_evBusError :
    (nextOf (exec .evBusError (inData 3))).map (fun t => (t.master.status, t.master.cnt, t.ports.bc)) =
      some (.errBusError, 3, none) := by decide

/-- F9. -/
theorem test_event_without_transaction :
    faultOf (exec .evNack failed) = some .spuriousEvent ∧ faultOf (exec .evBusError failed) = some .spuriousEvent := by
  decide

/-- M20: a never-written cell reads as its stable value. -/
theorem test_rdBuf_never_written :
    (nextOf (exec (.rdBuf 1) State.reset)).map (fun t => t.ports.rsp) = some (some (Config.resetCell 0 1)) := rfl

/-! ### The ENCODER: tables E1, E2, traces E3, E4 -/

theorem test_sendBit :
    (nextOf (exec (.sendBit 1) State.reset)).map (fun t => (t.encoder.data, t.encoder.nbits, t.encoder.step)) =
      some (1, 1, .clear) := by decide

theorem test_sendByte :
    (nextOf (exec (.sendByte 0xCA) State.reset)).map (fun t => (t.encoder.data, t.encoder.nbits, t.encoder.busy)) =
      some (0xCA, 8, true) := by decide

theorem test_evOvf : (nextOf (exec .evOvf State.reset)).map (fun t => t.timer.ovf) = some true := by decide

/-- Table E2, the row of 0xCA. -/
theorem test_frame_CA :
    frameLevels 0xCA 8 = [.L, .H, .H, .L, .L, .H, .H, .L, .L, .H, .L, .H, .H, .L, .H, .L] := by decide

/-- Table E2, the row of 0x01: bit 0 first. -/
theorem test_frame_01 :
    frameLevels 0x01 8 = [.H, .L, .L, .H, .L, .H, .L, .H, .L, .H, .L, .H, .L, .H, .L, .H] := by decide

/-- S4. -/
theorem test_decode16 :
    decode16 [.L, .H, .H, .L, .L, .H, .H, .L, .L, .H, .L, .H, .H, .L, .H, .L] = some 0xCA ∧
    decode16 (List.replicate 16 .H) = none := by decide

/-- Trace E3: the release of the first half-slot of `SEND_BIT 1`. -/
theorem test_wait_releases :
    (nextOf (takeTurn .encoder (sending 0x01 0 false .wait true))).map
      (fun t => (t.encoder.step, t.encoder.half, t.timer.ovf, t.traces.line)) = some (.clear, true, false, [.H]) := by
  decide

/-- Trace E3, H2: the hold without an overflow. -/
theorem test_wait_holds :
    (nextOf (takeTurn .encoder (sending 0x01 0 false .wait false))).map (fun t => (t.encoder.step, t.ports.held)) =
      some (.wait, some .awaitOverflow) := by decide

/-- Trace E4: `S_CLEAR` discards an old overflow. -/
theorem test_clear_discards :
    (nextOf (takeTurn .encoder (sending 0x01 0 false .clear true))).map (fun t => (t.timer.ovf, t.encoder.step)) =
      some (false, .prog) := by decide

/-- Table E5. -/
theorem test_halfOffset : halfOffset 1 = 0 ∧ halfOffset 1001 = 500 ∧ halfOffset 65535 = 32767 := by decide

/-! ### Steps -/

/-- A placed word runs as the first operation after reset. -/
theorem test_placed_command :
    (nextOf (step (State.reset.withFetchWord 24 0x012A04))).map (fun t => t.master) = some inAddr.master := by decide

theorem test_placed_event :
    (nextOf (step (inAddr.withFetchWord 16 0x0200))).map (fun t => t.master.status) = some .errNack := by decide

theorem test_placed_strobe :
    (nextOf (step (State.reset.withFetchWord 8 1))).map (fun t => t.timer.ovf) = some true := by decide

/-- H1: a held command stays the HOST's next one. -/
theorem test_held_command_stays :
    (nextOf (step ((sending 0 0 false .clear false).withFetchWord 24 0x020001))).map offered = some (some 0x020001) := by
  decide

/-- P7 (F12): a bus event while the ENCODER sends is not held. -/
theorem test_event_while_sending :
    (nextOf (exec (.evByteRx 0x77)
        { sending 0xFF 0 false .wait false with
          master := { inAddr.master with len := 1 } })).map (fun t => (t.cell 0, t.master.status)) =
      some (0x77, .ready) := by decide

/-- The supervisory loop in Requesting, with a HOST turn next. -/
def atRequest : State := { State.reset with host := ⟨[.superloop], 0, .requesting, []⟩, sched := [.host] }

/-- R97, R104: Idle, Requesting with no command offered yet, Waiting after the request. -/
theorem test_superloop_requests :
    (nextOf (step (running State.reset [.superloop] [.host]))).map
      (fun t => (t.master.status, t.host.phase, t.ports.bc)) = some (.ready, .requesting, none) ∧
    (nextOf (step atRequest)).map (fun t => (t.master.status, t.host.phase)) = some (.busy, .waiting) := by decide

/-- R132: reset abandons the transaction. -/
theorem test_reset_while_busy :
    (nextOf (step (running inAddr [.superloop] [.platform]))).map
      (fun t => (t.master.status, t.master.phase, t.traces.bc, t.host.phase)) = some (.ready, .idle, [], .idle) := by
  decide

/-- R31: `E_CTL` packs busy, step, bit index, half. -/
theorem test_encoder_control : encoderControl (sending 0 5 true .wait false).encoder = 0b1101111 := by decide

theorem test_register_map :
    State.reg inAddr 0 = some ⟨"M_STATUS", 8, 1⟩ ∧ State.reg (inData 1) 16 = some ⟨"M_BUF", 8, 0x11⟩ ∧
    State.reg inAddr 20 = none := by decide

/-! ### Script text: the examples of R61 -/

theorem test_line_beginRead :
    readLine "BEGIN_READ 0x2A, 4      ; cmd word 0x012A04".toList = some (.host (.word 0x012A04)) := by decide

theorem test_line_synonym : readLine "sendBit 1".toList = some (.host (.word 0x020001)) := by decide

theorem test_line_event : readLine "bus: EV_BYTE_RX 0xCA".toList = some (.env (.bus 0x01CA)) := by decide

theorem test_line_timer : readLine "tmr: EV_OVF".toList = some (.env (.timer 1)) := by decide

theorem test_line_pseudo : readLine "SUPERLOOP ; for ever".toList = some (.host .superloop) := by decide

theorem test_line_wrong_port : readLine "tmr: EV_NACK".toList = none ∧ readLine "RD_BUF 256".toList = none := by decide

theorem test_assemble :
    assemble "RD_STATUS\nbus: EV_NACK\n; end".toList = some ([.word 0x100000], [.host, .bus 0x0200]) := by decide

/-! ### Invariants of the small states, for the witnesses -/

theorem encoderInv_idle (s : State) (h : s.encoder = State.reset.encoder) : EncoderInv s := by
  constructor <;> simp [h, State.reset]

theorem encoderInv_sending (e : EStep) (he : e ≠ .idle) (o : Bool) : EncoderInv (sending 0x01 0 false e o) := by
  constructor <;> simp [sending, he, frameLevel, frameBit]

theorem lineInv_reset : LineInv State.reset := by
  constructor <;> simp [State.reset, decodePairs]

theorem masterInv_inAddr : MasterInv inAddr := by
  constructor <;> simp [inAddr, State.reset, Params.reset]

theorem masterInv_reset : MasterInv State.reset := by
  constructor <;> simp [State.reset, Params.reset]

theorem inv_inAddr : Inv inAddr := ⟨masterInv_inAddr, encoderInv_idle _ rfl⟩

theorem inv_inData : Inv (inData 0) := by
  refine ⟨?_, encoderInv_idle _ rfl⟩
  constructor <;> simp [inData, inAddr, State.reset, Params.reset]

theorem inv_with_sched (s : State) (h : Inv s) (ts : List Turn) (c : HostCtl) : Inv { s with sched := ts, host := c } :=
  ⟨⟨h.1.1, h.1.2, h.1.3, h.1.4, h.1.5, h.1.6, h.1.7, h.1.8, h.1.9⟩, ⟨h.2.1, h.2.2, h.2.3, h.2.4, h.2.5⟩⟩

theorem resetState_reset : ResetState State.reset := by
  constructor <;> simp [State.reset]

theorem loopInv_reset : LoopInv (running State.reset [.superloop] [.host]) := by
  constructor <;> simp [running, State.reset]

/-! ### Witnesses: the hypotheses of each statement are met -/

theorem witness_DecodingFollowsTheTables :
    (∃ p i, decode p = .instr i) ∧ (∃ r ∈ opcodeTable, ∃ p, r.admits p = true) ∧
    (∃ p, ∀ r ∈ opcodeTable, r.admits p = false) :=
  ⟨⟨.tmr 1, .evOvf, by decide⟩, ⟨Instr.row .rdStatus, by decide, .cmd 0x100000, by decide⟩, ⟨.evt 0x0500, by decide⟩⟩

theorem witness_IllegalWordsAreRefused :
    (∃ s w, s.outcome = .ok ∧ nextTurn s = .host ∧ offered s = some w ∧ illegalCmd w = true) ∧
    (∃ s w, s.outcome = .ok ∧ nextTurn s = .bus w ∧ illegalEvt w = true) :=
  ⟨⟨running State.reset [.word 0x018004] [.host], 0x018004, by decide, by decide, by decide, by decide⟩,
    ⟨running State.reset [] [.bus 0x0500], 0x0500, by decide, by decide, by decide⟩⟩

theorem witness_BeginReadRule :
    (sending 0 0 false .clear false).encoder.busy = true ∧
    (inAddr.encoder.busy = false ∧ inAddr.master.status = .busy) ∧
    (failed.encoder.busy = false ∧ failed.master.status ≠ .busy ∧ (0 : BitVec 8) = 0 ∧
      (4 : BitVec 8) ≠ 0 ∧ 4 ≤ failed.params.bufCap ∧ failed.params.bufCap < 5) := by decide

theorem witness_ReadStatusRule :
    State.reset.master.status = .ready ∧ inAddr.master.status = .busy ∧ failed.master.status = .errNack ∧
    ({ failed with master.status := .errArbLost } : State).master.status = .errArbLost ∧
    ({ failed with master.status := .errBusError } : State).master.status = .errBusError ∧
    failed.encoder.busy = false := by decide

theorem witness_ReadBufferRule :
    State.reset.encoder.busy = false ∧ (3 : BitVec 8) < State.reset.params.bufCap ∧
    State.reset.params.bufCap ≤ (4 : BitVec 8) ∧ (sending 0 0 false .clear false).encoder.busy = true := by decide

theorem witness_NeverWrittenCellReadsStable :
    State.reset.encoder.busy = false ∧ (1 : BitVec 8) < State.reset.params.bufCap ∧
    Memory.read? State.reset.master.buf 1 = none := by decide

theorem witness_ReadsChangeNothing :
    (∃ t, exec .rdStatus inAddr = .next t) ∧ ∃ t, exec (.rdBuf 4) inAddr = .next t :=
  ⟨⟨_, rfl⟩, ⟨_, rfl⟩⟩

theorem witness_HazardFreeCommandsAreAccepted :
    (Instr.beginRead 0x2A 4).port = .cmd ∧ State.reset.encoder.busy = false ∧ State.reset.ports.held = none ∧
    respectsHazards State.reset (.beginRead 0x2A 4) = true := by decide

theorem witness_AddressAckRule :
    inAddr.master.status = .busy ∧ inAddr.master.phase = .addr ∧
    (inData 0).master.status = .busy ∧ (inData 0).master.phase ≠ .addr := by decide

/-- Each clause at its boundary: the last byte but one, the last byte, the full buffer. -/
theorem witness_ByteReceivedRule :
    ((inData 2).master.status = .busy ∧ (inData 2).master.cnt < (inData 2).params.bufCap ∧
      (inData 2).master.cnt + 1 < (inData 2).master.len) ∧
    ((inData 3).master.cnt < (inData 3).params.bufCap ∧ (inData 3).master.len ≤ (inData 3).master.cnt + 1) ∧
    ((inData 4).master.status = .busy ∧ (inData 4).params.bufCap ≤ (inData 4).master.cnt) := by decide

theorem witness_NackRule : inAddr.master.status = .busy := by decide
theorem witness_ArbitrationLostRule : (inData 2).master.status = .busy := by decide
theorem witness_BusErrorRule : (inData 3).master.status = .busy := by decide

theorem witness_SpuriousEventRule : Instr.evAddrAck.port = .evt ∧ failed.master.status ≠ .busy := by decide

theorem witness_EventsThatStoreNothingKeepTheBuffer :
    (∃ t, exec .evAddrAck inAddr = .next t) ∧ (∃ t, exec .evNack inAddr = .next t) ∧
    (∃ t, exec .evArbLost (inData 2) = .next t) ∧ ∃ t, exec .evBusError (inData 2) = .next t :=
  ⟨⟨_, rfl⟩, ⟨_, rfl⟩, ⟨_, rfl⟩, ⟨_, rfl⟩⟩

theorem witness_ErrorEventsGiveDistinctErrors : (inData 1).master.status = .busy := by decide

theorem witness_ContractEventsAreHandled :
    (Inv inAddr ∧ busMay inAddr .evAddrAck = true ∧ busMay inAddr .evNack = true) ∧
    (Inv (inData 0) ∧ busMay (inData 0) (.evByteRx 0xCA) = true ∧ busMay (inData 0) .evBusError = true) :=
  ⟨⟨inv_inAddr, by decide, by decide⟩, ⟨inv_inData, by decide, by decide⟩⟩

theorem witness_SendCommandsLoadTheirFrame :
    State.reset.encoder.busy = false ∧ (sending 0xCA 0 false .prog false).encoder.busy = true := by decide

theorem witness_SendsAndOverflowKeepTheMaster :
    (∃ t, exec .evOvf inAddr = .next t) ∧ (∃ t, exec (.sendBit 1) inAddr = .next t) ∧
    ∃ t, exec (.sendByte 0xCA) inAddr = .next t :=
  ⟨⟨_, rfl⟩, ⟨_, rfl⟩, ⟨_, rfl⟩⟩

theorem witness_OverflowRule : (sending 0 0 false .clear true).timer.ovf = true := by decide
theorem witness_ClearMicroStepRule : (sending 0 0 false .clear true).encoder.step = .clear := by decide
theorem witness_ProgramMicroStepRule : (sending 0 0 false .prog true).encoder.step = .prog := by decide

/-- Each clause, at the first and at the last bit. -/
theorem witness_WaitMicroStepRule :
    ((sending 0 0 false .wait false).encoder.step = .wait ∧ (sending 0 0 false .wait false).timer.ovf = false) ∧
    ((sending 0 0 false .wait true).timer.ovf = true ∧ (sending 0 0 false .wait true).encoder.half = false) ∧
    ((sending 0 6 true .wait true).encoder.half = true ∧
      (sending 0 6 true .wait true).encoder.bitIdx.toNat + 1 < (sending 0 6 true .wait true).encoder.nbits.toNat) ∧
    ((sending 0 7 true .wait true).encoder.half = true ∧
      (sending 0 7 true .wait true).encoder.nbits.toNat ≤ (sending 0 7 true .wait true).encoder.bitIdx.toNat + 1) := by
  decide

theorem witness_HalfOffsetRoundsDown : (1000 : BitVec 16).toNat % 2 = 0 ∧ (1001 : BitVec 16).toNat % 2 = 1 := by decide

theorem witness_WholeSymbolsHaveNoBias : (decodePairs [.H, .L, .L, .H]).isSome = true := by decide

theorem witness_StepKeepsLineTraceSymbols :
    ∃ s t, EncoderInv s ∧ LineInv s ∧ step s = .next t :=
  ⟨running State.reset [.word 0x020001] [.host], _, encoderInv_idle _ rfl, ⟨lineInv_reset.1, lineInv_reset.2⟩, rfl⟩

theorem witness_FrameIsSentUnderAnySchedule :
    ∃ base s t, EncoderInv s ∧ Sending base s ∧ nextTurn s ≠ .platform ∧ step s = .next t :=
  ⟨[], sending 0x01 0 false .wait true, _, encoderInv_sending _ (by decide) _, ⟨by decide, by decide⟩, by decide, rfl⟩

theorem witness_SendCommandsCompleteWithTheirSymbols :
    State.reset.outcome = .ok ∧ State.reset.encoder.busy = false := by decide

theorem witness_SendByteEqualsEightSendBits : inAddr.outcome = .ok ∧ inAddr.encoder.busy = false := by decide

theorem witness_NoReleaseWithoutOverflow :
    ∃ s t, EncoderInv s ∧ s.encoder.step = .wait ∧ s.timer.ovf = false ∧ nextTurn s ≠ .platform ∧
      nextTurn s ≠ .timer 1 ∧ step s = .next t :=
  ⟨sending 0x01 0 false .wait false, _, encoderInv_sending _ (by decide) _, by decide, by decide, by decide, by decide, rfl⟩

/-- A schedule of TIMER, ENCODER and HOST turns in rotation. -/
def rotation (n : Nat) : Turn :=
  if n % 3 = 0 then .timer 1 else if n % 3 = 1 then .encoder else .host

theorem rotation_fair : Fair rotation := by
  constructor <;> intro n
  · exact ⟨3 * n, by omega, by simp [rotation]⟩
  · exact ⟨3 * n + 1, by omega, by simp [rotation, Nat.add_mod]⟩
  · exact ⟨3 * n + 2, by omega, by simp [rotation, Nat.add_mod]⟩

/-- With no script loaded, the turns of the rotation never stop the machine. -/
theorem rotation_runs (ts : List Turn) (hts : ∀ t ∈ ts, t = .timer 1 ∨ t = .encoder ∨ t = .host) (s : State)
    (ho : s.outcome = .ok) (hs : s.host.script = []) : ∃ t, runSched ts s = .next t := by
  induction ts generalizing s with
  | nil => exact ⟨_, rfl⟩
  | cons t ts ih =>
    have hstep : ∃ s' : State, step (s.setSched (t :: ts)) = .next s' ∧ s'.outcome = .ok ∧ s'.host.script = [] ∧
        s'.sched = ts := by
      rw [step_ok (by simpa using ho)]
      rcases hts t (by simp) with rfl | rfl | rfl
      · exact ⟨_, rfl, ho, hs, rfl⟩
      · exact ⟨_, rfl, by simp [ho], by simp [hs], by simp⟩
      · refine ⟨beginTurn (s.setSched (.host :: ts)), ?_, ho, hs, rfl⟩
        simp [nextTurn, takeTurn, hostTurn, offered, hostSilent, hs]
    obtain ⟨s', h1, h2, h3, h4⟩ := hstep
    obtain ⟨u, hu⟩ := ih (fun t ht => hts t (by simp [ht])) s' h2 h3
    refine ⟨u, ?_⟩
    have : s'.setSched ts = s' := by rw [← h4]; rfl
    rw [runSched, this] at hu
    show Host.Core.run core (ts.length + 1) _ = _
    simp only [Host.Core.run, core, h1]
    exact hu

theorem witness_FairSchedulesCompleteEveryFrame :
    ∃ s ts, EncoderInv s ∧ s.outcome = .ok ∧ Fair ts ∧ (∀ n, ts n ≠ .platform) ∧
      (∀ n, ∃ t, runSched (prefixOf ts n) s = .next t) ∧ s.encoder.busy = true := by
  refine ⟨sending 0x01 0 false .clear false, rotation, encoderInv_sending _ (by decide) _, by decide, rotation_fair,
    fun n => ?_, fun n => rotation_runs _ (fun t ht => ?_) _ (by decide) (by decide), by decide⟩
  · unfold rotation
    split
    · simp
    · split <;> simp
  · obtain ⟨k, -, rfl⟩ := List.mem_map.1 ht
    unfold rotation
    split
    · simp
    · split <;> simp

theorem witness_TheTwoMachinesShareNoState :
    (∃ t, exec (.evByteRx 0x77) inAddr = .next t) ∧ ∃ t, exec (.sendByte 0x77) inAddr = .next t :=
  ⟨⟨_, rfl⟩, ⟨_, rfl⟩⟩

theorem witness_EventsCommuteWithTheEncoder :
    Instr.evNack.port = .evt ∧ ∃ t, exec .evNack inAddr = .next t := ⟨by decide, _, rfl⟩

theorem witness_HeldCommandStaysOffered :
    ∃ s w i, s.outcome = .ok ∧ nextTurn s = .host ∧ offered s = some w ∧ decodeCmd w = .instr i ∧
      s.encoder.busy = true :=
  ⟨running (sending 0 0 false .clear false) [.word 0x0300CA] [.host], 0x0300CA, .sendByte 0xCA, by decide, by decide,
    by decide, by decide, by decide⟩

theorem witness_OnlyBusEventsEndATransaction :
    (∃ s t, s.master.status = .busy ∧ (∀ w, nextTurn s ≠ .bus w) ∧ nextTurn s ≠ .platform ∧ step s = .next t) ∧
    (∃ s t, s.master.status ≠ .busy ∧ step s = .next t ∧ t.master.status = .busy) :=
  ⟨⟨running inAddr [] [.timer 1], _, by decide, (fun _ h => by cases h), by decide, rfl⟩,
    ⟨running State.reset [.word 0x012A04] [.host], _, by decide, rfl, by decide⟩⟩

theorem witness_OnlyTheHandlerWritesTheBuffer :
    ∃ s t, nextTurn s ≠ .platform ∧ step s = .next t ∧ t.cell 0 ≠ s.cell 0 :=
  ⟨running { inAddr with master.buf := [(0, 0x00)] } [] [.bus 0x01CA], _, by decide, rfl, by decide⟩

theorem witness_TracesOnlyGrow : ∃ s t, nextTurn s ≠ .platform ∧ step s = .next t :=
  ⟨running inAddr [] [.bus 0x0200], _, by decide, rfl⟩

theorem witness_StepKeepsParametersAndScript : ∃ s t, step s = .next t :=
  ⟨running State.reset [.superloop] [.host], _, rfl⟩

theorem witness_ResetStateMeetsInvariants : ∃ s, ResetState s := ⟨State.reset, resetState_reset⟩

theorem witness_StepKeepsInvariants : ∃ s t, Inv s ∧ step s = .next t :=
  ⟨{ inAddr with sched := [.bus 0x01CA], host := ⟨[], 0, .idle, []⟩ }, _, inv_with_sched _ inv_inAddr _ _, rfl⟩

/-- Each of the three listed faults occurs. -/
theorem witness_FaultsOnlyAsListed :
    (∃ s, Inv s ∧ s.outcome = .ok ∧ step s = .fault .beginWhileBusy) ∧
    (∃ s, Inv s ∧ s.outcome = .ok ∧ step s = .fault .lengthExceedsCapacity) ∧
    (∃ s, Inv s ∧ s.outcome = .ok ∧ step s = .fault .spuriousEvent) :=
  ⟨⟨{ inAddr with sched := [.host], host := ⟨[.word 0x012A04], 0, .idle, []⟩ }, inv_with_sched _ inv_inAddr _ _, rfl, rfl⟩,
    ⟨{ State.reset with sched := [.host], host := ⟨[.word 0x012A05], 0, .idle, []⟩ },
      inv_with_sched _ ⟨masterInv_reset, encoderInv_idle _ rfl⟩ _ _, rfl, rfl⟩,
    ⟨{ inData 0 with sched := [.bus 0x0000], host := ⟨[], 0, .idle, []⟩ }, inv_with_sched _ inv_inData _ _, rfl, rfl⟩⟩

theorem witness_OutcomeMarkIsSticky :
    (∃ s r, step s = .fault r) ∧ (∃ s r, step s = .refused r) ∧
    (State.reset.setOutcome (.fault .beginWhileBusy)).outcome = .fault .beginWhileBusy ∧
    (State.reset.setOutcome (.refuse .zeroLength)).outcome = .refuse .zeroLength :=
  ⟨⟨running failed [] [.bus 0x0200], _, rfl⟩, ⟨running failed [] [.bus 0x0500], _, rfl⟩, by decide, by decide⟩

theorem witness_AddressByteIsShiftedWithReadBit :
    State.reset.encoder.busy = false ∧ ∃ t, exec (.beginRead 0x2A 4) State.reset = .next t := ⟨rfl, _, rfl⟩

theorem witness_ResetRule :
    (running inAddr [] [.platform]).outcome = .ok ∧ nextTurn (running inAddr [] [.platform]) = .platform := by decide

theorem witness_StepRunsTheDecodedOperation :
    (∃ s w i, s.outcome = .ok ∧ nextTurn s = .host ∧ offered s = some w ∧ decode (.cmd w) = .instr i) ∧
    (∃ s, s.outcome = .ok ∧ nextTurn s = .host ∧ offered s = none) ∧
    (∃ s w i, s.outcome = .ok ∧ nextTurn s = .bus w ∧ decode (.evt w) = .instr i) ∧
    (∃ s, s.outcome = .ok ∧ nextTurn s = .timer 1) ∧ (∃ s, s.outcome = .ok ∧ nextTurn s = .timer 0) ∧
    (∃ s, s.outcome = .ok ∧ nextTurn s = .encoder) :=
  ⟨⟨atRequest, 0x012A04, .beginRead 0x2A 4, by decide, by decide, by decide, by decide⟩,
    ⟨running State.reset [] [.host], by decide, by decide, by decide⟩,
    ⟨running inAddr [] [.bus 0x0300], 0x0300, .evArbLost, by decide, by decide, by decide⟩,
    ⟨running inAddr [] [.timer 1], by decide, by decide⟩, ⟨running inAddr [] [.timer 0], by decide, by decide⟩,
    ⟨inAddr, by decide, by decide⟩⟩

theorem witness_PlacedWordRunsNext :
    State.reset.outcome = .ok ∧ decodeTableWord 24 0x110000 = some (.rdBuf 0) ∧
    decodeTableWord 16 0x0100 = some (.evByteRx 0) ∧ decodeTableWord 8 1 = some .evOvf := by decide

theorem witness_SilentMachineWaits :
    (State.reset.outcome = .ok ∧ State.reset.sched = [] ∧ State.reset.encoder.step = .idle) ∧
    ((sending 0 0 false .wait false).sched = [] ∧ (sending 0 0 false .wait false).encoder.step = .wait ∧
      (sending 0 0 false .wait false).timer.ovf = false) := by decide

theorem witness_SuccessfulReadFillsTheBuffer :
    failed.encoder.busy = false ∧ failed.master.status ≠ .busy ∧ ([0xCA, 0xFE, 0xBA, 0xBE] : List Byte) ≠ [] ∧
    ([0xCA, 0xFE, 0xBA, 0xBE] : List Byte).length ≤ failed.params.bufCap.toNat := by decide

/-- P1, from the acceptance to the last byte, with no separate acknowledge. -/
theorem test_successful_read :
    (nextOf (execAll [.beginRead 0x2A 4, .evByteRx 0xCA, .evByteRx 0xFE, .evByteRx 0xBA, .evByteRx 0xBE]
        State.reset)).map (fun t => (t.master.status, t.cell 0, t.cell 3)) = some (.ready, 0xCA, 0xBE) := by decide

theorem witness_SuperloopCommands :
    ((0x00 : Byte) ≠ 0x01 ∧ (0x04 : Byte) ≠ 0x01 ∧ (0x04 : Byte) ≠ 0x00) ∧
    (Params.reset.drainInclusive = true ∧ (3 : BitVec 8) < Params.reset.bufCap ∧ Params.reset.bufCap ≤ (4 : BitVec 8)) ∧
    (exclusive.params.drainInclusive = false ∧ (2 : BitVec 8).toNat + 1 < exclusive.params.readLen.toNat ∧
      exclusive.params.readLen.toNat ≤ (3 : BitVec 8).toNat + 1) ∧
    Params.reset.gateOnSuccess = false ∧ ({ Params.reset with gateOnSuccess := true } : Params).gateOnSuccess = true := by
  decide

theorem witness_SuperloopNeverFaults :
    (∃ s, ResetState s ∧ LoopAt .idle s) ∧
    (∃ s t, LoopInv s ∧ step s = .next t) ∧
    (∃ s, LoopInv s ∧ s.outcome = .ok ∧ s.params.wf = true ∧ nextTurn s = .host) :=
  ⟨⟨running State.reset [.superloop] [.host], by constructor <;> simp [running, State.reset],
      ⟨rfl, rfl, rfl⟩⟩,
    ⟨_, _, loopInv_reset, rfl⟩, ⟨_, loopInv_reset, by decide, by decide, by decide⟩⟩

/-- The state before an iteration, for each bound. -/
def beforeIteration (s : State) : State := { s with host := ⟨[.superloop], 0, .requesting, []⟩ }

theorem witness_SuperloopIteration :
    (IdleState (beforeIteration exclusive) ∧ LoopAt .requesting (beforeIteration exclusive) ∧ (beforeIteration exclusive).params.drainInclusive = false) ∧
    (IdleState (beforeIteration State.reset) ∧ LoopAt .requesting (beforeIteration State.reset) ∧
       (beforeIteration State.reset).params.drainInclusive = true ∧
      State.reset.params.readLen = State.reset.params.bufCap) ∧
    State.reset.params.wf = true ∧ exclusive.params.wf = true ∧
    ([0xCA, 0xFE, 0xBA, 0xBE] : List Byte).length = State.reset.params.readLen.toNat := by
  refine ⟨⟨?_, ⟨rfl, rfl, rfl⟩, by decide⟩, ⟨?_, ⟨rfl, rfl, rfl⟩, by decide, by decide⟩, by decide, by decide,
    by decide⟩ <;>
    constructor <;> decide

/-! ### Scripts that depend on responses, the end of a run, launch premises -/

/-- One gated iteration (R102): the request, the poll, and the drain only after `READY`. -/
def gatedIteration : List ScriptItem :=
  [.request, .waitDone, .goTo (.cond (.op .eq (.known (.const 0)) (.const 0x00)) (.const 3) (.const 4)), .drain]

/-- The gated script after its poll was answered `v`. -/
def polled (v : Nat) : State :=
  { State.reset with host := ⟨gatedIteration, 2, .idle, [v]⟩, sched := [.host] }

/-- R102: after `READY` the drain is next, after `ERR_NACK` the script is finished. -/
theorem test_gate_follows_the_response :
    (nextOf (step (polled 0x00))).map (fun t => t.host.pos) = some 3 ∧
    (nextOf (step (polled 0x04))).map (fun t => (t.host.pos, ended false t)) = some (4, true) := by decide

/-- A script for ever: read the status, send the response, start again. -/
def echoForever : List ScriptItem :=
  [.word 0x100000, .command (.const 0x03) (.const 0) (.known (.const 0)), .goTo (.const 0)]

/-- The response of the first command is the operand of the second (the word of R53), and the jump goes back. -/
theorem test_response_becomes_an_operand :
    (nextOf (step (running inAddr echoForever [.host]))).map (fun t => (t.host.known, offered t)) =
      some ([0x01], some 0x030001) ∧
    (nextOf (step { inAddr with host := ⟨echoForever, 2, .idle, [1]⟩, sched := [.host] })).map
      (fun t => (t.host.pos, offered t)) = some (0, some 0x100000) := by decide

theorem witness_HostScriptSteps :
    (∃ s, s.outcome = .ok ∧ nextTurn s = .host ∧ s.host.script[s.host.pos]? = none) ∧
    (∃ s e, s.outcome = .ok ∧ nextTurn s = .host ∧ s.host.script[s.host.pos]? = some (.compute e)) ∧
    (∃ s e, s.outcome = .ok ∧ nextTurn s = .host ∧ s.host.script[s.host.pos]? = some (.goTo e)) ∧
    (∃ s, s.outcome = .ok ∧ nextTurn s = .host ∧ s.host.script[s.host.pos]? = some .superloop ∧ s.host.phase = .idle) ∧
    (∃ s op a b i s', s.outcome = .ok ∧ nextTurn s = .host ∧ s.host.script[s.host.pos]? = some (.command op a b) ∧
      decodeCmd (computedWord s.host.known op a b) = .instr i ∧ exec i (beginTurn s) = .next s' ∧
      s'.ports.held = none) ∧
    (∃ s w i s', s.outcome = .ok ∧ nextTurn s = .host ∧ offered s = some w ∧ decodeCmd w = .instr i ∧
      exec i (beginTurn s) = .next s' ∧ s'.ports.held = none) :=
  ⟨⟨running State.reset [] [.host], by decide, by decide, by decide⟩,
    ⟨running State.reset [.compute .count] [.host], .count, by decide, by decide, by decide⟩,
    ⟨polled 0, _, by decide, by decide, rfl⟩,
    ⟨running State.reset [.superloop] [.host], by decide, by decide, by decide, by decide⟩,
    ⟨running State.reset [.command (.const 3) (.const 0) (.const 5)] [.host], _, _, _, .sendByte 5, _, by decide,
      by decide, rfl, by decide, rfl, rfl⟩,
    ⟨running State.reset echoForever [.host], 0x100000, .rdStatus, _, by decide, by decide, by decide, by decide, rfl,
      rfl⟩⟩

/-- The HOST's turn is next and its command is accepted. -/
def accepts (s : State) : Bool :=
  s.outcome = .ok && nextTurn s = .host &&
    match offered s with
    | none => false
    | some w =>
      match decodeCmd w with
      | .error _ => false
      | .instr i => (nextOf (exec i (beginTurn s))).any fun t => t.ports.held = none

/-- The HOST at one item, in a phase of it. -/
def atItem (s : State) (item : ScriptItem) (p : LoopPhase) : State :=
  { s with host := ⟨[item], 0, p, []⟩, sched := [.host] }

/-- Every item's command is accepted somewhere: `WAIT_DONE` with either answer, `DRAIN` at its start, at a read, and at a
transmission below and at each bound. -/
theorem witness_HostScriptSteps_items :
    [atItem State.reset (.word 0x100000) .idle, atItem State.reset .request .idle, atItem inAddr .waitDone .idle,
      atItem State.reset .waitDone .waiting, atItem State.reset .drain .idle, atItem State.reset .drain (.drainRead 4),
      atItem State.reset .drain (.drainSend 3 0), atItem State.reset .drain (.drainSend 4 0),
      atItem exclusive .drain (.drainSend 2 0), atItem exclusive .drain (.drainSend 3 0), atRequest].all accepts = true ∧
    State.reset.params.drainInclusive = true ∧ exclusive.params.drainInclusive = false := by decide

/-- R101: `WAIT_DONE` stays on `BUSY` and goes on after `READY`. -/
theorem test_wait_done_spins :
    (nextOf (step (atItem inAddr .waitDone .idle))).map (fun t => (t.host.pos, t.host.phase)) = some (0, .waiting) ∧
    (nextOf (step (atItem State.reset .waitDone .waiting))).map (fun t => (t.host.pos, t.host.phase)) =
      some (1, .idle) := by decide

/-- R103: the inclusive drain goes on after index 3 of four cells and ends after index 4, the exclusive one ends after
index 3. -/
theorem test_drain_bounds :
    (nextOf (step (atItem State.reset .drain (.drainSend 3 0)))).map (fun t => (t.host.pos, t.host.phase)) =
      some (0, .drainRead 4) ∧
    (nextOf (step (atItem State.reset .drain (.drainSend 4 0)))).map (fun t => t.host.pos) = some 1 ∧
    (nextOf (step (atItem exclusive .drain (.drainSend 3 0)))).map (fun t => t.host.pos) = some 1 := by decide

/-- A schedule of HOST turns alone. -/
def hostOnly (_ : Nat) : Turn := .host

theorem witness_RunsEndOnceAndHangsNever :
    (∃ t, EndOfRun false hostOnly (running State.reset [.word 0x100000] []) 1 t) ∧
    (∃ t, EndOfRun true hostOnly (running State.reset [.word 0x012A04] []) 1 t ∧ ended false t = false) ∧
    (inAddr.master.status = .busy ∧ (∀ k w, hostOnly k ≠ .bus w) ∧ ∀ k, hostOnly k ≠ .platform) ∧
    (EncoderInv (sending 0xCA 0 false .clear false) ∧ (sending 0xCA 0 false .clear false).encoder.busy = true ∧
      (sending 0xCA 0 false .clear false).timer.ovf = false ∧ ∀ k, hostOnly k ≠ .timer 1) := by
  have first : ∀ f script, ended f ((running State.reset script []).setSched []) = false →
      ∀ m u, m < 1 → runSched (prefixOf hostOnly m) (running State.reset script []) = .next u → ended f u = false := by
    intro f script h m u hm hu
    obtain rfl : m = 0 := by omega
    cases hu
    exact h
  refine ⟨⟨_, rfl, by decide, first _ _ (by decide)⟩, ⟨_, ⟨rfl, by decide, first _ _ (by decide)⟩, by decide⟩,
    ⟨rfl, by simp [hostOnly], by simp [hostOnly]⟩, ?_, rfl, rfl, by simp [hostOnly]⟩
  constructor <;> simp [sending]

/-- A start, its address acknowledge, then overflows for ever. -/
def launchSched : Nat → Turn
  | 0 => .host
  | 1 => .bus 0x0000
  | _ => .timer 1

theorem witness_LaunchedRunsHandleEveryEvent :
    ∃ u, LaunchPremises launchSched (running State.reset [.word 0x012A04] []) ∧
      Inv (running State.reset [.word 0x012A04] []) ∧
      runSched (prefixOf launchSched 1) (running State.reset [.word 0x012A04] []) = .next u ∧
      launchSched 1 = .bus 0x0000 := by
  refine ⟨_, ⟨.inl (by constructor <;> simp [running, State.reset]), ⟨?_, ?_⟩, by decide⟩,
    inv_with_sched _ ⟨masterInv_reset, encoderInv_idle _ rfl⟩ _ _, rfl, rfl⟩
  · intro n u hu
    match n with
    | 0 => rfl
    | 1 =>
      cases hu
      decide
    | n + 2 => rfl
  · exact fun n => ⟨n + 2, by omega, rfl⟩

end Sys2Proof.Tests
end

section
/-! PROOFS. The state family (10_state.md): what an operation leaves alone, one rule for whatever every step keeps, the
invariants of the MASTER and the ENCODER, reset, the outcome mark and the dispatch of a turn. -/

namespace Sys2Proof.Machine

/-! ### What an operation and a micro-step leave alone -/

/-- What no operation of the block writes besides the HOST and the parameters: the turns to come, the mark and
`LINE_TRACE`; `BC_TRACE` grows at its end alone (R28, R35). -/
structure OpFrame (s t : State) : Prop where
  sched : t.sched = s.sched
  outcome : t.outcome = s.outcome
  lineTrace : t.traces.line = s.traces.line
  bcTrace : s.traces.bc <+: t.traces.bc

/-- An operation that leaves the traces alone. -/
theorem OpFrame.of_traces {s t : State} (hs : t.sched = s.sched) (ho : t.outcome = s.outcome)
    (ht : t.traces = s.traces) : OpFrame s t :=
  ⟨hs, ho, by rw [ht], by rw [ht]⟩

/-- An operation that emits one bus command. -/
theorem OpFrame.of_emit {s t : State} (c : BusCmd) (hs : t.sched = s.sched) (ho : t.outcome = s.outcome)
    (ht : t.traces = (s.emit c).traces) : OpFrame s t :=
  ⟨hs, ho, by rw [ht]; rfl, by rw [ht]; exact List.prefix_append _ _⟩

@[simp] theorem impliedAck_traces (s : State) : (impliedAck s).traces = s.traces := by
  rcases impliedAck_cases s with ⟨-, h⟩ | ⟨-, h⟩ <;> simp [h]

@[simp] theorem impliedAck_sched (s : State) : (impliedAck s).sched = s.sched := by
  rcases impliedAck_cases s with ⟨-, h⟩ | ⟨-, h⟩ <;> simp [h]

@[simp] theorem impliedAck_outcome (s : State) : (impliedAck s).outcome = s.outcome := by
  rcases impliedAck_cases s with ⟨-, h⟩ | ⟨-, h⟩ <;> simp [h]

@[simp] theorem impliedAck_encoder (s : State) : (impliedAck s).encoder = s.encoder := by
  rcases impliedAck_cases s with ⟨-, h⟩ | ⟨-, h⟩ <;> simp [h]

@[simp] theorem answerByte_encoder (s : State) : (answerByte s).encoder = s.encoder := by
  rcases answerByte_cases s with ⟨-, h⟩ | ⟨-, h⟩ <;> simp [h]

theorem exec_next_frame {i : Instr} {s t : State} (h : exec i s = .next t) : OpFrame s t := by
  cases i <;> simp only [exec] at h
  case beginRead =>
    rcases execBeginRead_next h with ⟨-, rfl⟩ | ⟨-, -, -, -, rfl⟩
    · exact .of_traces rfl rfl rfl
    · exact .of_emit _ rfl rfl rfl
  case sendBit => rcases execSendBit_next h with ⟨-, rfl⟩ | ⟨-, rfl⟩ <;> exact .of_traces rfl rfl rfl
  case sendByte => rcases execSendByte_next h with ⟨-, rfl⟩ | ⟨-, rfl⟩ <;> exact .of_traces rfl rfl rfl
  case rdStatus => rcases execRdStatus_next h with ⟨-, rfl⟩ | ⟨-, rfl⟩ <;> exact .of_traces rfl rfl rfl
  case rdBuf =>
    rcases execRdBuf_next h with ⟨-, rfl⟩ | ⟨-, -, rfl⟩ | ⟨-, -, rfl⟩ <;> exact .of_traces rfl rfl rfl
  case evAddrAck =>
    obtain ⟨-, -, rfl⟩ := execEvAddrAck_next h
    exact .of_traces rfl rfl rfl
  case evByteRx data =>
    obtain ⟨-, -, rfl⟩ := execEvByteRx_next h
    rcases answerByte_cases (takeByte data (impliedAck s)) with ⟨-, ht⟩ | ⟨-, ht⟩ <;> rw [ht]
    · exact .of_emit .ack (by simp [takeByte]) (by simp [takeByte]) (by simp [takeByte])
    · exact .of_emit .nackStop (by simp [takeByte]) (by simp [takeByte]) (by simp [takeByte])
  case evNack =>
    obtain ⟨-, rfl⟩ := execEvNack_next h
    exact .of_emit .stop rfl rfl rfl
  case evArbLost =>
    obtain ⟨-, rfl⟩ := execEvArbLost_next h
    exact .of_traces rfl rfl rfl
  case evBusError =>
    obtain ⟨-, rfl⟩ := execEvBusError_next h
    exact .of_traces rfl rfl rfl
  case evOvf =>
    obtain rfl := execEvOvf_next h
    exact .of_traces rfl rfl rfl

@[simp] theorem microStep_bcTrace (s : State) : (microStep s).traces.bc = s.traces.bc := by
  rcases microStep_cases s with ⟨-, h⟩ | ⟨-, h⟩ | ⟨-, h⟩ | ⟨-, -, h⟩ | ⟨-, -, h⟩ <;> simp [h]

/-- A micro-step appends at most the level of the half-slot it completes (R86). -/
theorem microStep_lineTrace_prefix (s : State) : s.traces.line <+: (microStep s).traces.line := by
  rcases microStep_cases s with ⟨-, h⟩ | ⟨-, h⟩ | ⟨-, h⟩ | ⟨-, -, h⟩ | ⟨-, -, h⟩ <;> simp [h]

/-! ### What every step keeps -/

/-- One rule for everything a step keeps: what holds when the turn begins holds after it, if the HOST's own writes,
every operation, every micro-step and, on the platform's turn, the reset keep it. -/
theorem step_keeps {P : State → Prop} {s t : State} (h : step s = .next t) (start : P (beginTurn s))
    (host : ∀ u c, c.script = u.host.script → P u → P { u with host := c })
    (op : ∀ u v i, P u → exec i u = .next v → P v)
    (micro : ∀ u, P u → P (microStep u))
    (reset : nextTurn s = .platform → P (beginTurn s).resetOp) : P t := by
  obtain ⟨-, h⟩ := step_cases h
  rcases h with ⟨-, -, rfl⟩ | ⟨_, i, u, -, -, -, -, hx, ht⟩ | ⟨_, i, -, -, -, hx⟩ | ⟨-, rfl⟩ | ⟨-, rfl⟩ | ⟨-, rfl⟩ |
    ⟨hn, rfl⟩
  · obtain ⟨c, hc, h⟩ := hostSilent_cases (beginTurn s)
    exact h ▸ host _ c hc start
  · have hu : P u := op _ _ i start hx
    rcases ht with ⟨-, rfl⟩ | ⟨-, rfl⟩
    · obtain ⟨c, hc, h⟩ := hostAdvance_cases u
      exact h ▸ host _ c hc hu
    · exact hu
  · exact op _ _ i start hx
  · exact op _ _ .evOvf start rfl
  · exact start
  · exact micro _ start
  · exact reset hn

/-- Both traces of a state are prefixes of another's (R28). -/
def TracesExtend (s t : State) : Prop := s.traces.line <+: t.traces.line ∧ s.traces.bc <+: t.traces.bc

theorem TracesExtend.trans {s t u : State} (h : TracesExtend s t) (h' : TracesExtend t u) : TracesExtend s u :=
  ⟨h.1.trans h'.1, h.2.trans h'.2⟩

/-- What a step that begins in `s` leaves as it was once it has taken its turn from the schedule (R33, R35). -/
structure TurnFrame (s t : State) : Prop where
  params : t.params = s.params
  script : t.host.script = s.host.script
  sched : t.sched = s.sched.tail
  outcome : t.outcome = .ok

/-! ### A marked state and the HOST's turn -/

theorem step_of_fault {s : State} {r : Fault} (h : s.outcome = .fault r) : step s = .fault r := by
  simp [step, h]

theorem step_of_refuse {s : State} {r : Refusal} (h : s.outcome = .refuse r) : step s = .refused r := by
  simp [step, h]

theorem setOutcome_self {s : State} {m : Mark} (h : s.outcome = m) : s.setOutcome m = s := by
  rw [State.setOutcome, ← h]

/-- A HOST that offers a word runs what it decodes to (R48, R95). -/
theorem hostTurn_of_offered {s : State} {w : CmdWord} (h : offered s = some w) :
    hostTurn s = afterCommand (runDecoded (decode (.cmd w)) s) := by
  simp [hostTurn, h]

theorem hostTurn_of_silent {s : State} (h : offered s = none) : hostTurn s = .next (hostSilent s) := by
  simp [hostTurn, h]

end Sys2Proof.Machine

namespace Sys2Proof.Safety

open Sys2Proof.Machine

/-! ### The MASTER's invariants -/

/-- The MASTER's invariants read the parameters, the MASTER and `BC_TRACE` alone. -/
theorem MasterInv.congr {s t : State} (hi : MasterInv s) (hp : t.params = s.params) (hm : t.master = s.master)
    (hb : t.traces.bc = s.traces.bc) : MasterInv t := by
  obtain ⟨h1, h2, h3, h4, h5, h6, h7, h8, h9⟩ := hi
  constructor <;> simpa only [hp, hm, hb]

/-- In flight the counter is below the length (R21): at 0 in the address phase, by the data phase's clause after it. -/
theorem MasterInv.cnt_lt_len {s : State} (hi : MasterInv s) (hb : s.master.status = .busy) :
    s.master.cnt < s.master.len := by
  rcases hi.flight.1 hb with hp | hp
  · have hcnt := hi.addrCnt hp
    have hlen := (hi.lenRange hb).1
    bv_omega
  · exact hi.dataCnt hp

/-- In flight the implied acknowledge leaves the data phase, whichever phase it found (R70). -/
theorem MasterInv.impliedAck_eq {s : State} (hi : MasterInv s) (hb : s.master.status = .busy) :
    impliedAck s = s.setPhase .data := by
  rcases impliedAck_cases s with ⟨-, h⟩ | ⟨hp, h⟩
  · exact h
  · have hd : s.master.phase = .data := (hi.flight.1 hb).resolve_left hp
    rw [h, State.setPhase, ← hd]

/-- An accepted `BEGIN_READ` enters the address phase at count 0 (R66). -/
theorem MasterInv.beginRead {s : State} (hi : MasterInv s) (addr : BitVec 7) {len : BitVec 8} (c : BusCmd)
    (h0 : len ≠ 0) (hc : len ≤ s.params.bufCap) :
    MasterInv (((((s.latchTransfer addr len).setCnt 0).emit c).setPhase .addr).setStatus .busy) where
  flight := by simp
  neverStop := by simp
  addrCnt := by simp
  dataCnt := by simp
  lenRange := fun _ => ⟨show 1 ≤ len by bv_omega, hc⟩
  readyCnt := by simp
  cntRange := BitVec.le_def.2 (Nat.zero_le _)
  bufWf := hi.bufWf
  bufRange := hi.bufRange

/-- The address acknowledge opens the data phase at count 0, below the length (R69). -/
theorem MasterInv.addrAck {s : State} (hi : MasterInv s) (hb : s.master.status = .busy) :
    MasterInv (s.setPhase .data) where
  flight := by simp [hb]
  neverStop := by simp
  addrCnt := by simp
  dataCnt := fun _ => hi.cnt_lt_len hb
  lenRange := hi.lenRange
  readyCnt := by simp [hb]
  cntRange := hi.cntRange
  bufWf := hi.bufWf
  bufRange := hi.bufRange

theorem ne_busy_of_isError {st : Status} (he : st.isError = true) : st ≠ .busy := by
  rintro rfl
  cases he

theorem ne_ready_of_isError {st : Status} (he : st.isError = true) : st ≠ .ready := by
  rintro rfl
  cases he

/-- A transaction that ends in an error keeps what was received (R71 to R73). -/
theorem MasterInv.endWithError {s : State} (hi : MasterInv s) {st : Status} (he : st.isError = true) :
    MasterInv (endTransaction st s) where
  flight := by simp [ne_busy_of_isError he]
  neverStop := by simp
  addrCnt := by simp
  dataCnt := by simp
  lenRange := fun h => absurd h (ne_busy_of_isError he)
  readyCnt := fun h => absurd h (ne_ready_of_isError he)
  cntRange := hi.cntRange
  bufWf := hi.bufWf
  bufRange := hi.bufRange

/-- A bus command emitted while no read has ended `READY` leaves the invariants alone. -/
theorem MasterInv.emit {s : State} (hi : MasterInv s) (hr : s.master.status ≠ .ready) (c : BusCmd) :
    MasterInv (s.emit c) where
  flight := hi.flight
  neverStop := hi.neverStop
  addrCnt := hi.addrCnt
  dataCnt := hi.dataCnt
  lenRange := hi.lenRange
  readyCnt := fun h => absurd h hr
  cntRange := hi.cntRange
  bufWf := hi.bufWf
  bufRange := hi.bufRange

/-- The stored byte lies within the capacity, and so does the advanced counter, which does not wrap (R18, R36, R41). -/
theorem MasterInv.takeByte_range {s : State} (hi : MasterInv s) (data : Byte)
    (hcap : s.master.cnt < s.params.bufCap) :
    (takeByte data s).master.cnt ≤ s.params.bufCap ∧ Memory.wf (takeByte data s).master.buf ∧
      Memory.below s.params.bufCap.toNat (takeByte data s).master.buf := by
  refine ⟨?_, Memory.wf_write _ _ _ hi.bufWf, Memory.below_write _ (BitVec.lt_def.1 hcap) hi.bufRange⟩
  show s.master.cnt + 1 ≤ s.params.bufCap
  bv_omega

/-- A received byte (R70): before the final one the data phase goes on below the length; the final one ends the read
with the counter at the length. -/
theorem MasterInv.byteRx {s : State} (hi : MasterInv s) (data : Byte) (hb : s.master.status = .busy)
    (hcap : s.master.cnt < s.params.bufCap) : MasterInv (answerByte (takeByte data (impliedAck s))) := by
  rw [hi.impliedAck_eq hb]
  have hlt : s.master.cnt < s.master.len := hi.cnt_lt_len hb
  obtain ⟨hcnt, hwf, hbelow⟩ := (hi.addrAck hb).takeByte_range data hcap
  have hend : s.master.len ≤ s.master.cnt + 1 → s.master.cnt + 1 = s.master.len := by bv_omega
  rcases answerByte_cases (takeByte data (s.setPhase .data)) with ⟨hl, ht⟩ | ⟨hl, ht⟩ <;> rw [ht]
  · exact {
      flight := by simp [takeByte, hb]
      neverStop := by simp [takeByte]
      addrCnt := by simp [takeByte]
      dataCnt := fun _ => hl
      lenRange := hi.lenRange
      readyCnt := by simp [takeByte, hb]
      cntRange := hcnt
      bufWf := hwf
      bufRange := hbelow }
  · exact {
      flight := by simp
      neverStop := by simp
      addrCnt := by simp
      dataCnt := by simp
      lenRange := by simp
      readyCnt := fun _ _ => hend hl
      cntRange := hcnt
      bufWf := hwf
      bufRange := hbelow }

theorem exec_keeps_masterInv {i : Instr} {s t : State} (hi : MasterInv s) (h : exec i s = .next t) : MasterInv t := by
  cases i <;> simp only [exec] at h
  case beginRead addr len =>
    rcases execBeginRead_next h with ⟨-, rfl⟩ | ⟨-, -, h0, hc, rfl⟩
    · exact hi.congr rfl rfl rfl
    · exact hi.beginRead addr _ h0 hc
  case sendBit => rcases execSendBit_next h with ⟨-, rfl⟩ | ⟨-, rfl⟩ <;> exact hi.congr rfl rfl rfl
  case sendByte => rcases execSendByte_next h with ⟨-, rfl⟩ | ⟨-, rfl⟩ <;> exact hi.congr rfl rfl rfl
  case rdStatus => rcases execRdStatus_next h with ⟨-, rfl⟩ | ⟨-, rfl⟩ <;> exact hi.congr rfl rfl rfl
  case rdBuf =>
    rcases execRdBuf_next h with ⟨-, rfl⟩ | ⟨-, -, rfl⟩ | ⟨-, -, rfl⟩ <;> exact hi.congr rfl rfl rfl
  case evAddrAck =>
    obtain ⟨hb, -, rfl⟩ := execEvAddrAck_next h
    exact hi.addrAck hb
  case evByteRx data =>
    obtain ⟨hb, hcap, rfl⟩ := execEvByteRx_next h
    exact hi.byteRx data hb hcap
  case evNack =>
    obtain ⟨hb, rfl⟩ := execEvNack_next h
    exact (hi.emit (by simp [hb]) .stop).endWithError rfl
  case evArbLost =>
    obtain ⟨-, rfl⟩ := execEvArbLost_next h
    exact hi.endWithError rfl
  case evBusError =>
    obtain ⟨-, rfl⟩ := execEvBusError_next h
    exact hi.endWithError rfl
  case evOvf =>
    obtain rfl := execEvOvf_next h
    exact hi.congr rfl rfl rfl

/-! ### The ENCODER's invariants -/

/-- The ENCODER's invariants read the ENCODER alone. -/
theorem EncoderInv.congr {s t : State} (hi : EncoderInv s) (he : t.encoder = s.encoder) : EncoderInv t := by
  obtain ⟨h1, h2, h3, h4, h5⟩ := hi
  constructor <;> simpa only [frameLevel, frameBit, he]

/-- An operation leaves the ENCODER alone or loads a frame of one bit or of eight (R79, R80, R92). -/
theorem exec_next_encoder {i : Instr} {s t : State} (h : exec i s = .next t) :
    t.encoder = s.encoder ∨ ∃ d n, (n = 1 ∨ n = 8) ∧ t.encoder = (s.loadFrame d n).encoder := by
  cases i <;> simp only [exec] at h
  case beginRead => rcases execBeginRead_next h with ⟨-, rfl⟩ | ⟨-, -, -, -, rfl⟩ <;> exact .inl rfl
  case sendBit v =>
    rcases execSendBit_next h with ⟨-, rfl⟩ | ⟨-, rfl⟩
    · exact .inl rfl
    · exact .inr ⟨bitFrame v, 1, .inl rfl, rfl⟩
  case sendByte byte =>
    rcases execSendByte_next h with ⟨-, rfl⟩ | ⟨-, rfl⟩
    · exact .inl rfl
    · exact .inr ⟨byte, 8, .inr rfl, rfl⟩
  case rdStatus => rcases execRdStatus_next h with ⟨-, rfl⟩ | ⟨-, rfl⟩ <;> exact .inl rfl
  case rdBuf => rcases execRdBuf_next h with ⟨-, rfl⟩ | ⟨-, -, rfl⟩ | ⟨-, -, rfl⟩ <;> exact .inl rfl
  case evAddrAck =>
    obtain ⟨-, -, rfl⟩ := execEvAddrAck_next h
    exact .inl rfl
  case evByteRx =>
    obtain ⟨-, -, rfl⟩ := execEvByteRx_next h
    exact .inl (by simp [takeByte])
  case evNack =>
    obtain ⟨-, rfl⟩ := execEvNack_next h
    exact .inl rfl
  case evArbLost =>
    obtain ⟨-, rfl⟩ := execEvArbLost_next h
    exact .inl rfl
  case evBusError =>
    obtain ⟨-, rfl⟩ := execEvBusError_next h
    exact .inl rfl
  case evOvf =>
    obtain rfl := execEvOvf_next h
    exact .inl rfl

/-- A loaded frame stands at its first half-slot (R79, R80). -/
theorem encoderInv_loadFrame (s : State) (d : Byte) {n : BitVec 4} (hn : n = 1 ∨ n = 8) :
    EncoderInv (s.loadFrame d n) where
  busyStep := by simp
  nbits := hn
  idleSeq := by simp
  bitRange := by rcases hn with rfl | rfl <;> simp
  waitLine := by simp

theorem exec_keeps_encoderInv {i : Instr} {s t : State} (hi : EncoderInv s) (h : exec i s = .next t) :
    EncoderInv t := by
  rcases exec_next_encoder h with he | ⟨d, n, hn, he⟩
  · exact hi.congr he
  · exact (encoderInv_loadFrame s d hn).congr he

/-- A busy ENCODER stays within its frame when it moves to a half-slot of one of the frame's bits (R86). -/
theorem EncoderInv.toHalfSlot {s : State} (hi : EncoderInv s) (hb : s.encoder.busy = true) {b : BitVec 3} (half : Bool)
    (hr : b.toNat < s.encoder.nbits.toNat) : EncoderInv (s.toHalfSlot b half) where
  busyStep := by simp [hb]
  nbits := hi.nbits
  idleSeq := by simp [hb]
  bitRange := fun _ => hr
  waitLine := by simp

theorem EncoderInv.finishFrame {s : State} (hi : EncoderInv s) : EncoderInv s.finishFrame where
  busyStep := by simp
  nbits := hi.nbits
  idleSeq := by simp
  bitRange := by simp
  waitLine := by simp

/-- The end of a half-slot of a busy ENCODER (R86); the next bit's index does not wrap, since a frame has at most eight
bits. -/
theorem EncoderInv.nextHalfSlot {s : State} (hi : EncoderInv s) (hb : s.encoder.busy = true) :
    EncoderInv (nextHalfSlot s) := by
  rcases nextHalfSlot_cases s with ⟨-, h⟩ | ⟨-, hr, h⟩ | ⟨-, -, h⟩ <;> rw [h]
  · exact hi.toHalfSlot hb true (hi.bitRange hb)
  · have hle : s.encoder.nbits.toNat ≤ 8 := by rcases hi.nbits with hn | hn <;> simp [hn]
    exact hi.toHalfSlot hb false (by bv_omega)
  · exact hi.finishFrame

/-- `S_CLEAR` and `S_PROG` keep the place in the frame, `S_PROG` sets the line to the half-slot's level, and `S_WAIT` is
held or ends the half-slot (R84 to R86). -/
theorem microStep_keeps_encoderInv {s : State} (hi : EncoderInv s) : EncoderInv (microStep s) := by
  have busy_of : s.encoder.step ≠ .idle → s.encoder.busy = true := fun hs =>
    Bool.eq_true_of_not_eq_false fun hf => hs (hi.busyStep.1 hf)
  rcases microStep_cases s with ⟨-, h⟩ | ⟨hs, h⟩ | ⟨hs, h⟩ | ⟨-, -, h⟩ | ⟨hs, -, h⟩ <;> rw [h]
  · exact hi
  · have hb := busy_of (by simp [hs])
    exact ⟨by simp [hb], hi.nbits, hi.idleSeq, hi.bitRange, by simp⟩
  · have hb := busy_of (by simp [hs])
    exact ⟨by simp [hb], hi.nbits, hi.idleSeq, hi.bitRange, fun _ => rfl⟩
  · exact hi.congr rfl
  · have hi' : EncoderInv ((s.setOvf false).appendLine s.encoder.line) := hi.congr rfl
    exact hi'.nextHalfSlot (busy_of (by simp [hs]))

/-! ### Reset -/

/-- A state after reset meets both machines' invariants, whatever its draws (R134). -/
theorem ResetState.inv {s : State} (hr : ResetState s) : Inv s where
  master :=
    { flight := by simp [hr.status, hr.phase]
      neverStop := by simp [hr.phase]
      addrCnt := fun _ => hr.cnt
      dataCnt := by simp [hr.phase]
      lenRange := by simp [hr.status]
      readyCnt := fun _ hbc => absurd hr.bcTrace hbc
      cntRange := by simp [hr.cnt, BitVec.le_def]
      bufWf := by simp [hr.buf]
      bufRange := by simp [hr.buf] }
  encoder :=
    { busyStep := by simp [hr.busy, hr.step]
      nbits := hr.nbits
      idleSeq := fun _ => ⟨hr.bitIdx, hr.half⟩
      bitRange := by simp [hr.busy]
      waitLine := by simp [hr.step] }

theorem resetState_reset : ResetState State.reset := by
  constructor <;> simp [State.reset]

/-- The reset operation gives a state of `reset_state` from any state (R132, R134). -/
theorem resetState_resetOp (s : State) : ResetState s.resetOp := by
  have hn : s.resetOp.encoder.nbits = 1 ∨ s.resetOp.encoder.nbits = 8 := by
    cases hd : Config.resetNbitsIsByte s.freeCtr <;> simp [hd]
  exact ⟨rfl, rfl, rfl, rfl, rfl, rfl, rfl, rfl, hn, rfl, rfl, rfl⟩

end Sys2Proof.Safety

namespace Sys2Proof.Proofs

open Sys2Proof.Machine Sys2Proof.Safety

/-! ### The statements -/

/-- Settles O47: every operation, micro-step and reset keeps the invariants, which do not read the HOST. -/
theorem stepKeepsInvariants : Obligations.StepKeepsInvariants := by
  intro s t hi h
  refine step_keeps h ⟨hi.master.congr rfl rfl rfl, hi.encoder.congr rfl⟩ ?_ ?_ ?_ ?_
  · exact fun u c _ hu => ⟨hu.master.congr rfl rfl rfl, hu.encoder.congr rfl⟩
  · exact fun u v i hu hx => ⟨exec_keeps_masterInv hu.master hx, exec_keeps_encoderInv hu.encoder hx⟩
  · exact fun u hu => ⟨hu.master.congr (by simp) (by simp) (by simp), microStep_keeps_encoderInv hu.encoder⟩
  · exact fun _ => (resetState_resetOp _).inv

/-- Settles O44: every operation and every micro-step extends the traces, and the HOST does not touch them. -/
theorem tracesOnlyGrow : Obligations.TracesOnlyGrow := by
  intro s t hn h
  refine step_keeps (P := TracesExtend s) h ⟨List.prefix_rfl, List.prefix_rfl⟩ (fun _ _ _ hu => hu) ?_ ?_ ?_
  · intro u v i hu hx
    obtain ⟨-, -, hline, hbc⟩ := exec_next_frame hx
    exact hu.trans ⟨hline ▸ List.prefix_rfl, hbc⟩
  · exact fun u hu => hu.trans ⟨microStep_lineTrace_prefix u, by simp⟩
  · exact fun hp => absurd hp hn

/-- Settles O45: neither the HOST, nor an operation, a micro-step or a reset changes any of the four. -/
theorem stepKeepsParametersAndScript : Obligations.StepKeepsParametersAndScript := by
  intro s t h
  have ht : TurnFrame s t := by
    refine step_keeps h ⟨rfl, rfl, rfl, (step_next h).1⟩ ?_ ?_ ?_ ?_
    · exact fun u c hc hu => ⟨hu.params, hc.trans hu.script, hu.sched, hu.outcome⟩
    · intro u v i hu hx
      have hf := exec_next_frame hx
      exact ⟨(exec_next_params hx).trans hu.params, (exec_next_host hx).symm ▸ hu.script, hf.sched.trans hu.sched,
        hf.outcome.trans hu.outcome⟩
    · exact fun u hu => ⟨by simp [hu.params], by simp [hu.script], by simp [hu.sched], by simp [hu.outcome]⟩
    · exact fun _ => ⟨rfl, rfl, rfl, rfl⟩
  exact ⟨ht.params, ht.script, ht.sched, ht.outcome⟩

/-- Settles O21: each event ends the transaction with the status of its own rule (R71 to R73). -/
theorem errorEventsGiveDistinctErrors : Obligations.ErrorEventsGiveDistinctErrors := by
  intro s hb
  refine ⟨_, _, _, handlerEntry_busy hb _, handlerEntry_busy hb _, handlerEntry_busy hb _, ?_⟩
  simp [Status.isError]

/-- Settles O46: the power-on state is a `ResetState` like the others. -/
theorem resetStateMeetsInvariants : Obligations.ResetStateMeetsInvariants :=
  ⟨resetState_reset.inv, fun _ hr => hr.inv⟩

/-- Settles O49: settling a stop sets the mark, and a step of a marked state answers that mark again. -/
theorem outcomeMarkIsSticky : Obligations.OutcomeMarkIsSticky := by
  refine ⟨rfl, ?_, ?_, ?_, ?_, ?_⟩
  · intro s r h
    rw [h, settle, State.setOutcome_outcome]
  · intro s r h
    rw [h, settle, State.setOutcome_outcome]
  · intro s flightAllowed h
    simp [ended, h]
  · intro s r h
    exact ⟨step_of_fault h, by rw [step_of_fault h, settle, setOutcome_self h]⟩
  · intro s r h
    exact ⟨step_of_refuse h, by rw [step_of_refuse h, settle, setOutcome_self h]⟩

/-- Settles O50: the platform's turn is the reset operation, and no cell of the emptied buffer has been written. -/
theorem resetRule : Obligations.ResetRule := by
  intro s ho hn
  refine ⟨(beginTurn s).resetOp, ?_, resetState_resetOp _, rfl, rfl, rfl, fun _ => rfl⟩
  rw [step_ok ho, hn]
  rfl

/-- Settles O51: in an unmarked state the step is the agent's turn, and a turn runs what its word decodes to; the strobe
0 decodes to no operation (R56; log entries 1 and 15). -/
theorem stepRunsTheDecodedOperation : Obligations.StepRunsTheDecodedOperation := by
  intro s ho
  rw [step_ok ho]
  refine ⟨?_, ?_, ?_, ?_, ?_, ?_⟩
  · intro w i hn hw hd
    rw [hn, takeTurn, hostTurn_of_offered (by simpa using hw), hd, runDecoded]
  · intro hn hw
    rw [hn, takeTurn, hostTurn_of_silent (by simpa using hw)]
  · intro w i hn hd
    rw [hn, takeTurn, busTurn, hd, runDecoded]
  · intro hn
    rw [hn]
    rfl
  · intro hn
    rw [hn]
    rfl
  · intro hn
    rw [hn, takeTurn, encoderTurn]

end Sys2Proof.Proofs
end

section
/-! PROOFS. The receive buffer (20_memory.md): what each operation does to the cells, reads of the buffer, a command
under hold, and a transaction that stores its bytes in order. -/

namespace Sys2Proof.Machine

/-! ### The cells under each operation -/

/-- A cell's byte is the MASTER's alone (R42, R51). -/
theorem State.cell_of_master {s t : State} (h : t.master = s.master) (a : Nat) : t.cell a = s.cell a :=
  State.cell_congr s t (by rw [h]) (by rw [h]) a

/-- A cell that nothing has written reads as its reset draw (R51). -/
theorem State.cell_of_unwritten {s : State} {a : Nat} (h : Memory.read? s.master.buf a = none) :
    s.cell a = Config.resetCell s.master.bufSeed a := by
  simp [State.cell, h]

@[simp] theorem impliedAck_params (s : State) : (impliedAck s).params = s.params := by
  rcases impliedAck_cases s with ⟨-, h⟩ | ⟨-, h⟩ <;> simp [h]

@[simp] theorem impliedAck_status (s : State) : (impliedAck s).master.status = s.master.status := by
  rcases impliedAck_cases s with ⟨-, h⟩ | ⟨-, h⟩ <;> simp [h]

@[simp] theorem impliedAck_cnt (s : State) : (impliedAck s).master.cnt = s.master.cnt := by
  rcases impliedAck_cases s with ⟨-, h⟩ | ⟨-, h⟩ <;> simp [h]

@[simp] theorem impliedAck_storeIndex (s : State) : storeIndex (impliedAck s) = storeIndex s := by
  rw [storeIndex, impliedAck_cnt, storeIndex]

@[simp] theorem impliedAck_len (s : State) : (impliedAck s).master.len = s.master.len := by
  rcases impliedAck_cases s with ⟨-, h⟩ | ⟨-, h⟩ <;> simp [h]

@[simp] theorem impliedAck_cell (s : State) (a : Nat) : (impliedAck s).cell a = s.cell a := by
  rcases impliedAck_cases s with ⟨-, h⟩ | ⟨-, h⟩ <;> rw [h] <;> rfl

/-- The byte goes to the cell at the counter's old value (R41). -/
@[simp] theorem takeByte_cell (data : Byte) (s : State) (a : Nat) :
    (takeByte data s).cell a = if a = storeIndex s then data else s.cell a :=
  State.cell_storeByte s (storeIndex s) a data

@[simp] theorem answerByte_cell (s : State) (a : Nat) : (answerByte s).cell a = s.cell a := by
  rcases answerByte_cases s with ⟨-, h⟩ | ⟨-, h⟩ <;> rw [h] <;> rfl

/-- `EV_BYTE_RX` writes the cell at `M_CNT` and no other (R41, R70). -/
theorem execEvByteRx_cell {data : Byte} {s t : State} (h : execEvByteRx data s = .next t) (a : Nat) :
    t.cell a = if a = storeIndex s then data else s.cell a := by
  obtain ⟨-, -, rfl⟩ := execEvByteRx_next h
  simp

/-- An operation that changes what a cell reads as is `EV_BYTE_RX`, and the cell is the one at `M_CNT` (R41, R120). -/
theorem exec_cell_changed {i : Instr} {s t : State} {a : Nat} (h : exec i s = .next t) (hc : t.cell a ≠ s.cell a) :
    ∃ d, i = .evByteRx d ∧ a = storeIndex s ∧ t.cell a = d := by
  cases i <;> simp only [exec] at h
  case evByteRx d =>
    have hcell := execEvByteRx_cell h a
    by_cases ha : a = storeIndex s
    · exact ⟨d, rfl, ha, by rw [hcell, if_pos ha]⟩
    · exact absurd (by rw [hcell, if_neg ha]) hc
  case beginRead => rcases execBeginRead_next h with ⟨-, rfl⟩ | ⟨-, -, -, -, rfl⟩ <;> exact absurd rfl hc
  case sendBit => rcases execSendBit_next h with ⟨-, rfl⟩ | ⟨-, rfl⟩ <;> exact absurd rfl hc
  case sendByte => rcases execSendByte_next h with ⟨-, rfl⟩ | ⟨-, rfl⟩ <;> exact absurd rfl hc
  case rdStatus => rcases execRdStatus_next h with ⟨-, rfl⟩ | ⟨-, rfl⟩ <;> exact absurd rfl hc
  case rdBuf => rcases execRdBuf_next h with ⟨-, rfl⟩ | ⟨-, -, rfl⟩ | ⟨-, -, rfl⟩ <;> exact absurd rfl hc
  case evAddrAck =>
    obtain ⟨-, -, rfl⟩ := execEvAddrAck_next h
    exact absurd rfl hc
  case evNack =>
    obtain ⟨-, rfl⟩ := execEvNack_next h
    exact absurd rfl hc
  case evArbLost =>
    obtain ⟨-, rfl⟩ := execEvArbLost_next h
    exact absurd rfl hc
  case evBusError =>
    obtain ⟨-, rfl⟩ := execEvBusError_next h
    exact absurd rfl hc
  case evOvf =>
    obtain rfl := execEvOvf_next h
    exact absurd rfl hc

/-- A command of the `cmd` port leaves every cell as it was. -/
theorem exec_cmd_cell {i : Instr} {s t : State} (hp : i.port = .cmd) (h : exec i s = .next t) (a : Nat) :
    t.cell a = s.cell a := by
  by_contra hc
  obtain ⟨d, rfl, -, -⟩ := exec_cell_changed h hc
  cases hp

/-! ### Reads, the start of a read, and the events that store nothing -/

/-- A read writes the `rsp` and hold ports and the free-value counter alone (R40, R67, R68). -/
theorem exec_read_next {i : Instr} {s t : State} (hi : i = .rdStatus ∨ ∃ idx, i = .rdBuf idx)
    (h : exec i s = .next t) :
    ∃ rsp held c, t = { s with ports := { s.ports with rsp := rsp, held := held }, freeCtr := c } := by
  rcases hi with rfl | ⟨idx, rfl⟩
  · rcases execRdStatus_next h with ⟨-, rfl⟩ | ⟨-, rfl⟩ <;> exact ⟨_, _, _, rfl⟩
  · rcases execRdBuf_next h with ⟨-, rfl⟩ | ⟨-, -, rfl⟩ | ⟨-, -, rfl⟩ <;> exact ⟨_, _, _, rfl⟩

/-- `RD_BUF` below the capacity answers the cell (R68). -/
theorem exec_rdBuf_below {s : State} {idx : BitVec 8} (hb : s.encoder.busy = false) (hlt : idx < s.params.bufCap) :
    exec (.rdBuf idx) s = .next (s.respond (s.cell idx.toNat)) := by
  rw [exec, execRdBuf, hostCommand_idle hb, if_pos hlt]

/-- `BEGIN_READ` of a length that fits, with no transaction in flight, is accepted (R66). -/
theorem exec_beginRead_accepted {s : State} (addr : BitVec 7) {len : BitVec 8} (hb : s.encoder.busy = false)
    (hs : s.master.status ≠ .busy) (h0 : len ≠ 0) (hc : len ≤ s.params.bufCap) :
    exec (.beginRead addr len) s =
      .next (((((s.latchTransfer addr len).setCnt 0).emit (.startRead (addressByte addr))).setPhase .addr).setStatus
        .busy) := by
  rw [exec, execBeginRead, hostCommand_idle hb, if_neg hs, if_neg h0, if_neg (BitVec.not_lt.2 hc)]

/-- A bus event that stores nothing writes the status, the phase and the `bc` port with its trace alone (R69, R71 to
R73). -/
theorem exec_storeless_next {i : Instr} {s t : State}
    (hi : i = .evAddrAck ∨ i = .evNack ∨ i = .evArbLost ∨ i = .evBusError) (h : exec i s = .next t) :
    ∃ st ph c cs, t =
      { s with
        master := { s.master with status := st, phase := ph }
        ports := { s.ports with bc := c }
        traces := { s.traces with bc := cs } } := by
  rcases hi with rfl | rfl | rfl | rfl
  · obtain ⟨-, -, rfl⟩ := execEvAddrAck_next h
    exact ⟨_, _, _, _, rfl⟩
  · obtain ⟨-, rfl⟩ := execEvNack_next h
    exact ⟨_, _, _, _, rfl⟩
  · obtain ⟨-, rfl⟩ := execEvArbLost_next h
    exact ⟨_, _, _, _, rfl⟩
  · obtain ⟨-, rfl⟩ := execEvBusError_next h
    exact ⟨_, _, _, _, rfl⟩

/-! ### A command under hold -/

/-- Every command of the `cmd` port is held while the ENCODER is busy (R92). -/
theorem exec_cmd_busy {i : Instr} {s : State} (hp : i.port = .cmd) (hb : s.encoder.busy = true) :
    exec i s = .next (s.hold .encoderBusy) := by
  cases i
  case beginRead => exact hostCommand_busy hb _
  case sendBit => exact hostCommand_busy hb _
  case sendByte => exact hostCommand_busy hb _
  case rdStatus => exact hostCommand_busy hb _
  case rdBuf => exact hostCommand_busy hb _
  all_goals cases hp

/-- The HOST does not go on after a held command (R92). -/
theorem afterCommand_hold (s : State) (r : Hold) : afterCommand (.next (s.hold r)) = .next (s.hold r) := rfl

end Sys2Proof.Machine

namespace Sys2Proof.Safety

open Sys2Proof.Machine

/-! ### Operations one after another -/

theorem execAll_cons {i : Instr} {is : List Instr} {s u : State} (h : exec i s = .next u) :
    execAll (i :: is) s = execAll is u := by
  simp [execAll, h]

theorem execAll_append {xs ys : List Instr} {s u : State} (h : execAll xs s = .next u) :
    execAll (xs ++ ys) s = execAll ys u := by
  induction xs generalizing s with
  | nil =>
    cases h
    rfl
  | cons x xs ih =>
    cases hx : exec x s with
    | next v =>
      rw [execAll_cons hx] at h
      rw [List.cons_append, execAll_cons hx, ih h]
    | fault r => simp [execAll, hx] at h
    | refused r => simp [execAll, hx] at h

/-! ### A transaction that stores its bytes in order -/

/-- In `u` a read of `len` bytes that began in `s` has stored the bytes `rs`, in the first cells and in order (R41). -/
structure Stored (s : State) (len : BitVec 8) (rs : List Byte) (u : State) : Prop where
  fits : len ≤ u.params.bufCap
  len : u.master.len = len
  cnt : u.master.cnt.toNat = rs.length
  cells : ∀ k, u.cell k = rs[k]?.getD (s.cell k)

/-- The read is in flight in `u`: each of the bytes `rs` was answered with ACK (R70). -/
structure Receiving (s : State) (addr : BitVec 7) (len : BitVec 8) (rs : List Byte) (u : State) : Prop where
  stored : Stored s len rs u
  busy : u.master.status = .busy
  bcTrace : u.traces.bc = s.traces.bc ++ [.startRead (addressByte addr)] ++ List.replicate rs.length .ack

/-- The read has ended in `t` with its last byte answered with NACK plus STOP (R70, R77). -/
structure Received (s : State) (addr : BitVec 7) (len : BitVec 8) (rs : List Byte) (t : State) : Prop where
  stored : Stored s len rs t
  ready : t.master.status = .ready
  idle : t.master.phase = .idle
  bcTrace : t.traces.bc =
    s.traces.bc ++ [.startRead (addressByte addr)] ++ List.replicate (rs.length - 1) .ack ++ [.nackStop]

section
variable {s u : State} {addr : BitVec 7} {len : BitVec 8} {rs : List Byte}

/-- A byte below the length goes to the next cell, and the counter does not wrap (R18, R41). -/
theorem Stored.takeByte (h : Stored s len rs u) (d : Byte) (hlt : rs.length < len.toNat) :
    Stored s len (rs ++ [d]) (takeByte d (impliedAck u)) where
  fits := by simpa [Machine.takeByte] using h.fits
  len := by simpa [Machine.takeByte] using h.len
  cnt := by
    have hcnt : (u.master.cnt + 1).toNat = rs.length + 1 := by
      have := h.cnt
      bv_omega
    simpa [Machine.takeByte] using hcnt
  cells := by
    intro k
    rw [takeByte_cell, impliedAck_cell, h.cells k, impliedAck_storeIndex, storeIndex, h.cnt]
    rcases Nat.lt_trichotomy k rs.length with hk | rfl | hk
    · simp [hk, hk.ne, List.getElem?_append_left]
    · simp
    · simp [List.getElem?_append_right hk.le, List.getElem?_eq_none hk.le, hk.ne', Nat.sub_ne_zero_of_lt hk]

/-- A byte of the transaction is always accepted: the length fits the buffer (R66, R70). -/
theorem Receiving.exec_byteRx (h : Receiving s addr len rs u) (d : Byte) (hlt : rs.length < len.toNat) :
    exec (.evByteRx d) u = .next (answerByte (takeByte d (impliedAck u))) := by
  have hroom : u.master.cnt < u.params.bufCap := by
    have := h.stored.cnt
    have := h.stored.fits
    bv_omega
  rw [exec, execEvByteRx, handlerEntry_busy h.busy, if_neg (BitVec.not_le.2 hroom)]

/-- A byte before the final one is answered with ACK, and the read goes on (R70). -/
theorem Receiving.byteRx_ack (h : Receiving s addr len rs u) (d : Byte) (hlt : rs.length + 1 < len.toNat) :
    ∃ v, exec (.evByteRx d) u = .next v ∧ Receiving s addr len (rs ++ [d]) v := by
  have hst := h.stored.takeByte d (by omega)
  refine ⟨_, h.exec_byteRx d (by omega), ?_⟩
  rcases answerByte_cases (takeByte d (impliedAck u)) with ⟨-, ha⟩ | ⟨hge, -⟩
  · rw [ha]
    refine ⟨⟨hst.fits, hst.len, hst.cnt, hst.cells⟩, by simp [takeByte, h.busy], ?_⟩
    simp [takeByte, h.bcTrace, List.replicate_succ']
  · have hcnt := hst.cnt
    rw [hst.len, BitVec.le_def, hcnt, List.length_append] at hge
    exact absurd hge (Nat.not_le.2 hlt)

/-- The final byte ends the read (R70, R77). -/
theorem Receiving.byteRx_final (h : Receiving s addr len rs u) (d : Byte) (heq : rs.length + 1 = len.toNat) :
    ∃ v, exec (.evByteRx d) u = .next v ∧ Received s addr len (rs ++ [d]) v := by
  have hst := h.stored.takeByte d (by omega)
  refine ⟨_, h.exec_byteRx d (by omega), ?_⟩
  rcases answerByte_cases (takeByte d (impliedAck u)) with ⟨hlt, -⟩ | ⟨-, ha⟩
  · have hcnt := hst.cnt
    rw [hst.len, BitVec.lt_def, hcnt, List.length_append] at hlt
    exact absurd hlt (Nat.not_lt.2 heq.ge)
  · rw [ha]
    refine ⟨⟨hst.fits, hst.len, hst.cnt, hst.cells⟩, rfl, rfl, ?_⟩
    simp [takeByte, h.bcTrace]

/-- Bytes that leave the read short of its length keep it in flight (R77). -/
theorem Receiving.bytes (h : Receiving s addr len rs u) (ds : List Byte) (hlt : rs.length + ds.length < len.toNat) :
    ∃ v, execAll (ds.map .evByteRx) u = .next v ∧ Receiving s addr len (rs ++ ds) v := by
  induction ds generalizing rs u with
  | nil => exact ⟨u, rfl, by simpa using h⟩
  | cons d ds ih =>
    rw [List.length_cons] at hlt
    obtain ⟨v, hv, hrv⟩ := h.byteRx_ack d (by omega)
    obtain ⟨w, hw, hrw⟩ := ih hrv (by rw [List.length_append, List.length_singleton]; omega)
    exact ⟨w, (execAll_cons hv).trans hw, by simpa using hrw⟩

/-- `BEGIN_READ`, with or without a separate acknowledge after it, opens the transaction with no byte stored (R66,
R69). -/
theorem receiving_begin (addr : BitVec 7) {acks : List Instr} (hb : s.encoder.busy = false)
    (hs : s.master.status ≠ .busy) (h0 : len ≠ 0) (hc : len ≤ s.params.bufCap)
    (ha : acks = [] ∨ acks = [.evAddrAck]) :
    ∃ u, execAll (.beginRead addr len :: acks) s = .next u ∧ Receiving s addr len [] u := by
  rw [execAll_cons (exec_beginRead_accepted addr hb hs h0 hc)]
  rcases ha with rfl | rfl <;> exact ⟨_, rfl, ⟨hc, rfl, rfl, fun _ => rfl⟩, rfl, by simp⟩

/-- A read stays in flight after its opening and fewer bytes than its length (R77). -/
theorem receiving_bytes (addr : BitVec 7) {acks : List Instr} (hb : s.encoder.busy = false)
    (hs : s.master.status ≠ .busy) (hc : len ≤ s.params.bufCap) (ha : acks = [] ∨ acks = [.evAddrAck])
    (hlt : rs.length < len.toNat) :
    ∃ u, execAll (.beginRead addr len :: (acks ++ rs.map .evByteRx)) s = .next u ∧ Receiving s addr len rs u := by
  have h0 : len ≠ 0 := by bv_omega
  obtain ⟨v, hv, hrv⟩ := receiving_begin addr hb hs h0 hc ha
  obtain ⟨u, hu, hru⟩ := hrv.bytes rs (by simpa using hlt)
  exact ⟨u, (execAll_append hv).trans hu, hru⟩

/-- A read whose bytes all arrive ends (R77). -/
theorem received_all (addr : BitVec 7) {acks : List Instr} {d : Byte} (hb : s.encoder.busy = false)
    (hs : s.master.status ≠ .busy) (hc : len ≤ s.params.bufCap) (ha : acks = [] ∨ acks = [.evAddrAck])
    (heq : rs.length + 1 = len.toNat) :
    ∃ t, execAll (.beginRead addr len :: (acks ++ (rs ++ [d]).map .evByteRx)) s = .next t ∧
      Received s addr len (rs ++ [d]) t := by
  obtain ⟨u, hu, hru⟩ := receiving_bytes addr hb hs hc ha (show rs.length < len.toNat by omega)
  obtain ⟨t, ht, hrt⟩ := hru.byteRx_final d heq
  refine ⟨t, ?_, hrt⟩
  have happ := execAll_append (ys := [.evByteRx d]) hu
  rw [execAll_cons ht, execAll] at happ
  simpa using happ

end

/-- A part of a read's opening is itself one. -/
theorem acks_take {acks : List Instr} (ha : acks = [] ∨ acks = [.evAddrAck]) (n : Nat) :
    acks.take n = [] ∨ acks.take n = [.evAddrAck] := by
  rcases ha with rfl | rfl
  · exact .inl List.take_nil
  · cases n with
    | zero => exact .inl rfl
    | succ n => exact .inr (by simp)

end Sys2Proof.Safety

namespace Sys2Proof.Proofs

open Sys2Proof.Machine Sys2Proof.Safety

/-! ### The statements of the receive buffer -/

/-- Settles O41: the turn's command is held, so the HOST stays at its item and offers the same word (R48, R92). -/
theorem heldCommandStaysOffered : Obligations.HeldCommandStaysOffered := by
  intro s w i ho hn hw hd hb
  have hstep : step s = .next ((beginTurn s).hold .encoderBusy) := by
    rw [(stepRunsTheDecodedOperation s ho).1 w i hn hw hd,
      exec_cmd_busy (s := beginTurn s) (Laws.decodeCmd_port hd) hb, afterCommand_hold]
  exact ⟨_, hstep, rfl, rfl, rfl, rfl, hw, rfl, rfl, rfl, rfl, rfl⟩

/-- Settles O43: of all that a step can do, the handler of `EV_BYTE_RX` alone writes the buffer. -/
theorem onlyTheHandlerWritesTheBuffer : Obligations.OnlyTheHandlerWritesTheBuffer := by
  intro s t a hn h hc
  have same : t.master = s.master → False := fun hm => hc (State.cell_of_master hm a)
  obtain ⟨-, h⟩ := step_cases h
  rcases h with ⟨-, -, rfl⟩ | ⟨_, i, u, -, -, -, hp, hx, ht⟩ | ⟨w, i, hw, hd, -, hx⟩ | ⟨-, rfl⟩ | ⟨-, rfl⟩ | ⟨-, rfl⟩ |
    ⟨hr, -⟩
  · exact (same (by simp)).elim
  · have hu : u.cell a = s.cell a := exec_cmd_cell hp hx a
    rcases ht with ⟨-, rfl⟩ | ⟨-, rfl⟩
    · exact absurd ((State.cell_of_master (by simp) a).trans hu) hc
    · exact absurd hu hc
  · obtain ⟨d, rfl, ha, hv⟩ := exec_cell_changed hx hc
    exact ⟨w, d, hw, hd, ha, hv⟩
  · exact (same rfl).elim
  · exact (same rfl).elim
  · exact (same (by simp)).elim
  · exact absurd hr hn

/-- Settles O54: the read is in flight until its last byte, which ends it with all bytes stored. -/
theorem successfulReadFillsTheBuffer : Obligations.SuccessfulReadFillsTheBuffer := by
  intro s addr ds acks hb hs hne hcap ha
  have hlen : (BitVec.ofNat 8 ds.length).toNat = ds.length := by
    have := s.params.bufCap.isLt
    rw [BitVec.toNat_ofNat]
    omega
  have hc : BitVec.ofNat 8 ds.length ≤ s.params.bufCap := by rwa [BitVec.le_def, hlen]
  have hpos : 0 < ds.length := List.length_pos_iff.2 hne
  constructor
  · have hsplit : ds.dropLast ++ [ds.getLast hne] = ds := List.dropLast_append_getLast hne
    obtain ⟨t, ht, hr⟩ := received_all (rs := ds.dropLast) (d := ds.getLast hne) addr hb hs hc ha
      (by rw [hlen, List.length_dropLast]; omega)
    rw [hsplit] at ht hr
    refine ⟨t, ht, hr.ready, hr.idle, hr.stored.cnt, ?_, ?_, hr.bcTrace⟩
    · intro k hk
      rw [hr.stored.cells, List.getElem?_eq_getElem hk, Option.getD_some]
    · intro k hk
      rw [hr.stored.cells, List.getElem?_eq_none hk, Option.getD_none]
  · intro n h1 hn
    obtain ⟨m, rfl⟩ := Nat.exists_eq_add_of_le' h1
    simp only [List.length_cons, List.length_append, List.length_map] at hn
    obtain ⟨t, ht, hr⟩ := receiving_bytes (rs := ds.take (m - acks.length)) addr hb hs hc (acks_take ha m)
      (by rw [hlen, List.length_take]; omega)
    exact ⟨t, by simpa [List.take_append, List.map_take] using ht, hr.busy⟩

/-- Settles O11: the read answers the cell and leaves the MASTER alone, so a second read drives the same response. -/
theorem neverWrittenCellReadsStable : Obligations.NeverWrittenCellReadsStable := by
  intro s idx hb hlt hnone
  exact ⟨_, exec_rdBuf_below hb hlt, congrArg some (State.cell_of_unwritten hnone), exec_rdBuf_below hb hlt⟩

/-- Settles O12: a read writes none of these. -/
theorem readsChangeNothing : Obligations.ReadsChangeNothing := by
  intro s t i hi h
  obtain ⟨_, _, _, rfl⟩ := exec_read_next hi h
  exact ⟨rfl, rfl, rfl, rfl, rfl, rfl, rfl, fun _ => rfl⟩

/-- Settles O20: the status, the phase and the bus command port are all that these events write. -/
theorem eventsThatStoreNothingKeepTheBuffer : Obligations.EventsThatStoreNothingKeepTheBuffer := by
  intro s t i hi h
  obtain ⟨_, _, _, _, rfl⟩ := exec_storeless_next hi h
  exact ⟨fun _ => rfl, rfl, rfl, rfl, rfl, rfl, rfl, rfl, rfl, rfl⟩

end Sys2Proof.Proofs
end

section
/-! PROOFS. The encoding family (30_encoding.md): words as numbers, decoding of an encoded operation and encoding of a
decoded word, the rows of the opcode table, the illegal words. -/

namespace Sys2Proof.Laws

/-! ### Words and their fields as numbers -/

/-- A command word is its three bytes, the opcode in the highest (R52). -/
theorem cmdWord_toNat (o a b : BitVec 8) :
    (cmdWord o a b).toNat = o.toNat * 2 ^ 16 + a.toNat * 2 ^ 8 + b.toNat := by
  simp only [cmdWord, BitVec.toNat_append]
  rw [← Nat.shiftLeft_add_eq_or_of_lt b.isLt, ← Nat.shiftLeft_add_eq_or_of_lt a.isLt]
  omega

/-- An event word is its kind and its data byte (R55). -/
theorem evtWord_toNat (kind : BitVec 3) (data : BitVec 8) :
    (evtWord kind data).toNat = kind.toNat * 2 ^ 8 + data.toNat := by
  simp only [evtWord, BitVec.toNat_append]
  rw [← Nat.shiftLeft_add_eq_or_of_lt data.isLt, ← Nat.shiftLeft_add_eq_or_of_lt kind.isLt]
  simp only [BitVec.toNat_ofNat]
  omega

theorem toNat_zero_append {m n : Nat} (v : BitVec n) : (0#m ++ v).toNat = v.toNat := by
  simp [BitVec.toNat_append]

theorem field_toNat {n : Nat} (w : BitVec n) (start len : Nat) :
    (w.extractLsb' start len).toNat = w.toNat / 2 ^ start % 2 ^ len := by
  rw [BitVec.extractLsb'_toNat, Nat.shiftRight_eq_div_pow]

theorem field_eq_iff {n len : Nat} (w : BitVec n) (start : Nat) (c : BitVec len) :
    w.extractLsb' start len = c ↔ w.toNat / 2 ^ start % 2 ^ len = c.toNat := by
  rw [← BitVec.toNat_inj, field_toNat]

theorem op_eq_iff (w : CmdWord) (c : BitVec 8) : CmdWord.op w = c ↔ w.toNat / 2 ^ 16 = c.toNat := by
  rw [CmdWord.op, field_eq_iff, Nat.mod_eq_of_lt (by bv_omega)]

theorem zero_eq_iff (w : EvtWord) : EvtWord.zero w = 0 ↔ w.toNat / 2 ^ 11 = 0 := by
  rw [EvtWord.zero, field_eq_iff, Nat.mod_eq_of_lt (by bv_omega), BitVec.ofNat_eq_ofNat, BitVec.toNat_zero]

theorem kind_eq_iff (w : EvtWord) (c : BitVec 3) : EvtWord.kind w = c ↔ w.toNat / 2 ^ 8 % 2 ^ 3 = c.toNat :=
  field_eq_iff w 8 c

/-- The must-be-zero check of a field passes exactly when the field is zero (R58). -/
theorem whenZero_field_instr {n len : Nat} {w : BitVec n} {start : Nat} {i j : Instr} :
    whenZero (w.extractLsb' start len) i = .instr j ↔ w.toNat / 2 ^ start % 2 ^ len = 0 ∧ i = j := by
  rw [whenZero_instr, field_eq_iff, BitVec.ofNat_eq_ofNat, BitVec.toNat_zero]

theorem whenZero_field_reserved {n len : Nat} {w : BitVec n} {start : Nat} {i : Instr} :
    whenZero (w.extractLsb' start len) i = .error .reservedEncoding ↔ w.toNat / 2 ^ start % 2 ^ len ≠ 0 := by
  rw [← BitVec.toNat_zero (w := len), ← BitVec.ofNat_eq_ofNat, ne_eq, ← field_eq_iff, whenZero]
  split <;> simp_all

/-! ### Decoding of an encoded operation -/

@[simp] theorem addressField_top (addr : BitVec 7) : (0#1 ++ addr).extractLsb' 7 1 = 0#1 := by
  rw [field_eq_iff, toNat_zero_append]
  bv_omega

@[simp] theorem addressField_low (addr : BitVec 7) : (0#1 ++ addr).extractLsb' 0 7 = addr := by
  rw [field_eq_iff, toNat_zero_append]
  bv_omega

@[simp] theorem bitWord_zero (o : BitVec 8) (v : BitVec 1) :
    (cmdWord o 0#8 (0#7 ++ v)).extractLsb' 1 15 = 0#15 := by
  rw [field_eq_iff, cmdWord_toNat, toNat_zero_append]
  bv_omega

@[simp] theorem bitWord_bit (o a : BitVec 8) (v : BitVec 1) : (cmdWord o a (0#7 ++ v)).extractLsb' 0 1 = v := by
  rw [field_eq_iff, cmdWord_toNat, toNat_zero_append]
  bv_omega

theorem decode_encode (i : Instr) : decode (encode i) = .instr i := by
  cases i with
  | beginRead addr len => simp [encode, decode, decodeCmd, whenZero]
  | sendBit v => simp [encode, decode, decodeCmd, whenZero]
  | sendByte byte => simp [encode, decode, decodeCmd, whenZero]
  | rdStatus => decide
  | rdBuf idx => simp [encode, decode, decodeCmd, whenZero]
  | evAddrAck => decide
  | evByteRx data => simp [encode, decode, decodeEvt]
  | evNack => decide
  | evArbLost => decide
  | evBusError => decide
  | evOvf => decide

theorem decode_of_encode_eq {i : Instr} {p : PortWord} (h : encode i = p) : decode p = .instr i :=
  h ▸ decode_encode i

/-! ### Encoding of a word's own fields

Every row of the table fixes a word from some bit up, so a word is a row's when its quotient by a power of 2 is the
row's; the operand fields below that bit then give the word back. -/

section
variable {w : CmdWord}

theorem encode_beginRead_fields (h : w.toNat / 2 ^ 15 = 0x02) :
    encode (.beginRead (w.extractLsb' 8 7) (CmdWord.b w)) = .cmd w := by
  refine congrArg PortWord.cmd (BitVec.eq_of_toNat_eq ?_)
  rw [cmdWord_toNat, toNat_zero_append, CmdWord.b, field_toNat, field_toNat]
  bv_omega

theorem encode_sendBit_field (h : w.toNat / 2 ^ 1 = 0x010000) : encode (.sendBit (w.extractLsb' 0 1)) = .cmd w := by
  refine congrArg PortWord.cmd (BitVec.eq_of_toNat_eq ?_)
  rw [cmdWord_toNat, toNat_zero_append, field_toNat]
  bv_omega

theorem encode_sendByte_field (h : w.toNat / 2 ^ 8 = 0x0300) : encode (.sendByte (CmdWord.b w)) = .cmd w := by
  refine congrArg PortWord.cmd (BitVec.eq_of_toNat_eq ?_)
  rw [cmdWord_toNat, CmdWord.b, field_toNat]
  bv_omega

theorem encode_rdStatus_fixed (h : w.toNat / 2 ^ 0 = 0x100000) : encode .rdStatus = .cmd w := by
  refine congrArg PortWord.cmd (BitVec.eq_of_toNat_eq ?_)
  rw [cmdWord_toNat]
  bv_omega

theorem encode_rdBuf_field (h : w.toNat / 2 ^ 8 = 0x1100) : encode (.rdBuf (CmdWord.b w)) = .cmd w := by
  refine congrArg PortWord.cmd (BitVec.eq_of_toNat_eq ?_)
  rw [cmdWord_toNat, CmdWord.b, field_toNat]
  bv_omega

end

theorem encode_evByteRx_field {w : EvtWord} (h : w.toNat / 2 ^ 8 = 0x01) :
    encode (.evByteRx (EvtWord.data w)) = .evt w := by
  refine congrArg PortWord.evt (BitVec.eq_of_toNat_eq ?_)
  rw [evtWord_toNat, EvtWord.data, field_toNat]
  bv_omega

/-- The word of an event without data, by its kind (R55). -/
theorem evtWord_fixed {w : EvtWord} {kind : BitVec 3} (h : w.toNat / 2 ^ 0 = kind.toNat * 2 ^ 8) :
    PortWord.evt (evtWord kind 0) = .evt w := by
  refine congrArg PortWord.evt (BitVec.eq_of_toNat_eq ?_)
  rw [evtWord_toNat]
  bv_omega

/-- A word is the word of the operation it decodes to (R59). -/
theorem encode_of_decodeCmd {w : CmdWord} {i : Instr} (h : decodeCmd w = .instr i) : encode i = .cmd w := by
  unfold decodeCmd at h
  simp only [op_eq_iff] at h
  split at h
  · obtain ⟨hz, rfl⟩ := whenZero_field_instr.1 h
    exact encode_beginRead_fields (by bv_omega)
  split at h
  · obtain ⟨hz, rfl⟩ := whenZero_field_instr.1 h
    exact encode_sendBit_field (by bv_omega)
  split at h
  · obtain ⟨hz, rfl⟩ := whenZero_field_instr.1 h
    exact encode_sendByte_field (by bv_omega)
  split at h
  · obtain ⟨hz, rfl⟩ := whenZero_field_instr.1 h
    exact encode_rdStatus_fixed (by bv_omega)
  split at h
  · obtain ⟨hz, rfl⟩ := whenZero_field_instr.1 h
    exact encode_rdBuf_field (by bv_omega)
  · cases h

theorem encode_of_decodeEvt {w : EvtWord} {i : Instr} (h : decodeEvt w = .instr i) : encode i = .evt w := by
  unfold decodeEvt at h
  simp only [ne_eq, zero_eq_iff, kind_eq_iff] at h
  split at h
  · cases h
  split at h
  · obtain ⟨hz, rfl⟩ := whenZero_field_instr.1 h
    exact evtWord_fixed (by bv_omega)
  split at h
  · cases h
    exact encode_evByteRx_field (by bv_omega)
  split at h
  · obtain ⟨hz, rfl⟩ := whenZero_field_instr.1 h
    exact evtWord_fixed (by bv_omega)
  split at h
  · obtain ⟨hz, rfl⟩ := whenZero_field_instr.1 h
    exact evtWord_fixed (by bv_omega)
  split at h
  · obtain ⟨hz, rfl⟩ := whenZero_field_instr.1 h
    exact evtWord_fixed (by bv_omega)
  · cases h

theorem encode_of_decode {p : PortWord} {i : Instr} (h : decode p = .instr i) : encode i = p := by
  cases p with
  | cmd w => exact encode_of_decodeCmd h
  | evt w => exact encode_of_decodeEvt h
  | tmr w =>
    rcases decodeTmr_cases w with ⟨rfl, hd⟩ | ⟨-, hd⟩
    · cases hd.symm.trans h
      rfl
    · cases hd.symm.trans h

/-- A word that decodes to no operation is the reserved encoding, but for the strobe 0 (R56, R58). -/
theorem decode_error {p : PortWord} {e : DecodeError} (h : decode p = .error e) :
    e = if p = .tmr 0 then .noOperation else .reservedEncoding := by
  cases p with
  | cmd w => exact decodeCmd_error h
  | evt w => exact decodeEvt_error h
  | tmr w =>
    rcases decodeTmr_cases w with ⟨-, hd⟩ | ⟨rfl, hd⟩
    · cases hd.symm.trans h
    · cases hd.symm.trans h
      rfl

/-! ### The rows of the opcode table -/

/-- A mask that covers a word from bit `k` up fixes the word's quotient by `2 ^ k`. -/
theorem quotient_of_and_eq {n : Nat} {w m p : BitVec n} (h : w &&& m = p) (k : Nat)
    (hm : m >>> k = BitVec.allOnes n >>> k) : w.toNat / 2 ^ k = p.toNat / 2 ^ k := by
  have hk : w >>> k = p >>> k := by
    rw [← h, BitVec.ushiftRight_and_distrib, hm, ← BitVec.ushiftRight_and_distrib, BitVec.and_allOnes]
  simpa only [BitVec.toNat_ushiftRight, Nat.shiftRight_eq_div_pow] using congrArg BitVec.toNat hk

theorem admits_iff (r : Row) (p : PortWord) : r.admits p = true ↔ p.port = r.port ∧ p.bits &&& r.mask = r.pattern := by
  simp [Row.admits]

/-- A word of a row of `cmd` whose mask covers the bits from `k` up. -/
theorem cmd_of_admits {r : Row} {p : PortWord} (h : r.admits p = true) (hp : r.port = .cmd) (k : Nat)
    (hm : r.mask >>> k = BitVec.allOnes 24 >>> k) :
    ∃ w, p = .cmd w ∧ w.toNat / 2 ^ k = r.pattern.toNat / 2 ^ k := by
  obtain ⟨hport, hbits⟩ := (admits_iff r p).1 h
  cases p with
  | cmd w => exact ⟨w, rfl, quotient_of_and_eq hbits k hm⟩
  | evt w => cases hport.trans hp
  | tmr w => cases hport.trans hp

/-- A word of a row of `evt` whose mask covers the bits from `k` up. -/
theorem evt_of_admits {r : Row} {p : PortWord} (h : r.admits p = true) (hp : r.port = .evt) (k : Nat)
    (hm : r.mask.setWidth 16 >>> k = BitVec.allOnes 16 >>> k) :
    ∃ w, p = .evt w ∧ w.toNat / 2 ^ k = (r.pattern.setWidth 16).toNat / 2 ^ k := by
  obtain ⟨hport, hbits⟩ := (admits_iff r p).1 h
  cases p with
  | cmd w => cases hport.trans hp
  | evt w =>
    refine ⟨w, rfl, quotient_of_and_eq ?_ k hm⟩
    rw [← hbits, BitVec.setWidth_and, PortWord.bits, BitVec.setWidth_setWidth_of_le _ (by decide), BitVec.setWidth_eq]
  | tmr w => cases hport.trans hp

theorem tmr_of_admits {r : Row} {p : PortWord} (h : r.admits p = true) (hp : r.port = .tmr) :
    ∃ w, p = .tmr w ∧ w.setWidth 24 &&& r.mask = r.pattern := by
  obtain ⟨hport, hbits⟩ := (admits_iff r p).1 h
  cases p with
  | cmd w => cases hport.trans hp
  | evt w => cases hport.trans hp
  | tmr w => exact ⟨w, rfl, hbits⟩

/-- A word of a row of the table is the word of an operation of that row (R53, R55, R56). -/
theorem encode_of_admits {r : Row} {p : PortWord} (hr : r ∈ opcodeTable) (h : r.admits p = true) :
    ∃ i, encode i = p ∧ i.row = r := by
  simp only [opcodeTable, List.mem_cons, List.not_mem_nil, or_false] at hr
  rcases hr with rfl | rfl | rfl | rfl | rfl | rfl | rfl | rfl | rfl | rfl | rfl
  · obtain ⟨w, rfl, hw⟩ := cmd_of_admits h rfl 15 (by decide)
    exact ⟨_, encode_beginRead_fields hw, rfl⟩
  · obtain ⟨w, rfl, hw⟩ := cmd_of_admits h rfl 1 (by decide)
    exact ⟨_, encode_sendBit_field hw, rfl⟩
  · obtain ⟨w, rfl, hw⟩ := cmd_of_admits h rfl 8 (by decide)
    exact ⟨_, encode_sendByte_field hw, rfl⟩
  · obtain ⟨w, rfl, hw⟩ := cmd_of_admits h rfl 0 (by decide)
    exact ⟨_, encode_rdStatus_fixed hw, rfl⟩
  · obtain ⟨w, rfl, hw⟩ := cmd_of_admits h rfl 8 (by decide)
    exact ⟨_, encode_rdBuf_field hw, rfl⟩
  · obtain ⟨w, rfl, hw⟩ := evt_of_admits h rfl 0 (by decide)
    exact ⟨.evAddrAck, evtWord_fixed hw, rfl⟩
  · obtain ⟨w, rfl, hw⟩ := evt_of_admits h rfl 8 (by decide)
    exact ⟨_, encode_evByteRx_field hw, rfl⟩
  · obtain ⟨w, rfl, hw⟩ := evt_of_admits h rfl 0 (by decide)
    exact ⟨.evNack, evtWord_fixed hw, rfl⟩
  · obtain ⟨w, rfl, hw⟩ := evt_of_admits h rfl 0 (by decide)
    exact ⟨.evArbLost, evtWord_fixed hw, rfl⟩
  · obtain ⟨w, rfl, hw⟩ := evt_of_admits h rfl 0 (by decide)
    exact ⟨.evBusError, evtWord_fixed hw, rfl⟩
  · obtain ⟨w, rfl, hw⟩ := tmr_of_admits h rfl
    rcases decodeTmr_cases w with ⟨rfl, -⟩ | ⟨rfl, -⟩
    · exact ⟨.evOvf, rfl, rfl⟩
    · exact absurd hw (by decide)

theorem admits_encode (i : Instr) : i.row.admits (encode i) = true := by
  cases i with
  | beginRead addr len => exact TableRow.beginRead addr len
  | sendBit v => exact TableRow.sendBit v
  | sendByte byte => exact TableRow.sendByte byte
  | rdStatus => exact TableRow.rdStatus
  | rdBuf idx => exact TableRow.rdBuf idx
  | evAddrAck => exact TableRow.evAddrAck
  | evByteRx data => exact TableRow.evByteRx data
  | evNack => exact TableRow.evNack
  | evArbLost => exact TableRow.evArbLost
  | evBusError => exact TableRow.evBusError
  | evOvf => exact TableRow.evOvf

theorem row_mem_opcodeTable (i : Instr) : i.row ∈ opcodeTable := by
  cases i <;> simp [opcodeTable, Instr.row]

/-! ### The illegal words -/

/-- The classes of R58 are the command words with no row's opcode and those with a must-be-zero bit set. -/
theorem illegalCmd_iff (w : CmdWord) : Safety.illegalCmd w = true ↔ decodeCmd w = .error .reservedEncoding := by
  simp only [Safety.illegalCmd, BitVec.getLsbD, Nat.testBit_eq_decide_div_mod_eq, Bool.or_eq_true, Bool.and_eq_true,
    bne_iff_ne, beq_iff_eq, decide_eq_true_eq]
  unfold decodeCmd
  simp only [op_eq_iff, CmdWord.a]
  split_ifs
  all_goals
    simp only [whenZero_field_reserved, iff_true]
    bv_omega

/-- The classes of R58 are the event words of a kind beyond 4 and those with a must-be-zero bit set. -/
theorem illegalEvt_iff (w : EvtWord) : Safety.illegalEvt w = true ↔ decodeEvt w = .error .reservedEncoding := by
  simp only [Safety.illegalEvt, Bool.or_eq_true, Bool.and_eq_true, bne_iff_ne, beq_iff_eq]
  unfold decodeEvt
  simp only [ne_eq, zero_eq_iff, kind_eq_iff, EvtWord.data]
  split_ifs
  all_goals
    simp only [whenZero_field_reserved, iff_true, iff_false]
    bv_omega

end Sys2Proof.Laws

namespace Sys2Proof.Machine

theorem levelBit_levelOfBit (b : Bool) : levelBit (levelOfBit b) = b := by
  cases b <;> rfl

/-- A HOST that offers a reserved word is refused, whatever the ENCODER does (R58; log entry 16). -/
theorem step_host_reserved {s : State} {w : CmdWord} (ho : s.outcome = .ok) (hn : nextTurn s = .host)
    (hw : offered s = some w) (hd : decodeCmd w = .error .reservedEncoding) :
    step s = .refused .reservedEncoding := by
  rw [step_ok ho, hn, takeTurn, hostTurn_of_offered (by simpa using hw), decode, hd, runDecoded, afterCommand]

theorem step_bus_reserved {s : State} {w : EvtWord} (ho : s.outcome = .ok) (hn : nextTurn s = .bus w)
    (hd : decodeEvt w = .error .reservedEncoding) : step s = .refused .reservedEncoding := by
  rw [step_ok ho, hn, takeTurn, busTurn, decode, hd, runDecoded]

end Sys2Proof.Machine

namespace Sys2Proof.Proofs

open Sys2Proof.Machine Sys2Proof.Safety

/-! ### The statements of the encoding -/

/-- Settles O1: the encoder's must-be-zero bits are zero, and each operand is back at its field. -/
theorem decodeOfEncodeIsTheOperation : Obligations.DecodeOfEncodeIsTheOperation :=
  Laws.decode_encode

/-- Settles O2: a row's words are the words of its operations, and decoding tells the operation, so the row, apart. -/
theorem decodingFollowsTheTables : Obligations.DecodingFollowsTheTables := by
  intro p
  have decodes : ∀ r ∈ opcodeTable, r.admits p = true → ∃ i, decode p = .instr i ∧ i.row = r := by
    intro r hr h
    obtain ⟨i, hi, hrow⟩ := Laws.encode_of_admits hr h
    exact ⟨i, Laws.decode_of_encode_eq hi, hrow⟩
  have admitted : ∀ i, decode p = .instr i → i.row.admits p = true := by
    intro i h
    have hi := Laws.admits_encode i
    rwa [Laws.encode_of_decode h] at hi
  refine ⟨fun i h => ⟨Laws.encode_of_decode h, Laws.row_mem_opcodeTable i, admitted i h⟩, decodes, ?_, ?_⟩
  · intro r hr q hq hrp hqp
    obtain ⟨i, hi, rfl⟩ := decodes r hr hrp
    obtain ⟨j, hj, rfl⟩ := decodes q hq hqp
    cases hi.symm.trans hj
    rfl
  · intro hnone
    cases hd : decode p with
    | instr i => exact absurd (admitted i hd) (by simp [hnone _ (Laws.row_mem_opcodeTable i)])
    | error e =>
      rw [Laws.decode_error hd]
      exact apply_ite _ _ _ _

/-- Settles O3: a turn decodes its word before anything else, so a word of R58's classes is refused in every state. -/
theorem illegalWordsAreRefused : Obligations.IllegalWordsAreRefused :=
  ⟨Laws.illegalCmd_iff, Laws.illegalEvt_iff,
    fun _ w ho hn hw hi => step_host_reserved ho hn hw ((Laws.illegalCmd_iff w).1 hi),
    fun _ w ho hn hi => step_bus_reserved ho hn ((Laws.illegalEvt_iff w).1 hi)⟩

/-- Settles O5: the address byte fills the data field below a kind of 0; the other three are their kinds. -/
theorem busCommandWords : Obligations.BusCommandWords :=
  ⟨Laws.toNat_zero_append, rfl, rfl, rfl⟩

/-- Settles O23: the level of a half-slot is the level of the bit that XOR gives. -/
theorem levelFunctionTable : Obligations.LevelFunctionTable :=
  ⟨fun _ _ => levelBit_levelOfBit _, rfl, rfl⟩

end Sys2Proof.Proofs
end

section
/-! PROOFS. A HOST turn of any script (42_supervisor.md R95 to R104): the word an item offers, what the HOST knows after
an accepted command, and where it then stands. -/

namespace Sys2Proof.Machine

/-! ### The item the HOST stands at -/

theorem offered_of_item {s : State} {item : ScriptItem} (h : s.host.script[s.host.pos]? = some item) :
    offered s = itemWord s.params s.host.phase s.host.known item := by
  simp [offered, h]

theorem offered_of_finished {s : State} (h : s.host.script[s.host.pos]? = none) : offered s = none := by
  simp [offered, h]

theorem hostSilent_of_item {s : State} {item : ScriptItem} (h : s.host.script[s.host.pos]? = some item) :
    hostSilent s = runSilent s item := by
  simp [hostSilent, h]

theorem hostSilent_of_finished {s : State} (h : s.host.script[s.host.pos]? = none) : hostSilent s = s := by
  simp [hostSilent, h]

theorem loopStart_of_idle {s : State} (h : s.host.phase = .idle) :
    loopStart s = s.setHost s.host.pos .requesting :=
  if_pos h

/-- The word of a command decodes to it (R59). -/
theorem decodeCmd_commandWord {i : Instr} {w : CmdWord} (h : commandWord i = some w) : decodeCmd w = .instr i := by
  unfold commandWord at h
  split at h
  next he =>
    cases h
    exact Laws.decode_of_encode_eq he
  all_goals cases h

/-! ### A HOST turn -/

theorem step_host_item {s : State} {item : ScriptItem} (ho : s.outcome = .ok) (hn : nextTurn s = .host)
    (h : s.host.script[s.host.pos]? = some item) (hw : itemWord s.params s.host.phase s.host.known item = none) :
    step s = .next (runSilent (beginTurn s) item) := by
  obtain ⟨-, hsilent, -⟩ := Proofs.stepRunsTheDecodedOperation s ho
  rw [hsilent hn ((offered_of_item h).trans hw), hostSilent_of_item (s := beginTurn s) h]

theorem afterCommand_accepted {s : State} (h : s.ports.held = none) :
    afterCommand (.next s) = .next (hostAdvance s) := by
  simp [afterCommand, h]

/-- After an accepted command the HOST knows the response first, if there was one (R95). -/
theorem hostAdvance_known (s : State) :
    (hostAdvance s).host.known = (s.ports.rsp.map BitVec.toNat).toList ++ s.host.known := by
  unfold hostAdvance
  split
  · rw [learnResponse_host]
  · split <;> rw [State.setHost_host, learnResponse_host]

/-- A read that was not held answers a byte (R67, R68). -/
theorem exec_read_response {i : Instr} {s t : State} (hi : i = .rdStatus ∨ ∃ idx, i = .rdBuf idx)
    (h : exec i s = .next t) (hh : t.ports.held = none) : ∃ x, t.ports.rsp = some x := by
  rcases hi with rfl | ⟨idx, rfl⟩
  · rcases execRdStatus_next h with ⟨-, rfl⟩ | ⟨-, rfl⟩
    · cases hh
    · exact ⟨_, rfl⟩
  · rcases execRdBuf_next h with ⟨-, rfl⟩ | ⟨-, -, rfl⟩ | ⟨-, -, rfl⟩
    · cases hh
    · exact ⟨_, rfl⟩
    · exact ⟨_, rfl⟩

/-- The last index of the inclusive drain is the one at the capacity (R103). -/
theorem drainLast_inclusive {p : Params} (h : p.drainInclusive = true) : drainLast p = p.bufCap.toNat := by
  simp [drainLast, h]

theorem drainLast_exclusive {p : Params} (h : p.drainInclusive = false) : drainLast p = p.readLen.toNat - 1 := by
  simp [drainLast, h]

theorem drainNext_send_below {p : Params} {i : BitVec 8} {rsp x : Byte} (h : i.toNat < drainLast p) :
    drainNext p rsp (.drainSend i x) = some (.drainRead (i + 1)) :=
  if_pos h

theorem drainNext_send_last {p : Params} {i : BitVec 8} {rsp x : Byte} (h : drainLast p ≤ i.toNat) :
    drainNext p rsp (.drainSend i x) = none :=
  if_neg (Nat.not_lt.2 h)

/-! ### An accepted command -/

/-- In `s` the HOST offered at this item the word `w` of the operation `i`, and the turn's operation was accepted with
the state `u`. -/
structure Accepted (s : State) (item : ScriptItem) (w : CmdWord) (i : Instr) (u : State) : Prop where
  current : s.host.script[s.host.pos]? = some item
  word : itemWord s.params s.host.phase s.host.known item = some w
  decodes : decodeCmd w = .instr i
  runs : exec i (beginTurn s) = .next u
  unheld : u.ports.held = none

section
variable {s u : State} {item : ScriptItem} {w : CmdWord} {i : Instr}

/-- The HOST stays in an item that goes on at a phase. -/
theorem Accepted.stays (h : Accepted s item w i u) {p : LoopPhase}
    (hp : itemNext s.params (u.ports.rsp.getD 0) s.host.phase item = some p) :
    Safety.Stands (hostAdvance u) s.host.pos p := by
  have hhost : u.host = s.host := (exec_next_host h.runs).trans (beginTurn_host s)
  have hparams : u.params = s.params := (exec_next_params h.runs).trans (beginTurn_params s)
  rw [← hhost]
  exact (hostAdvance_stands (by rw [hhost]; exact h.current)).1 p (by rw [hhost, hparams]; exact hp)

/-- The HOST goes on to the next item after one that is done. -/
theorem Accepted.leaves (h : Accepted s item w i u)
    (hp : itemNext s.params (u.ports.rsp.getD 0) s.host.phase item = none) :
    Safety.Stands (hostAdvance u) (s.host.pos + 1) .idle := by
  have hhost : u.host = s.host := (exec_next_host h.runs).trans (beginTurn_host s)
  have hparams : u.params = s.params := (exec_next_params h.runs).trans (beginTurn_params s)
  rw [← hhost]
  exact (hostAdvance_stands (by rw [hhost]; exact h.current)).2 (by rw [hhost, hparams]; exact hp)

/-- A read that an item offers as its command is answered when it is accepted. -/
theorem Accepted.response (h : Accepted s item w i u) {j : Instr} (hj : j = .rdStatus ∨ ∃ idx, j = .rdBuf idx)
    (hw : itemWord s.params s.host.phase s.host.known item = commandWord j) : ∃ x, u.ports.rsp = some x := by
  have hd : decodeCmd w = .instr j := decodeCmd_commandWord (hw.symm.trans h.word)
  cases h.decodes.symm.trans hd
  exact exec_read_response hj h.runs h.unheld

/-- `DRAIN` after the read of cell `k` (R103). -/
theorem Accepted.drainRead (h : Accepted s .drain w i u) (k : BitVec 8) (hop : drainOp s.host.phase = .rdBuf k)
    (hnext : ∀ x, drainNext s.params x s.host.phase = some (.drainSend k x)) :
    w = cmdWord 0x11 0 k ∧ ∃ x, u.ports.rsp = some x ∧ Safety.Stands (hostAdvance u) s.host.pos (.drainSend k x) := by
  have hw : itemWord s.params s.host.phase s.host.known .drain = commandWord (.rdBuf k) := congrArg commandWord hop
  obtain ⟨x, hx⟩ := h.response (.inr ⟨k, rfl⟩) hw
  refine ⟨(Option.some.inj (hw.symm.trans h.word)).symm, x, hx, h.stays ?_⟩
  rw [hx]
  exact hnext x

/-- `DRAIN` after the transmission of the byte of cell `k` (R103). -/
theorem Accepted.drainSend (h : Accepted s .drain w i u) {k : BitVec 8} {x : Byte}
    (hp : s.host.phase = .drainSend k x) :
    w = cmdWord 0x03 0 x ∧
      (k.toNat < drainLast s.params → Safety.Stands (hostAdvance u) s.host.pos (.drainRead (k + 1))) ∧
      (drainLast s.params ≤ k.toNat → Safety.Stands (hostAdvance u) (s.host.pos + 1) .idle) := by
  refine ⟨?_, fun hk => h.stays ?_, fun hk => h.leaves ?_⟩
  · have hw := h.word
    rw [hp] at hw
    exact (Option.some.inj hw).symm
  · rw [hp, itemNext, drainNext_send_below hk]
  · rw [hp, itemNext, drainNext_send_last hk]

theorem Accepted.drainGoesOn (h : Accepted s .drain w i u) :
    Safety.DrainGoesOn s w u.ports.rsp (hostAdvance u) s.host.phase := by
  cases hp : s.host.phase with
  | idle => exact h.drainRead 0 (by rw [hp]; rfl) (fun _ => by rw [hp]; rfl)
  | requesting => exact h.drainRead 0 (by rw [hp]; rfl) (fun _ => by rw [hp]; rfl)
  | waiting => exact h.drainRead 0 (by rw [hp]; rfl) (fun _ => by rw [hp]; rfl)
  | drainRead k => exact h.drainRead k (by rw [hp]; rfl) (fun _ => by rw [hp]; rfl)
  | drainSend k x =>
    obtain ⟨hw, hbelow, hlast⟩ := h.drainSend hp
    refine ⟨hw, fun hincl => ?_, fun hexcl => ?_⟩
    · rw [drainLast_inclusive hincl] at hbelow hlast
      exact ⟨hbelow, hlast⟩
    · rw [drainLast_exclusive hexcl] at hbelow hlast
      exact ⟨fun hk => hbelow (by omega), fun hk => hlast (by omega)⟩

/-- `WAIT_DONE` after its poll (R101). -/
theorem Accepted.waitDoneGoesOn (h : Accepted s .waitDone w i u) :
    ∃ st, u.ports.rsp = some st ∧ (st = 0x01 → Safety.Stands (hostAdvance u) s.host.pos .waiting) ∧
      (st ≠ 0x01 → Safety.Stands (hostAdvance u) (s.host.pos + 1) .idle) := by
  obtain ⟨st, hst⟩ := h.response (.inl rfl) rfl
  refine ⟨st, hst, fun hb => h.stays ?_, fun hb => h.leaves ?_⟩
  · simp [itemNext, stillBusy, hst, hb, Status.code]
  · have hne : stillBusy st = false := beq_false_of_ne hb
    simp [itemNext, hst, hne]

/-- Every item goes on as its rule says once its command was accepted (R95, R98). -/
theorem Accepted.hostGoesOn (h : Accepted s item w i u) : Safety.HostGoesOn s w u.ports.rsp (hostAdvance u) item := by
  cases item with
  | word v => exact ⟨(Option.some.inj h.word).symm, h.leaves rfl⟩
  | command op a b => exact ⟨(Option.some.inj h.word).symm, h.leaves rfl⟩
  | compute e => cases h.word
  | goTo e => cases h.word
  | request => exact ⟨(Option.some.inj h.word).symm, h.leaves rfl⟩
  | waitDone => exact ⟨(Option.some.inj h.word).symm, h.waitDoneGoesOn⟩
  | drain => exact h.drainGoesOn
  | superloop => exact ⟨h.word, h.stays rfl⟩

end

end Sys2Proof.Machine

namespace Sys2Proof.Proofs

open Sys2Proof.Machine Sys2Proof.Safety

/-! ### The statement of the HOST's turns -/

/-- Settles O58: what offers no word is done at once; an accepted command is learned from and goes on by its item. -/
theorem hostScriptSteps : Obligations.HostScriptSteps := by
  intro s ho hn
  obtain ⟨hcommand, hsilent, -⟩ := stepRunsTheDecodedOperation s ho
  refine ⟨?_, ?_, ?_, ?_, ?_, ?_⟩
  · intro h
    rw [hsilent hn (offered_of_finished h), hostSilent_of_finished (s := beginTurn s) h]
  · intro e h
    exact step_host_item ho hn h rfl
  · intro e h
    exact step_host_item ho hn h rfl
  · intro h hp
    rw [step_host_item ho hn h (by rw [hp]; rfl), runSilent, loopStart_of_idle (s := beginTurn s) hp]
    rfl
  · intro op a b i h hd
    have hw : offered s = some (computedWord s.host.known op a b) := offered_of_item h
    refine ⟨hcommand _ i hn hw hd, fun u hx hh => ⟨hostAdvance u, ?_, ?_⟩⟩
    · rw [hcommand _ i hn hw hd, hx, afterCommand_accepted hh]
    · exact (Accepted.mk h rfl hd hx hh).leaves rfl
  · intro w i u hw hd hx hh
    refine ⟨hostAdvance u, ?_, ?_, ?_⟩
    · rw [hcommand _ i hn hw hd, hx, afterCommand_accepted hh]
    · rw [hostAdvance_known, exec_next_host hx, beginTurn_host]
    · intro item h
      exact (Accepted.mk h ((offered_of_item h).symm.trans hw) hd hx hh).hostGoesOn

end Sys2Proof.Proofs
end

section
/-! PROOFS. A frame sent with one overflow per half-slot (41_manchester.md R79 to R87): turns as a relation on states
that composes, a half-slot, a bit, a whole frame, and the bytes sent as bits. -/

namespace Sys2Proof.Machine

/-! ### The micro-steps, one equation per case -/

@[simp] theorem nextHalfSlot_line (s : State) : (nextHalfSlot s).encoder.line = s.encoder.line := by
  rcases nextHalfSlot_cases s with ⟨-, h⟩ | ⟨-, -, h⟩ | ⟨-, -, h⟩ <;> simp [h]

section
variable {s : State}

theorem nextHalfSlot_first (h : s.encoder.half = false) : nextHalfSlot s = s.toHalfSlot s.encoder.bitIdx true :=
  if_pos h

theorem nextHalfSlot_bit (h : s.encoder.half = true) (hr : s.encoder.bitIdx.toNat + 1 < s.encoder.nbits.toNat) :
    nextHalfSlot s = s.toHalfSlot (s.encoder.bitIdx + 1) false := by
  simp [nextHalfSlot, h, hr]

theorem nextHalfSlot_last (h : s.encoder.half = true) (hr : s.encoder.nbits.toNat ≤ s.encoder.bitIdx.toNat + 1) :
    nextHalfSlot s = s.finishFrame := by
  simp [nextHalfSlot, h, hr]

theorem microStep_idle (h : s.encoder.step = .idle) : microStep s = s := by
  simp [microStep, h]

theorem microStep_clear (h : s.encoder.step = .clear) : microStep s = (s.setOvf false).setEStep .prog := by
  simp [microStep, microClear, h]

theorem microStep_prog (h : s.encoder.step = .prog) :
    microStep s = (s.programLevel (frameLevel s)).setEStep .wait := by
  simp [microStep, microProg, h]

theorem microStep_held (h : s.encoder.step = .wait) (ho : s.timer.ovf = false) :
    microStep s = s.hold .awaitOverflow := by
  simp [microStep, microWait, h, ho]

theorem microStep_release (h : s.encoder.step = .wait) (ho : s.timer.ovf = true) :
    microStep s = nextHalfSlot ((s.setOvf false).appendLine s.encoder.line) := by
  simp [microStep, microWait, h, ho]

end

end Sys2Proof.Machine

namespace Sys2Proof.Safety

open Sys2Proof.Machine

/-! ### Turns along a schedule -/

/-- The turns `ts` lead from `s` to `t`, whatever turns are still to come after them (R96). -/
def Turns (s : State) (ts : List Turn) (t : State) : Prop :=
  ∀ rest, Host.Core.run core ts.length (s.setSched (ts ++ rest)) = .next (t.setSched rest)

/-- A run of `m` and then `n` steps. -/
theorem coreRun_add {M : Host.Core} {s u : M.State} {m : Nat} (h : M.run m s = .next u) (n : Nat) :
    M.run (m + n) s = M.run n u := by
  induction m generalizing s with
  | zero =>
    cases h
    rw [Nat.zero_add]
  | succ m ih =>
    rw [Nat.add_right_comm, Host.Core.run]
    rw [Host.Core.run] at h
    split at h
    next => exact ih h
    next => cases h
    next => cases h

/-- Turns one after another. -/
theorem Turns.append {s u t : State} {ts us : List Turn} (h : Turns s ts u) (h' : Turns u us t) :
    Turns s (ts ++ us) t := by
  intro rest
  rw [List.append_assoc, List.length_append, coreRun_add (h (us ++ rest)), h']

theorem Turns.runSched {s t : State} {ts : List Turn} (h : Turns s ts t) : runSched ts s = .next (t.setSched []) := by
  have hrun := h []
  rwa [List.append_nil] at hrun

/-- A turn that answers a next state whatever turns follow it. -/
theorem Turns.single {s t : State} {x : Turn} (h : ∀ rest, step (s.setSched (x :: rest)) = .next (t.setSched rest)) :
    Turns s [x] t := by
  intro rest
  have hstep : core.step (s.setSched (x :: rest)) = .next (t.setSched rest) := h rest
  simp [Host.Core.run, hstep]

/-- The end of a half-slot does not look at the turns to come. -/
theorem nextHalfSlot_setSched (s : State) (ts : List Turn) :
    nextHalfSlot (s.setSched ts) = (nextHalfSlot s).setSched ts := by
  rcases nextHalfSlot_cases s with ⟨hh, h⟩ | ⟨hh, hr, h⟩ | ⟨hh, hr, h⟩ <;> rw [h]
  · exact nextHalfSlot_first (s := s.setSched ts) hh
  · exact nextHalfSlot_bit (s := s.setSched ts) hh hr
  · exact nextHalfSlot_last (s := s.setSched ts) hh hr

/-- A micro-step does not look at the turns to come. -/
theorem microStep_setSched (s : State) (ts : List Turn) : microStep (s.setSched ts) = (microStep s).setSched ts := by
  rcases microStep_cases s with ⟨hs, h⟩ | ⟨hs, h⟩ | ⟨hs, h⟩ | ⟨hs, hf, h⟩ | ⟨hs, hf, h⟩ <;> rw [h]
  · exact microStep_idle (s := s.setSched ts) hs
  · exact microStep_clear (s := s.setSched ts) hs
  · exact microStep_prog (s := s.setSched ts) hs
  · exact microStep_held (s := s.setSched ts) hs hf
  · exact (microStep_release (s := s.setSched ts) hs hf).trans
      (nextHalfSlot_setSched ((s.setOvf false).appendLine s.encoder.line) ts)

theorem Turns.encoder {s : State} (ho : s.outcome = .ok) : Turns s [.encoder] (microStep s.clearPorts) :=
  .single fun rest => (step_ok (s := s.setSched (.encoder :: rest)) ho).trans
    (congrArg Host.Outcome.next (microStep_setSched s.clearPorts rest))

theorem Turns.clear {s : State} (ho : s.outcome = .ok) (hs : s.encoder.step = .clear) :
    Turns s [.encoder] ((s.clearPorts.setOvf false).setEStep .prog) :=
  microStep_clear (s := s.clearPorts) hs ▸ Turns.encoder ho

theorem Turns.prog {s : State} (ho : s.outcome = .ok) (hs : s.encoder.step = .prog) :
    Turns s [.encoder] ((s.clearPorts.programLevel (frameLevel s)).setEStep .wait) :=
  microStep_prog (s := s.clearPorts) hs ▸ Turns.encoder ho

theorem Turns.release {s : State} (ho : s.outcome = .ok) (hs : s.encoder.step = .wait) (hf : s.timer.ovf = true) :
    Turns s [.encoder] (nextHalfSlot ((s.clearPorts.setOvf false).appendLine s.encoder.line)) :=
  microStep_release (s := s.clearPorts) hs hf ▸ Turns.encoder ho

theorem Turns.overflow {s : State} (ho : s.outcome = .ok) : Turns s [.timer 1] (s.clearPorts.setOvf true) :=
  .single fun rest => step_ok (s := s.setSched (.timer 1 :: rest)) ho

/-! ### A half-slot -/

/-- From `s` to `t` the ENCODER has sent the levels `ls`; the last half-slot's level `l` is on the line, its compare value
in the timer and its overflow used up (R85, R86); the MASTER and `BC_TRACE` are as they were. -/
structure Sent (ls : List Level) (l : Level) (s t : State) : Prop where
  outcome : t.outcome = .ok
  lineTrace : t.traces.line = s.traces.line ++ ls
  bcTrace : t.traces.bc = s.traces.bc
  master : t.master = s.master
  line : t.encoder.line = l
  timer : t.timer = ⟨false, Config.edgeOffset l⟩

theorem Sent.trans {s t u : State} {ls ms : List Level} {l m : Level} (h : Sent ls l s t) (h' : Sent ms m t u) :
    Sent (ls ++ ms) m s u where
  outcome := h'.outcome
  lineTrace := by rw [h'.lineTrace, h.lineTrace, List.append_assoc]
  bcTrace := h'.bcTrace.trans h.bcTrace
  master := h'.master.trans h.master
  line := h'.line
  timer := h'.timer

theorem Sent.nextHalfSlot {s t : State} {ls : List Level} {l : Level} (h : Sent ls l s t) :
    Sent ls l s (nextHalfSlot t) where
  outcome := by simp [h.outcome]
  lineTrace := by simp [h.lineTrace]
  bcTrace := by simp [h.bcTrace]
  master := by simp [h.master]
  line := by simp [h.line]
  timer := by simp [h.timer]

/-- A half-slot with its overflow sends its level: `S_CLEAR`, `S_PROG`, the overflow, the release (R84 to R87). -/
theorem turns_halfSlot {s : State} (ho : s.outcome = .ok) (hs : s.encoder.step = .clear) :
    ∃ u, Turns s halfSlotTurns (nextHalfSlot u) ∧ Sent [frameLevel s] (frameLevel s) s u ∧
      u.encoder = { s.encoder with line := frameLevel s, step := .wait } := by
  have programmed := (Turns.clear ho hs).append (.prog ho rfl)
  have overflowed := programmed.append (.overflow ho)
  refine ⟨_, overflowed.append (.release ho rfl rfl), ?_, ?_⟩
  · constructor <;> simp [ho, frameLevel, frameBit]
  · simp [frameLevel, frameBit]

/-! ### The half-slots of a frame -/

/-- In `s` the half-slot `half` of bit `k` of the frame of `n` bits of `d` is starting (R83). -/
structure Starting (d : Byte) (n : BitVec 4) (k : Nat) (half : Bool) (s : State) : Prop where
  outcome : s.outcome = .ok
  step : s.encoder.step = .clear
  data : s.encoder.data = d
  nbits : s.encoder.nbits = n
  bitIdx : s.encoder.bitIdx.toNat = k
  half : s.encoder.half = half

/-- The command is complete and the sequence is idle again (R86, R94). -/
structure FrameEnded (s : State) : Prop where
  busy : s.encoder.busy = false
  step : s.encoder.step = .idle
  bitIdx : s.encoder.bitIdx = 0
  half : s.encoder.half = false

section
variable {d : Byte} {n : BitVec 4} {k : Nat} {s : State}

theorem Starting.frameLevel {half : Bool} (h : Starting d n k half s) :
    frameLevel s = level (d.getLsbD k) half := by
  rw [Machine.frameLevel, frameBit, h.data, h.bitIdx, h.half]

/-- A half-slot sends its level, and the sequence goes on from its place in the frame. -/
theorem Starting.turns {half : Bool} (h : Starting d n k half s) :
    ∃ u, Turns s halfSlotTurns (nextHalfSlot u) ∧
      Sent [level (d.getLsbD k) half] (level (d.getLsbD k) half) s (nextHalfSlot u) ∧
      u.outcome = .ok ∧ u.encoder.data = d ∧ u.encoder.nbits = n ∧ u.encoder.bitIdx.toNat = k ∧
      u.encoder.half = half := by
  obtain ⟨u, hturns, hsent, he⟩ := turns_halfSlot h.outcome h.step
  rw [h.frameLevel] at hsent
  refine ⟨u, hturns, hsent.nextHalfSlot, hsent.outcome, ?_⟩
  rw [he]
  exact ⟨h.data, h.nbits, h.bitIdx, h.half⟩

/-- After its first half-slot the bit's second one starts (R86). -/
theorem Starting.firstHalf (h : Starting d n k false s) :
    ∃ t, Turns s halfSlotTurns t ∧ Sent [level (d.getLsbD k) false] (level (d.getLsbD k) false) s t ∧
      Starting d n k true t := by
  obtain ⟨u, hturns, hsent, ho, hd, hn, hk, hh⟩ := h.turns
  rw [nextHalfSlot_first hh] at hturns hsent
  exact ⟨_, hturns, hsent, ho, rfl, hd, hn, hk, rfl⟩

/-- After a bit that is not the last the next one starts; a frame has at most eight bits, so the index does not wrap
(R86). -/
theorem Starting.secondHalf_next (h : Starting d n k true s) (hlt : k + 1 < n.toNat) (hn8 : n.toNat ≤ 8) :
    ∃ t, Turns s halfSlotTurns t ∧ Sent [level (d.getLsbD k) true] (level (d.getLsbD k) true) s t ∧
      Starting d n (k + 1) false t := by
  obtain ⟨u, hturns, hsent, ho, hd, hn, hk, hh⟩ := h.turns
  rw [nextHalfSlot_bit hh (by rwa [hk, hn])] at hturns hsent
  have hidx : (u.encoder.bitIdx + 1).toNat = k + 1 := by bv_omega
  exact ⟨_, hturns, hsent, ho, rfl, hd, hn, hidx, rfl⟩

/-- After its last bit the frame has ended (R86, R94). -/
theorem Starting.secondHalf_last (h : Starting d n k true s) (hle : n.toNat ≤ k + 1) :
    ∃ t, Turns s halfSlotTurns t ∧ Sent [level (d.getLsbD k) true] (level (d.getLsbD k) true) s t ∧ FrameEnded t := by
  obtain ⟨u, hturns, hsent, -, -, hn, hk, hh⟩ := h.turns
  rw [nextHalfSlot_last hh (by rwa [hk, hn])] at hturns hsent
  exact ⟨_, hturns, hsent, rfl, rfl, rfl, rfl⟩

/-! ### A whole frame -/

/-- The bits of a frame from bit `k` to its last one (R79 to R81). -/
theorem Starting.bits (hn8 : n.toNat ≤ 8) (m : Nat) (h : Starting d n k false s) (hm : k + m + 1 = n.toNat) :
    ∃ t, Turns s (frameTurns (m + 1)) t ∧
      Sent ((List.range' k (m + 1)).flatMap fun j => symbol (d.getLsbD j)) (level (d.getLsbD (k + m)) true) s t ∧
      FrameEnded t := by
  induction m generalizing k s with
  | zero =>
    obtain ⟨u, hu, hsu, hstart⟩ := h.firstHalf
    obtain ⟨t, ht, hst, hend⟩ := hstart.secondHalf_last (by omega)
    exact ⟨t, hu.append ht, hsu.trans hst, hend⟩
  | succ m ih =>
    obtain ⟨u, hu, hsu, hsecond⟩ := h.firstHalf
    obtain ⟨v, hv, hsv, hnext⟩ := hsecond.secondHalf_next (by omega) hn8
    obtain ⟨t, ht, hst, hend⟩ := ih hnext (by omega)
    refine ⟨t, hu.append (hv.append ht), ?_, hend⟩
    have hsent := (hsu.trans hsv).trans hst
    rwa [Nat.add_right_comm k 1 m] at hsent

end

/-- A command that loads the frame of `n` bits of `d` sends it to its end (R79, R80, R87, R94). -/
theorem execThen_loadFrame {i : Instr} {d : Byte} {n : BitVec 4} {m : Nat} {s : State} (ho : s.outcome = .ok)
    (hx : exec i s = .next (s.loadFrame d n)) (hm : m + 1 = n.toNat) (hn8 : n.toNat ≤ 8) :
    ∃ t, execThen i (frameTurns (m + 1)) s = .next t ∧
      Sent (frameLevels d (m + 1)) (level (d.getLsbD m) true) s t ∧ FrameEnded t := by
  have hstart : Starting d n 0 false (s.loadFrame d n) := ⟨ho, rfl, rfl, rfl, rfl, rfl⟩
  obtain ⟨t, hturns, hsent, hend⟩ := hstart.bits hn8 m (by omega)
  rw [← List.range_eq_range', Nat.zero_add] at hsent
  refine ⟨t.setSched [], ?_, ⟨hsent.outcome, hsent.lineTrace, hsent.bcTrace, hsent.master, hsent.line, hsent.timer⟩,
    ⟨hend.busy, hend.step, hend.bitIdx, hend.half⟩⟩
  rw [execThen, hx]
  exact hturns.runSched

theorem execThen_sendByte {s : State} (b : Byte) (ho : s.outcome = .ok) (hb : s.encoder.busy = false) :
    ∃ t, execThen (.sendByte b) (frameTurns 8) s = .next t ∧
      Sent (frameLevels b 8) (level (b.getLsbD 7) true) s t ∧ FrameEnded t :=
  execThen_loadFrame ho (hostCommand_idle hb _) rfl (by decide)

theorem bitFrame_getLsbD_zero (v : BitVec 1) : (bitFrame v).getLsbD 0 = v.getLsbD 0 := by
  simp [bitFrame]

theorem execThen_sendBit {s : State} (v : BitVec 1) (ho : s.outcome = .ok) (hb : s.encoder.busy = false) :
    ∃ t, execThen (.sendBit v) (frameTurns 1) s = .next t ∧
      Sent (symbol (v.getLsbD 0)) (level (v.getLsbD 0) true) s t ∧ FrameEnded t := by
  rw [← bitFrame_getLsbD_zero v]
  exact execThen_loadFrame ho (hostCommand_idle hb _) rfl (by decide)

/-- A bit of a byte sent as a `SEND_BIT` of its own (R81). -/
theorem execThen_sendBit_ofBool {s : State} (x : Bool) (ho : s.outcome = .ok) (hb : s.encoder.busy = false) :
    ∃ t, execThen (.sendBit (BitVec.ofBool x)) (frameTurns 1) s = .next t ∧
      Sent (symbol x) (level x true) s t ∧ FrameEnded t := by
  have hx : (BitVec.ofBool x).getLsbD 0 = x := by simp
  simpa only [hx] using execThen_sendBit (BitVec.ofBool x) ho hb

/-- The bits of a byte sent one after another, bit `k` last, each brought to its end (R63, R81). -/
theorem sendBits_sent (b : Byte) (ks : List Nat) (k : Nat) {s : State} (ho : s.outcome = .ok)
    (hb : s.encoder.busy = false) :
    ∃ u, sendBits b (ks ++ [k]) s = .next u ∧
      Sent ((ks ++ [k]).flatMap fun j => symbol (b.getLsbD j)) (level (b.getLsbD k) true) s u := by
  induction ks generalizing s with
  | nil =>
    obtain ⟨t, ht, hs, -⟩ := execThen_sendBit_ofBool (b.getLsbD k) ho hb
    refine ⟨t, ?_, hs⟩
    rw [List.nil_append, sendBits, ht]
    rfl
  | cons j ks ih =>
    obtain ⟨t, ht, hs, hend⟩ := execThen_sendBit_ofBool (b.getLsbD j) ho hb
    obtain ⟨u, hu, hsu⟩ := ih hs.outcome hend.busy
    refine ⟨u, ?_, hs.trans hsu⟩
    rw [List.cons_append, sendBits, ht]
    exact hu

end Sys2Proof.Safety

namespace Sys2Proof.Proofs

open Sys2Proof.Machine Sys2Proof.Safety

/-- Settles O36: both send the symbols of the byte's bits in order, and both end with bit 7's second half-slot. -/
theorem sendByteEqualsEightSendBits : Obligations.SendByteEqualsEightSendBits := by
  intro s b ho hb
  obtain ⟨t, ht, hst, -⟩ := execThen_sendByte b ho hb
  obtain ⟨u, hu, hsu⟩ := sendBits_sent b [0, 1, 2, 3, 4, 5, 6] 7 ho hb
  exact ⟨t, u, ht, hu, hst.lineTrace.trans hsu.lineTrace.symm, hst.line.trans hsu.line.symm,
    hst.timer.trans hsu.timer.symm⟩

end Sys2Proof.Proofs
end

section
/-! PROOFS. The MASTER's operations (40_bus_master.md): what each host command answers while the ENCODER is idle, what
each bus event answers with a transaction in flight and without one, and the events the BUS agent's contract allows. -/

namespace Sys2Proof.Machine

/-! ### Host commands while the ENCODER is idle -/

section
variable {s : State}

theorem exec_beginRead_inFlight (addr : BitVec 7) (len : BitVec 8) (hb : s.encoder.busy = false)
    (hs : s.master.status = .busy) : exec (.beginRead addr len) s = .fault .beginWhileBusy := by
  rw [exec, execBeginRead, hostCommand_idle hb, if_pos hs]

theorem exec_beginRead_zero (addr : BitVec 7) (hb : s.encoder.busy = false) (hs : s.master.status ≠ .busy) :
    exec (.beginRead addr 0) s = .refused .zeroLength := by
  rw [exec, execBeginRead, hostCommand_idle hb, if_neg hs, if_pos rfl]

theorem exec_beginRead_tooLong (addr : BitVec 7) {len : BitVec 8} (hb : s.encoder.busy = false)
    (hs : s.master.status ≠ .busy) (h0 : len ≠ 0) (hc : s.params.bufCap < len) :
    exec (.beginRead addr len) s = .fault .lengthExceedsCapacity := by
  rw [exec, execBeginRead, hostCommand_idle hb, if_neg hs, if_neg h0, if_pos hc]

theorem exec_rdStatus_idle (hb : s.encoder.busy = false) :
    exec .rdStatus s = .next (s.respond s.master.status.code) :=
  hostCommand_idle hb _

/-- `RD_BUF` at or beyond the capacity answers a fresh free byte (R39, R68). -/
theorem exec_rdBuf_beyond {idx : BitVec 8} (hb : s.encoder.busy = false) (hge : s.params.bufCap ≤ idx) :
    exec (.rdBuf idx) s = .next (s.bumpFree.respond (Config.freeByte s.freeCtr)) := by
  rw [exec, execRdBuf, hostCommand_idle hb, if_neg (BitVec.not_lt.2 hge)]

/-! ### Bus events -/

/-- With no transaction in flight the handler's entry stops every bus event (R74). -/
theorem exec_evt_notInFlight {i : Instr} (hp : i.port = .evt) (hs : s.master.status ≠ .busy) :
    exec i s = .fault .spuriousEvent := by
  cases i
  case evAddrAck => exact handlerEntry_idle hs _
  case evByteRx => exact handlerEntry_idle hs _
  case evNack => exact handlerEntry_idle hs _
  case evArbLost => exact handlerEntry_idle hs _
  case evBusError => exact handlerEntry_idle hs _
  all_goals cases hp

theorem exec_evAddrAck_addr (hb : s.master.status = .busy) (hp : s.master.phase = .addr) :
    exec .evAddrAck s = .next (s.setPhase .data) := by
  rw [exec, execEvAddrAck, handlerEntry_busy hb, if_pos hp]

theorem exec_evAddrAck_notAddr (hb : s.master.status = .busy) (hp : s.master.phase ≠ .addr) :
    exec .evAddrAck s = .fault .spuriousEvent := by
  rw [exec, execEvAddrAck, handlerEntry_busy hb, if_neg hp]

theorem exec_evByteRx_full (data : Byte) (hb : s.master.status = .busy) (hfull : s.params.bufCap ≤ s.master.cnt) :
    exec (.evByteRx data) s = .fault .bufferOverrun := by
  rw [exec, execEvByteRx, handlerEntry_busy hb, if_pos hfull]

theorem exec_evByteRx_room (data : Byte) (hb : s.master.status = .busy) (hroom : s.master.cnt < s.params.bufCap) :
    exec (.evByteRx data) s = .next (answerByte (takeByte data (impliedAck s))) := by
  rw [exec, execEvByteRx, handlerEntry_busy hb, if_neg (BitVec.not_le.2 hroom)]

theorem exec_evNack_inFlight (hb : s.master.status = .busy) :
    exec .evNack s = .next (endTransaction .errNack (s.emit .stop)) :=
  handlerEntry_busy hb _

theorem exec_evArbLost_inFlight (hb : s.master.status = .busy) :
    exec .evArbLost s = .next (endTransaction .errArbLost s) :=
  handlerEntry_busy hb _

theorem exec_evBusError_inFlight (hb : s.master.status = .busy) :
    exec .evBusError s = .next (endTransaction .errBusError s) :=
  handlerEntry_busy hb _

end

/-- The implied acknowledge is a write of the phase, if only of the phase's own value (R70). -/
theorem impliedAck_eq_setPhase (s : State) :
    impliedAck s = s.setPhase (if s.master.phase = .addr then .data else s.master.phase) := by
  rcases impliedAck_cases s with ⟨hp, h⟩ | ⟨hp, h⟩
  · rw [h, if_pos hp]
  · rw [h, if_neg hp]
    rfl

end Sys2Proof.Machine

namespace Sys2Proof.Safety

open Sys2Proof.Machine

/-! ### The events the contract allows -/

/-- The contract allows an event only in a phase of a transaction in flight (R76). -/
theorem phase_of_busMay {s : State} {i : Instr} (h : busMay s i = true) :
    s.master.phase = .addr ∨ s.master.phase = .data := by
  cases i
  case evAddrAck => exact .inl (by simpa [busMay] using h)
  case evNack => exact .inl (by simpa [busMay] using h)
  case evByteRx => simpa [busMay] using h
  case evArbLost => simpa [busMay] using h
  case evBusError => simpa [busMay] using h
  all_goals cases h

/-- In flight there is room for the next byte: the counter is below a length that fits the buffer (R21, R66). -/
theorem MasterInv.cnt_lt_bufCap {s : State} (hi : MasterInv s) (hb : s.master.status = .busy) :
    s.master.cnt < s.params.bufCap := by
  have hlen := hi.cnt_lt_len hb
  have hfits := (hi.lenRange hb).2
  bv_omega

end Sys2Proof.Safety

namespace Sys2Proof.Proofs

open Sys2Proof.Machine Sys2Proof.Safety

/-! ### The statements of the MASTER -/

/-- Settles O22: an allowed event finds a transaction in flight, an acknowledge its phase, and a byte room for it. -/
theorem contractEventsAreHandled : Obligations.ContractEventsAreHandled := by
  intro s i hi h
  have hb : s.master.status = .busy := hi.master.flight.2 (phase_of_busMay h)
  cases i
  case evAddrAck =>
    have hp : s.master.phase = .addr := by simpa [busMay] using h
    exact ⟨_, exec_evAddrAck_addr hb hp⟩
  case evByteRx data => exact ⟨_, exec_evByteRx_room data hb (hi.master.cnt_lt_bufCap hb)⟩
  case evNack => exact ⟨_, exec_evNack_inFlight hb⟩
  case evArbLost => exact ⟨_, exec_evArbLost_inFlight hb⟩
  case evBusError => exact ⟨_, exec_evBusError_inFlight hb⟩
  all_goals cases h

/-- Settles O8: each clause is the first test of the rule that succeeds, or the acceptance when none does. -/
theorem beginReadRule : Obligations.BeginReadRule := by
  intro s addr len
  refine ⟨exec_cmd_busy rfl, exec_beginRead_inFlight addr len, ?_, exec_beginRead_tooLong addr,
    exec_beginRead_accepted addr⟩
  rintro hb hs rfl
  exact exec_beginRead_zero addr hb hs

/-- Settles O9: the listed codes are the codes of R15's table. -/
theorem readStatusRule : Obligations.ReadStatusRule := by
  intro s
  refine ⟨exec_cmd_busy rfl, ?_⟩
  intro hb st code hmem hst
  have hcode : code = s.master.status.code := by
    simp only [List.mem_cons, Prod.mk.injEq, List.not_mem_nil, or_false] at hmem
    rcases hmem with ⟨rfl, rfl⟩ | ⟨rfl, rfl⟩ | ⟨rfl, rfl⟩ | ⟨rfl, rfl⟩ | ⟨rfl, rfl⟩ <;> rw [hst] <;> rfl
  rw [hcode]
  exact exec_rdStatus_idle hb

/-- Settles O10: the capacity alone decides between the cell and a free byte. -/
theorem readBufferRule : Obligations.ReadBufferRule :=
  fun _ _ => ⟨exec_cmd_busy rfl, exec_rdBuf_below, exec_rdBuf_beyond⟩

/-- Settles O14: past the handler's entry the phase decides. -/
theorem addressAckRule : Obligations.AddressAckRule :=
  fun _ hb => ⟨exec_evAddrAck_addr hb, exec_evAddrAck_notAddr hb⟩

/-- Settles O15: the byte is stored and counted in either case, and the advanced counter against the length decides the
answer. -/
theorem byteReceivedRule : Obligations.ByteReceivedRule := by
  intro s data hb
  refine ⟨exec_evByteRx_full data hb, fun hroom => ?_⟩
  have hexec := exec_evByteRx_room data hb hroom
  refine ⟨_, hexec, execEvByteRx_cell hexec, ?_⟩
  rw [impliedAck_eq_setPhase]
  rcases answerByte_cases (takeByte data (s.setPhase (if s.master.phase = .addr then .data else s.master.phase))) with
    ⟨hlt, ht⟩ | ⟨hge, ht⟩ <;> rw [ht]
  · exact ⟨rfl, rfl, rfl, rfl, rfl, rfl, rfl, rfl, rfl, rfl, fun _ => ⟨hb, rfl, rfl, rfl⟩,
      fun hle => absurd hle (BitVec.not_le.2 hlt)⟩
  · exact ⟨rfl, rfl, rfl, rfl, rfl, rfl, rfl, rfl, rfl, rfl, fun hlt => absurd hlt (BitVec.not_lt.2 hge),
      fun _ => ⟨rfl, rfl, rfl, rfl⟩⟩

/-- Settles O16: the stop command, then the end of the transaction. -/
theorem nackRule : Obligations.NackRule :=
  fun _ hb => exec_evNack_inFlight hb

/-- Settles O17: the end of the transaction alone. -/
theorem arbitrationLostRule : Obligations.ArbitrationLostRule :=
  fun _ hb => exec_evArbLost_inFlight hb

/-- Settles O18: the end of the transaction alone. -/
theorem busErrorRule : Obligations.BusErrorRule :=
  fun _ hb => exec_evBusError_inFlight hb

/-- Settles O19: the handler's entry stops the event, whichever it is. -/
theorem spuriousEventRule : Obligations.SpuriousEventRule :=
  fun _ _ => exec_evt_notInFlight

end Sys2Proof.Proofs
end

section
/-! PROOFS. The Manchester family (41_manchester.md): symbols and the reference decoder, what a step can do to the
ENCODER, the timer and `LINE_TRACE`, the frame's levels under any order of turns, and the two machines side by side. -/

namespace Sys2Proof.Machine

/-! ### Symbols and the reference decoder -/

/-- A list of levels decodes to the bits `bs` exactly when it is their symbols, one after another (R78, R91). -/
theorem decodePairs_eq_some_iff {t : List Level} {bs : List Bool} :
    decodePairs t = some bs ↔ t = bs.flatMap symbol := by
  constructor
  · intro h
    induction t using decodePairs.induct generalizing bs with
    | case1 =>
      cases h
      rfl
    | case2 t ih =>
      obtain ⟨cs, hcs, rfl⟩ := Option.map_eq_some_iff.1 h
      rw [List.flatMap_cons, ← ih hcs]
      rfl
    | case3 t ih =>
      obtain ⟨cs, hcs, rfl⟩ := Option.map_eq_some_iff.1 h
      rw [List.flatMap_cons, ← ih hcs]
      rfl
    | case4 t h1 h2 h3 => simp [decodePairs] at h
  · rintro rfl
    induction bs with
    | nil => rfl
    | cons b bs ih => cases b <;> exact congrArg (Option.map _) ih

theorem decodePairs_isSome_iff {t : List Level} : (decodePairs t).isSome ↔ ∃ bs : List Bool, t = bs.flatMap symbol := by
  simp only [Option.isSome_iff_exists, decodePairs_eq_some_iff]

/-- Whole symbols and one more are whole symbols. -/
theorem decodePairs_append_symbol {t : List Level} (h : (decodePairs t).isSome) (x : Bool) :
    (decodePairs (t ++ symbol x)).isSome := by
  obtain ⟨bs, rfl⟩ := decodePairs_isSome_iff.1 h
  exact decodePairs_isSome_iff.2 ⟨bs ++ [x], by simp⟩

theorem length_flatMap_symbol (bs : List Bool) : (bs.flatMap symbol).length = 2 * bs.length := by
  simp [symbol, Nat.mul_comm]

/-- Either symbol has one `H` and one `L` (R78). -/
theorem count_symbol (x : Bool) : (symbol x).count .H = (symbol x).count .L := by
  cases x <;> rfl

theorem count_flatMap_symbol (bs : List Bool) : (bs.flatMap symbol).count .H = (bs.flatMap symbol).count .L := by
  induction bs with
  | nil => rfl
  | cons b bs ih => rw [List.flatMap_cons, List.count_append, List.count_append, count_symbol, ih]

/-- The bits of a byte, bit 0 first (R80). -/
def byteBits (b : Byte) : List Bool := (List.range 8).map b.getLsbD

theorem frameLevels_byte (b : Byte) : frameLevels b 8 = (byteBits b).flatMap symbol :=
  (List.flatMap_map ..).symm

theorem byteOfBits_getElem (bs : List Bool) (k : Nat) (hk : k < 8) : (byteOfBits bs)[k] = bs[k]?.getD false := by
  induction bs generalizing k with
  | nil => simp [byteOfBits]
  | cons x xs ih =>
    cases k with
    | zero => cases x <;> simp [byteOfBits]
    | succ k => cases x <;> simp [byteOfBits, ih k (by omega)]

/-- Eight bits make a byte exactly when they are its bits. -/
theorem byteOfBits_eq_iff {bs : List Bool} (h : bs.length = 8) (b : Byte) : byteOfBits bs = b ↔ bs = byteBits b := by
  constructor
  · rintro rfl
    refine List.ext_getElem h fun k hk _ => ?_
    simp [byteBits, byteOfBits_getElem bs k (h ▸ hk), hk, h ▸ hk]
  · rintro rfl
    refine BitVec.eq_of_getElem_eq fun k hk => ?_
    simp [byteOfBits_getElem _ k hk, byteBits, hk]

theorem decode16_eq_some_iff {t : List Level} {b : Byte} :
    decode16 t = some b ↔ t.length = 16 ∧ ∃ bs : List Bool, t = bs.flatMap symbol ∧ byteOfBits bs = b := by
  simp [decode16, decodePairs_eq_some_iff]

/-! ### The levels of a frame -/

theorem frameLevels_succ (d : Byte) (n : Nat) : frameLevels d (n + 1) = frameLevels d n ++ symbol (d.getLsbD n) := by
  simp [frameLevels, List.range_succ]

theorem length_frameLevels (d : Byte) (n : Nat) : (frameLevels d n).length = 2 * n := by
  simp [frameLevels, symbol, Nat.mul_comm]

/-- Level `2 * k` of a frame is the first half of bit `k`, and level `2 * k + 1` the second one (R80, R83). -/
theorem frameLevels_getElem? (d : Byte) {n k : Nat} (hk : k < n) (half : Bool) :
    (frameLevels d n)[2 * k + half.toNat]? = some (level (d.getLsbD k) half) := by
  induction n with
  | zero => omega
  | succ n ih =>
    have hlen := length_frameLevels d n
    have hhalf := half.toNat_le
    rw [frameLevels_succ]
    rcases Nat.lt_succ_iff_lt_or_eq.1 hk with hlt | rfl
    · rw [List.getElem?_append_left (by omega), ih hlt]
    · rw [List.getElem?_append_right (by omega), hlen, Nat.add_sub_cancel_left]
      cases half <;> rfl

/-! ### What an operation does to the ENCODER's side -/

/-- `t` has the ENCODER, the timer and `LINE_TRACE` of `s`. -/
structure EncoderKept (s t : State) : Prop where
  encoder : t.encoder = s.encoder
  timer : t.timer = s.timer
  lineTrace : t.traces.line = s.traces.line

theorem EncoderKept.trans {s t u : State} (h : EncoderKept s t) (h' : EncoderKept t u) : EncoderKept s u :=
  ⟨h'.encoder.trans h.encoder, h'.timer.trans h.timer, h'.lineTrace.trans h.lineTrace⟩

/-- The MASTER becomes `m`, and the bus command `c` is emitted if there is one: all that a bus event does (R69 to
R73). -/
def State.answered (s : State) (m : Master) (c : Option BusCmd) : State :=
  { s with master := m, ports.bc := c.or s.ports.bc, traces.bc := s.traces.bc ++ c.toList }

/-- The MASTER once a received byte is stored and counted (R41, R70). -/
def Master.taken (m : Master) (data : Byte) : Master :=
  { m with
    phase := if m.phase = .addr then .data else m.phase
    buf := Memory.write m.buf m.cnt.toNat data
    cnt := m.cnt + 1 }

theorem takeByte_impliedAck (data : Byte) (s : State) :
    takeByte data (impliedAck s) = { s with master := s.master.taken data } := by
  rw [impliedAck_eq_setPhase]
  rfl

@[simp] theorem State.answered_none (s : State) (m : Master) : s.answered m none = { s with master := m } := by
  simp [State.answered]

/-- A bus event reads the parameters and the MASTER alone, and answers them alone: the same in every state that has
them (R92). -/
theorem exec_evt_answers {i : Instr} {s t : State} (hp : i.port = .evt) (h : exec i s = .next t) :
    ∃ m c, ∀ u : State, u.params = s.params → u.master = s.master → exec i u = .next (u.answered m c) := by
  cases i <;> simp only [exec] at h
  case evAddrAck =>
    obtain ⟨hb, hphase, -⟩ := execEvAddrAck_next h
    refine ⟨{ s.master with phase := .data }, none, fun u _ hm => ?_⟩
    rw [exec_evAddrAck_addr (hm ▸ hb) (hm ▸ hphase), State.answered_none, ← hm]
    rfl
  case evByteRx data =>
    obtain ⟨hb, hroom, -⟩ := execEvByteRx_next h
    have hexec : ∀ u : State, u.params = s.params → u.master = s.master →
        exec (.evByteRx data) u = .next (answerByte { u with master := s.master.taken data }) := by
      intro u hu hm
      rw [exec_evByteRx_room data (hm ▸ hb) (by rwa [hu, hm]), takeByte_impliedAck, hm]
    by_cases hlt : (s.master.taken data).cnt < (s.master.taken data).len
    · refine ⟨s.master.taken data, some .ack, fun u hu hm => ?_⟩
      rw [hexec u hu hm, answerByte, if_pos hlt]
      rfl
    · refine ⟨{ s.master.taken data with phase := .idle, status := .ready }, some .nackStop, fun u hu hm => ?_⟩
      rw [hexec u hu hm, answerByte, if_neg hlt]
      rfl
  case evNack =>
    obtain ⟨hb, -⟩ := execEvNack_next h
    refine ⟨{ s.master with phase := .idle, status := .errNack }, some .stop, fun u _ hm => ?_⟩
    rw [exec_evNack_inFlight (hm ▸ hb), ← hm]
    rfl
  case evArbLost =>
    obtain ⟨hb, -⟩ := execEvArbLost_next h
    refine ⟨{ s.master with phase := .idle, status := .errArbLost }, none, fun u _ hm => ?_⟩
    rw [exec_evArbLost_inFlight (hm ▸ hb), State.answered_none, ← hm]
    rfl
  case evBusError =>
    obtain ⟨hb, -⟩ := execEvBusError_next h
    refine ⟨{ s.master with phase := .idle, status := .errBusError }, none, fun u _ hm => ?_⟩
    rw [exec_evBusError_inFlight (hm ▸ hb), State.answered_none, ← hm]
    rfl
  all_goals cases hp

/-- A bus event answers the MASTER's side alone. -/
theorem exec_evt_answered {i : Instr} {s t : State} (hp : i.port = .evt) (h : exec i s = .next t) :
    ∃ m c, t = s.answered m c := by
  obtain ⟨m, c, hall⟩ := exec_evt_answers hp h
  rw [hall s rfl rfl] at h
  exact ⟨m, c, by simpa using h.symm⟩

/-- `SEND_BIT` and `SEND_BYTE` are held, or load a frame of one bit or of eight (R79, R80, R92). -/
theorem exec_send_next {i : Instr} {s t : State} (hi : (∃ v, i = .sendBit v) ∨ ∃ b, i = .sendByte b)
    (h : exec i s = .next t) :
    t = s.hold .encoderBusy ∨ (s.encoder.busy = false ∧ ∃ d n, (n = 1 ∨ n = 8) ∧ t = s.loadFrame d n) := by
  rcases hi with ⟨v, rfl⟩ | ⟨b, rfl⟩
  · rcases execSendBit_next h with ⟨-, ht⟩ | ⟨hb, ht⟩
    · exact .inl ht
    · exact .inr ⟨hb, _, _, .inl rfl, ht⟩
  · rcases execSendByte_next h with ⟨-, ht⟩ | ⟨hb, ht⟩
    · exact .inl ht
    · exact .inr ⟨hb, _, _, .inr rfl, ht⟩

/-- A host command leaves the ENCODER's side alone, or loads a frame while the ENCODER is idle (R92). -/
theorem exec_cmd_encoder {i : Instr} {s t : State} (hp : i.port = .cmd) (h : exec i s = .next t) :
    EncoderKept s t ∨ (s.encoder.busy = false ∧ ∃ d n, EncoderKept (s.loadFrame d n) t) := by
  have send (hi : (∃ v, i = .sendBit v) ∨ ∃ b, i = .sendByte b) :
      EncoderKept s t ∨ (s.encoder.busy = false ∧ ∃ d n, EncoderKept (s.loadFrame d n) t) := by
    rcases exec_send_next hi h with rfl | ⟨hb, d, n, -, rfl⟩
    · exact .inl ⟨rfl, rfl, rfl⟩
    · exact .inr ⟨hb, d, n, rfl, rfl, rfl⟩
  have read (hi : i = .rdStatus ∨ ∃ idx, i = .rdBuf idx) : EncoderKept s t := by
    obtain ⟨_, _, _, rfl⟩ := exec_read_next hi h
    exact ⟨rfl, rfl, rfl⟩
  cases i
  case beginRead => rcases execBeginRead_next h with ⟨-, rfl⟩ | ⟨-, -, -, -, rfl⟩ <;> exact .inl ⟨rfl, rfl, rfl⟩
  case sendBit v => exact send (.inl ⟨v, rfl⟩)
  case sendByte b => exact send (.inr ⟨b, rfl⟩)
  case rdStatus => exact .inl (read (.inl rfl))
  case rdBuf idx => exact .inl (read (.inr ⟨idx, rfl⟩))
  all_goals cases hp

/-! ### What a step does to the ENCODER's side -/

/-- Everything a step can do to the ENCODER, the timer and `LINE_TRACE`: nothing; an overflow; the load of a frame while
the ENCODER is idle; a micro-step; a reset (R92, R113). -/
theorem step_encoder_cases {s t : State} (h : step s = .next t) :
    EncoderKept s t ∨
    (nextTurn s = .timer 1 ∧ EncoderKept (s.setOvf true) t) ∨
    (s.encoder.busy = false ∧ ∃ d n, EncoderKept (s.loadFrame d n) t) ∨
    (nextTurn s = .encoder ∧ t = microStep (beginTurn s)) ∨
    (nextTurn s = .platform ∧ t = (beginTurn s).resetOp) := by
  obtain ⟨-, h⟩ := step_cases h
  rcases h with ⟨-, -, rfl⟩ | ⟨_, i, u, -, -, -, hp, hx, ht⟩ | ⟨_, i, -, -, hp, hx⟩ | ⟨hn, rfl⟩ | ⟨-, rfl⟩ | ⟨hn, rfl⟩ |
    ⟨hn, rfl⟩
  · exact .inl ⟨by simp, by simp, by simp⟩
  · have hut : EncoderKept u t := by
      rcases ht with ⟨-, rfl⟩ | ⟨-, rfl⟩
      · exact ⟨by simp, by simp, by simp⟩
      · exact ⟨rfl, rfl, rfl⟩
    rcases exec_cmd_encoder hp hx with hu | ⟨hb, d, n, hu⟩
    · have hs : EncoderKept s (beginTurn s) := ⟨rfl, rfl, rfl⟩
      exact .inl ((hs.trans hu).trans hut)
    · have hs : EncoderKept (s.loadFrame d n) ((beginTurn s).loadFrame d n) := ⟨rfl, rfl, rfl⟩
      exact .inr (.inr (.inl ⟨hb, d, n, (hs.trans hu).trans hut⟩))
  · obtain ⟨m, c, rfl⟩ := exec_evt_answered hp hx
    exact .inl ⟨rfl, rfl, rfl⟩
  · exact .inr (.inl ⟨hn, rfl, rfl, rfl⟩)
  · exact .inl ⟨rfl, rfl, rfl⟩
  · exact .inr (.inr (.inr (.inl ⟨hn, rfl⟩)))
  · exact .inr (.inr (.inr (.inr ⟨hn, rfl⟩)))

/-! ### The two machines side by side -/

/-- Every operation but a bus event and `BEGIN_READ` leaves the MASTER and `BC_TRACE` alone (R92). -/
theorem exec_keeps_master {i : Instr} {s t : State} (hp : i.port ≠ .evt) (hb : ∀ a n, i ≠ .beginRead a n)
    (h : exec i s = .next t) : t.master = s.master ∧ t.traces.bc = s.traces.bc := by
  have send (hi : (∃ v, i = .sendBit v) ∨ ∃ b, i = .sendByte b) :
      t.master = s.master ∧ t.traces.bc = s.traces.bc := by
    rcases exec_send_next hi h with rfl | ⟨-, d, n, -, rfl⟩ <;> exact ⟨rfl, rfl⟩
  have read (hi : i = .rdStatus ∨ ∃ idx, i = .rdBuf idx) : t.master = s.master ∧ t.traces.bc = s.traces.bc := by
    obtain ⟨_, _, _, rfl⟩ := exec_read_next hi h
    exact ⟨rfl, rfl⟩
  cases i
  case beginRead a n => exact absurd rfl (hb a n)
  case sendBit v => exact send (.inl ⟨v, rfl⟩)
  case sendByte b => exact send (.inr ⟨b, rfl⟩)
  case rdStatus => exact read (.inl rfl)
  case rdBuf idx => exact read (.inr ⟨idx, rfl⟩)
  case evOvf =>
    obtain rfl := execEvOvf_next h
    exact ⟨rfl, rfl⟩
  all_goals exact absurd rfl hp

/-- The end of a half-slot neither sees nor touches the MASTER's side. -/
theorem nextHalfSlot_answered (s : State) (m : Master) (c : Option BusCmd) :
    nextHalfSlot (s.answered m c) = (nextHalfSlot s).answered m c := by
  rcases nextHalfSlot_cases s with ⟨hh, h⟩ | ⟨hh, hr, h⟩ | ⟨hh, hr, h⟩ <;> rw [h]
  · exact nextHalfSlot_first (s := s.answered m c) hh
  · exact nextHalfSlot_bit (s := s.answered m c) hh hr
  · exact nextHalfSlot_last (s := s.answered m c) hh hr

/-- A micro-step neither sees nor touches the MASTER's side (R92). -/
theorem microStep_answered (s : State) (m : Master) (c : Option BusCmd) :
    microStep (s.answered m c) = (microStep s).answered m c := by
  rcases microStep_cases s with ⟨hs, h⟩ | ⟨hs, h⟩ | ⟨hs, h⟩ | ⟨hs, hf, h⟩ | ⟨hs, hf, h⟩ <;> rw [h]
  · exact microStep_idle (s := s.answered m c) hs
  · exact microStep_clear (s := s.answered m c) hs
  · exact microStep_prog (s := s.answered m c) hs
  · exact microStep_held (s := s.answered m c) hs hf
  · exact (microStep_release (s := s.answered m c) hs hf).trans
      (nextHalfSlot_answered ((s.setOvf false).appendLine s.encoder.line) m c)

theorem setOvf_self {s : State} {x : Bool} (h : s.timer.ovf = x) : s.setOvf x = s := by
  rw [State.setOvf, ← h]

end Sys2Proof.Machine

namespace Sys2Proof.Safety

open Sys2Proof.Machine

/-! ### `LINE_TRACE` as whole symbols -/

/-- The clauses read the half, the bit being sent and the trace alone. -/
theorem LineInv.congr {s t : State} (h : LineInv s) (hh : t.encoder.half = s.encoder.half) (hb : frameBit t = frameBit s)
    (ht : t.traces.line = s.traces.line) : LineInv t := by
  obtain ⟨hwhole, hsplit⟩ := h
  constructor <;> simpa only [hh, hb, ht]

theorem LineInv.of_kept {s t : State} (h : LineInv s) (hk : EncoderKept s t) : LineInv t :=
  h.congr (by rw [hk.encoder]) (by rw [frameBit, hk.encoder, frameBit]) hk.lineTrace

/-- Before a first half-slot the trace is whole symbols. -/
theorem lineInv_of_whole {s : State} (hh : s.encoder.half = false) (ht : (decodePairs s.traces.line).isSome) :
    LineInv s :=
  ⟨fun _ => ht, by simp [hh]⟩

/-- A half-slot's level completes a symbol or begins one (R86). -/
theorem LineInv.nextHalfSlot {s : State} (h : LineInv s) :
    LineInv (nextHalfSlot (s.appendLine (frameLevel s))) := by
  have completed (hh : s.encoder.half = true) : (decodePairs (s.appendLine (frameLevel s)).traces.line).isSome := by
    obtain ⟨pre, hpre, ht⟩ := h.split hh
    have hsymbol : (s.appendLine (frameLevel s)).traces.line = pre ++ symbol (frameBit s) := by
      simp [ht, frameLevel, hh, symbol]
    exact hsymbol ▸ decodePairs_append_symbol hpre (frameBit s)
  rcases nextHalfSlot_cases (s.appendLine (frameLevel s)) with ⟨hh, hn⟩ | ⟨hh, -, hn⟩ | ⟨hh, -, hn⟩ <;> rw [hn]
  · refine ⟨by simp, fun _ => ⟨s.traces.line, h.whole hh, ?_⟩⟩
    have hlevel : frameLevel s = level (frameBit s) false := congrArg (level (frameBit s)) hh
    rw [hlevel]
    rfl
  · exact lineInv_of_whole rfl (completed hh)
  · exact lineInv_of_whole rfl (completed hh)

/-- Of the micro-steps only a release appends, and it appends the level of its half-slot, which `S_PROG` has put on the
line (R85, R86). -/
theorem LineInv.microStep {s : State} (h : LineInv s) (hi : EncoderInv s) : LineInv (microStep s) := by
  rcases microStep_cases s with ⟨-, hm⟩ | ⟨-, hm⟩ | ⟨-, hm⟩ | ⟨-, -, hm⟩ | ⟨hs, -, hm⟩ <;> rw [hm]
  · exact h
  · exact h.congr rfl rfl rfl
  · exact h.congr rfl rfl rfl
  · exact h.congr rfl rfl rfl
  · rw [hi.waitLine hs]
    exact (h.congr (t := s.setOvf false) rfl rfl rfl).nextHalfSlot

/-! ### A frame under any order of turns -/

/-- While a frame is being sent a host command is held, so the ENCODER's side changes by an overflow, a micro-step or a
reset alone (R92). -/
theorem step_encoder_busy {s t : State} (hb : s.encoder.busy = true) (hn : nextTurn s ≠ .platform)
    (h : step s = .next t) :
    EncoderKept s t ∨ (nextTurn s = .timer 1 ∧ EncoderKept (s.setOvf true) t) ∨ t = microStep (beginTurn s) := by
  rcases step_encoder_cases h with hk | hk | ⟨hf, -⟩ | ⟨-, ht⟩ | ⟨hp, -⟩
  · exact .inl hk
  · exact .inr (.inl hk)
  · simp [hb] at hf
  · exact .inr (.inr ht)
  · exact absurd hp hn

/-- The frame goes on in `t`: its data and bit count are as in `s`, and it is still being sent after the levels `base`,
or has been sent whole and the ENCODER is idle (R83, R86). -/
structure FrameGoesOn (base : List Level) (s t : State) : Prop where
  data : t.encoder.data = s.encoder.data
  nbits : t.encoder.nbits = s.encoder.nbits
  sent : Sending base t ∨ (t.encoder.busy = false ∧ t.traces.line = base ++ wholeFrame s.encoder)

/-- A change of the micro-step, the line, the timer and the ports alone leaves the frame where it is. -/
theorem Sending.goesOn {base : List Level} {s t : State} (h : Sending base s)
    (he : t.encoder = { s.encoder with step := t.encoder.step, line := t.encoder.line })
    (ht : t.traces.line = s.traces.line) : FrameGoesOn base s t := by
  have hsame :
      (wholeFrame t.encoder).take (sentLevels t.encoder) = (wholeFrame s.encoder).take (sentLevels s.encoder) := by
    rw [he]
    rfl
  exact ⟨by rw [he], by rw [he], .inl ⟨by rw [he]; exact h.busy, by rw [ht, h.trace, hsame]⟩⟩

theorem sentLevels_eq (e : Encoder) : sentLevels e = 2 * e.bitIdx.toNat + e.half.toNat := by
  cases hh : e.half <;> simp [sentLevels, hh]

/-- The level that a half-slot of the frame appends is the frame's next one (R83, R85). -/
theorem Sending.appendLine {base : List Level} {s : State} (h : Sending base s) (hi : EncoderInv s) :
    (s.appendLine (frameLevel s)).traces.line = base ++ (wholeFrame s.encoder).take (sentLevels s.encoder + 1) := by
  have hnext := frameLevels_getElem? s.encoder.data (hi.bitRange h.busy) s.encoder.half
  rw [State.appendLine_traces, h.trace, List.take_add_one, wholeFrame, sentLevels_eq, hnext, List.append_assoc]
  rfl

/-- A half-slot that is the next one of the frame keeps it being sent (R86). -/
theorem Sending.toHalfSlot {base : List Level} {s : State} (h : Sending base s) (hi : EncoderInv s) {b : BitVec 3}
    {half : Bool} (hnext : 2 * b.toNat + half.toNat = sentLevels s.encoder + 1) :
    FrameGoesOn base s ((s.appendLine (frameLevel s)).toHalfSlot b half) := by
  have hsent : sentLevels ((s.appendLine (frameLevel s)).toHalfSlot b half).encoder = sentLevels s.encoder + 1 :=
    (sentLevels_eq _).trans hnext
  refine ⟨rfl, rfl, .inl ⟨h.busy, ?_⟩⟩
  rw [hsent]
  exact h.appendLine hi

/-- A half-slot's end moves to the frame's next level, or ends the command when the whole frame has been appended; the
next bit's index does not wrap, since a frame has at most eight bits (R86). -/
theorem Sending.nextHalfSlot {base : List Level} {s : State} (h : Sending base s) (hi : EncoderInv s) :
    FrameGoesOn base s (nextHalfSlot (s.appendLine (frameLevel s))) := by
  rcases nextHalfSlot_cases (s.appendLine (frameLevel s)) with ⟨(hh : s.encoder.half = false), hn⟩ |
    ⟨(hh : s.encoder.half = true), (hr : s.encoder.bitIdx.toNat + 1 < s.encoder.nbits.toNat), hn⟩ |
    ⟨(hh : s.encoder.half = true), (hr : s.encoder.nbits.toNat ≤ s.encoder.bitIdx.toNat + 1), hn⟩ <;> rw [hn]
  · refine h.toHalfSlot hi ?_
    rw [sentLevels_eq, hh]
    rfl
  · refine h.toHalfSlot hi ?_
    have hle : s.encoder.nbits.toNat ≤ 8 := by rcases hi.nbits with hn | hn <;> simp [hn]
    have hidx : (s.encoder.bitIdx + 1).toNat = s.encoder.bitIdx.toNat + 1 := by bv_omega
    rw [sentLevels_eq, hh, State.appendLine_encoder, hidx]
    rfl
  · have htrace := h.appendLine hi
    have hlen : (wholeFrame s.encoder).length ≤ sentLevels s.encoder + 1 := by
      rw [wholeFrame, length_frameLevels, sentLevels, if_pos hh]
      omega
    rw [List.take_of_length_le hlen] at htrace
    exact ⟨rfl, rfl, .inr ⟨rfl, htrace⟩⟩

/-- Of the micro-steps only a release moves the frame on (R84 to R86). -/
theorem Sending.microStep {base : List Level} {s : State} (h : Sending base s) (hi : EncoderInv s) :
    FrameGoesOn base s (microStep s) := by
  rcases microStep_cases s with ⟨-, hm⟩ | ⟨-, hm⟩ | ⟨-, hm⟩ | ⟨-, -, hm⟩ | ⟨hs, -, hm⟩ <;> rw [hm]
  · exact h.goesOn rfl rfl
  · exact h.goesOn rfl rfl
  · exact h.goesOn rfl rfl
  · exact h.goesOn rfl rfl
  · rw [hi.waitLine hs]
    have hsending : Sending base (s.setOvf false) := ⟨h.busy, h.trace⟩
    obtain ⟨hd, hn, hsent⟩ := hsending.nextHalfSlot (hi.congr rfl)
    exact ⟨hd, hn, hsent⟩

end Sys2Proof.Safety

namespace Sys2Proof.Proofs

open Sys2Proof.Machine Sys2Proof.Safety

/-! ### The statements of the Manchester family -/

/-- Settles O33: only a release appends, and it appends the next half of the symbol of the bit being sent. -/
theorem stepKeepsLineTraceSymbols : Obligations.StepKeepsLineTraceSymbols := by
  intro s t hi hl h
  rcases step_encoder_cases h with hk | ⟨-, hk⟩ | ⟨hb, d, n, hk⟩ | ⟨-, rfl⟩ | ⟨-, rfl⟩
  · exact hl.of_kept hk
  · exact (hl.congr (t := s.setOvf true) rfl rfl rfl).of_kept hk
  · obtain ⟨-, hhalf⟩ := hi.idleSeq hb
    exact (lineInv_of_whole (s := s.loadFrame d n) rfl (hl.whole hhalf)).of_kept hk
  · exact (hl.congr (t := beginTurn s) rfl rfl rfl).microStep (hi.congr rfl)
  · exact lineInv_of_whole rfl rfl

/-- Settles O34: a busy ENCODER's frame is moved on by its micro-steps alone, level by level to its end. -/
theorem frameIsSentUnderAnySchedule : Obligations.FrameIsSentUnderAnySchedule := by
  intro base s t hi hs hn h
  have hgoes : FrameGoesOn base s t := by
    rcases step_encoder_busy hs.busy hn h with hk | ⟨-, hk⟩ | rfl
    · exact hs.goesOn (by rw [hk.encoder]) hk.lineTrace
    · exact hs.goesOn (by rw [hk.encoder]; rfl) hk.lineTrace
    · have hbegin : Sending base (beginTurn s) := ⟨hs.busy, hs.trace⟩
      obtain ⟨hd, hn, hsent⟩ := hbegin.microStep (hi.congr rfl)
      exact ⟨hd, hn, hsent⟩
  exact ⟨hgoes.data, hgoes.nbits, hgoes.sent⟩

/-- Settles O31: sixteen levels that decode are eight symbols, and eight bits that make the byte are its bits. -/
theorem decode16InvertsTheFrame : Obligations.Decode16InvertsTheFrame := by
  intro t b
  rw [decode16_eq_some_iff, frameLevels_byte]
  constructor
  · rintro ⟨hlen, bs, rfl, hb⟩
    rw [length_flatMap_symbol] at hlen
    rw [(byteOfBits_eq_iff (by omega) b).1 hb]
  · rintro rfl
    have hlen : (byteBits b).length = 8 := by simp [byteBits]
    exact ⟨by rw [length_flatMap_symbol, hlen], byteBits b, rfl, (byteOfBits_eq_iff hlen b).2 rfl⟩

/-- Settles O32: a list that splits into symbols is the symbols of some bits, and each of them is balanced. -/
theorem wholeSymbolsHaveNoBias : Obligations.WholeSymbolsHaveNoBias := by
  intro t h
  obtain ⟨bs, rfl⟩ := decodePairs_isSome_iff.1 h
  exact count_flatMap_symbol bs

/-- Settles O35: each command sends its frame half-slot by half-slot to its end. -/
theorem sendCommandsCompleteWithTheirSymbols : Obligations.SendCommandsCompleteWithTheirSymbols := by
  intro s ho hb
  constructor
  · intro v
    obtain ⟨t, ht, hs, hend⟩ := execThen_sendBit v ho hb
    exact ⟨t, ht, hs.lineTrace, hs.bcTrace, hs.master, hend.busy, hend.step, hend.bitIdx, hend.half, hs.line,
      congrArg Timer.ovf hs.timer⟩
  · intro b
    obtain ⟨t, ht, hs, hend⟩ := execThen_sendByte b ho hb
    exact ⟨t, ht, hs.lineTrace, hs.bcTrace, hs.master, hend.busy, hend.step, hend.bitIdx, hend.half, hs.line,
      congrArg Timer.ovf hs.timer⟩

/-- Settles O37: with the flag clear `S_PROG` goes to `S_WAIT` and `S_WAIT` is held; no other turn moves the ENCODER. -/
theorem noReleaseWithoutOverflow : Obligations.NoReleaseWithoutOverflow := by
  intro s t hi hstep hf hn hno h
  have hb : s.encoder.busy = true := by
    refine Bool.eq_true_of_not_eq_false fun hidle => ?_
    rcases hstep with hs | hs <;> simp [hi.busyStep.1 hidle] at hs
  rcases step_encoder_busy hb hn h with hk | ⟨ht, -⟩ | rfl
  · rw [hk.encoder, hk.timer, hk.lineTrace]
    exact ⟨hstep, hf, rfl, rfl, rfl, hb⟩
  · exact absurd ht hno
  · rcases hstep with hs | hs
    · rw [microStep_prog (s := beginTurn s) hs]
      exact ⟨.inr rfl, hf, rfl, rfl, rfl, hb⟩
    · rw [microStep_held (s := beginTurn s) hs hf]
      exact ⟨.inr hs, hf, rfl, rfl, rfl, hb⟩

/-- Settles O39: an event answers the MASTER's side alone, and what is neither an event nor `BEGIN_READ` never touches
it. -/
theorem theTwoMachinesShareNoState : Obligations.TheTwoMachinesShareNoState := by
  refine ⟨?_, fun s t i => exec_keeps_master, fun s => ⟨microStep_master s, microStep_bcTrace s⟩⟩
  intro s t i hp h
  obtain ⟨m, c, rfl⟩ := exec_evt_answered hp h
  exact ⟨rfl, rfl, rfl⟩

/-- Settles O40: the event gives the same answer in every state with this MASTER, and the ENCODER and the timer go on
past the answer. -/
theorem eventsCommuteWithTheEncoder : Obligations.EventsCommuteWithTheEncoder := by
  intro s t i hp h
  obtain ⟨m, c, hall⟩ := exec_evt_answers hp h
  have ht : t = s.answered m c := by simpa [hall s rfl rfl] using h.symm
  subst ht
  refine ⟨?_, s.setOvf true, rfl, (s.setOvf true).answered m c, hall _ rfl rfl, rfl⟩
  rw [microStep_answered]
  exact hall (microStep s) (microStep_params s) (microStep_master s)

/-- Settles O24: an idle ENCODER loads the frame; a busy one holds the command (R92). -/
theorem sendCommandsLoadTheirFrame : Obligations.SendCommandsLoadTheirFrame :=
  fun _ => ⟨fun _ hb => hostCommand_idle hb _, fun _ hb => hostCommand_idle hb _, fun _ => exec_cmd_busy rfl,
    fun _ => exec_cmd_busy rfl⟩

/-- Settles O25: a send writes the hold mark, or the ENCODER's registers but for the line; the overflow the flag
alone. -/
theorem sendsAndOverflowKeepTheMaster : Obligations.SendsAndOverflowKeepTheMaster := by
  intro s t i hi h
  rcases hi with rfl | hsend
  · obtain rfl := execEvOvf_next h
    exact ⟨rfl, fun _ => rfl, rfl, rfl, rfl, fun _ => rfl, fun hne => absurd rfl hne, rfl, rfl, rfl, rfl⟩
  · have hne : i ≠ .evOvf := by rcases hsend with ⟨v, rfl⟩ | ⟨b, rfl⟩ <;> simp
    rcases exec_send_next hsend h with rfl | ⟨-, d, n, -, rfl⟩ <;>
      exact ⟨rfl, fun _ => rfl, rfl, rfl, rfl, fun hovf => absurd hovf hne, fun _ => rfl, rfl, rfl, rfl, rfl⟩

/-- Settles O26: the event is the write of the flag, which is no change when the flag has the value already. -/
theorem overflowRule : Obligations.OverflowRule :=
  fun _ => ⟨rfl, fun hf => congrArg Host.Outcome.next (setOvf_self hf)⟩

/-- Settles O27: the ENCODER's turn is its micro-step, here `S_CLEAR`. -/
theorem clearMicroStepRule : Obligations.ClearMicroStepRule :=
  fun _ hs => congrArg Host.Outcome.next (microStep_clear hs)

/-- Settles O28: the ENCODER's turn is its micro-step, here `S_PROG`. -/
theorem programMicroStepRule : Obligations.ProgramMicroStepRule :=
  fun _ hs => congrArg Host.Outcome.next (microStep_prog hs)

/-- Settles O29: the flag decides between the hold and the release, and the place in the frame what the release does. -/
theorem waitMicroStepRule : Obligations.WaitMicroStepRule := by
  intro s hs
  have release (hf : s.timer.ovf = true) {t : State}
      (ht : nextHalfSlot ((s.setOvf false).appendLine s.encoder.line) = t) : takeTurn .encoder s = .next t :=
    congrArg Host.Outcome.next ((microStep_release hs hf).trans ht)
  refine ⟨?_, ?_, ?_, ?_⟩
  · exact fun hf => congrArg Host.Outcome.next (microStep_held hs hf)
  · exact fun hf hh => release hf (nextHalfSlot_first hh)
  · exact fun hf hh hr => release hf (nextHalfSlot_bit hh hr)
  · exact fun hf hh hr => release hf (nextHalfSlot_last hh hr)

/-- Settles O30: the division of bit vectors rounds down, and `floor(p / 2)` leaves the remainder to the other part. -/
theorem halfOffsetRoundsDown : Obligations.HalfOffsetRoundsDown := by
  intro p
  have hhalf : (halfOffset p).toNat = p.toNat / 2 := BitVec.toNat_udiv
  refine ⟨hhalf, ?_, ?_⟩ <;> rw [hhalf] <;> omega

end Sys2Proof.Proofs
end

section
/-! PROOFS. The supervisory loop (42_supervisor.md R97 to R106): its commands, the loop's duty under every schedule, and
one iteration in which the read succeeds. -/

namespace Sys2Proof.Machine

/-! ### The commands of the loop -/

theorem commandWord_of_port {i : Instr} (h : i.port = .cmd) : ∃ w, commandWord i = some w := by
  cases i
  case beginRead => exact ⟨_, rfl⟩
  case sendBit => exact ⟨_, rfl⟩
  case sendByte => exact ⟨_, rfl⟩
  case rdStatus => exact ⟨_, rfl⟩
  case rdBuf => exact ⟨_, rfl⟩
  all_goals cases h

theorem loopOp_port {p : Params} {ph : LoopPhase} {i : Instr} (h : loopOp p ph = some i) : i.port = .cmd := by
  cases ph <;> cases h <;> rfl

theorem phase_of_loopOp_beginRead {p : Params} {ph : LoopPhase} {a : BitVec 7} {n : BitVec 8}
    (h : loopOp p ph = some (.beginRead a n)) : ph = .requesting := by
  cases ph <;> cases h
  rfl

/-- A legal length to read is not 0 and fits the buffer (R11). -/
theorem readLen_of_wf {p : Params} (h : p.wf = true) : p.readLen ≠ 0 ∧ p.readLen ≤ p.bufCap := by
  simp only [Params.wf, Bool.and_eq_true, bne_iff_ne, BitVec.ule_eq_decide, decide_eq_true_eq] at h
  obtain ⟨⟨-, h0⟩, hc⟩ := h
  exact ⟨h0, hc⟩

theorem stillBusy_iff {rsp : Byte} : stillBusy rsp = true ↔ rsp = 0x01 :=
  beq_iff_eq

theorem drainsAfter_iff {p : Params} {rsp : Byte} :
    drainsAfter p rsp = true ↔ p.gateOnSuccess = false ∨ rsp = 0x00 := by
  simp [drainsAfter, Status.code]

theorem loopNext_send_below {p : Params} {i : BitVec 8} {rsp x : Byte} (h : i.toNat < drainLast p) :
    loopNext p rsp (.drainSend i x) = .drainRead (i + 1) :=
  if_pos h

theorem loopNext_send_last {p : Params} {i : BitVec 8} {rsp x : Byte} (h : drainLast p ≤ i.toNat) :
    loopNext p rsp (.drainSend i x) = .requesting :=
  if_neg (Nat.not_lt.2 h)

theorem loopNext_poll_busy (p : Params) : loopNext p 0x01 .waiting = .waiting :=
  rfl

theorem loopNext_poll_drains {p : Params} {rsp : Byte} (hb : rsp ≠ 0x01) (hd : p.gateOnSuccess = false ∨ rsp = 0x00) :
    loopNext p rsp .waiting = .drainRead 0 := by
  rw [loopNext, if_neg (mt stillBusy_iff.1 hb), if_pos (drainsAfter_iff.2 hd)]

theorem loopNext_poll_gated {p : Params} {rsp : Byte} (hb : rsp ≠ 0x01) (hg : p.gateOnSuccess = true)
    (hr : rsp ≠ 0x00) : loopNext p rsp .waiting = .requesting := by
  have hd : ¬ drainsAfter p rsp = true := by simpa [drainsAfter_iff, hg] using hr
  rw [loopNext, if_neg (mt stillBusy_iff.1 hb), if_neg hd]

/-! ### What a step does to the MASTER -/

/-- A host command leaves the MASTER alone, or is a `BEGIN_READ` accepted while no transaction is in flight (R66). -/
theorem exec_cmd_master {i : Instr} {s t : State} (hp : i.port = .cmd) (h : exec i s = .next t) :
    t.master = s.master ∨
    ((∃ a n, i = .beginRead a n) ∧ s.encoder.busy = false ∧ s.master.status ≠ .busy ∧ t.encoder = s.encoder) := by
  by_cases hi : ∃ a n, i = .beginRead a n
  · obtain ⟨a, n, rfl⟩ := hi
    rcases execBeginRead_next h with ⟨-, rfl⟩ | ⟨hb, hs, -, -, rfl⟩
    · exact .inl rfl
    · exact .inr ⟨⟨a, n, rfl⟩, hb, hs, rfl⟩
  · have hevt : i.port ≠ .evt := by simp [hp]
    exact .inl (exec_keeps_master hevt (fun a n hin => hi ⟨a, n, hin⟩) h).1

/-- While the ENCODER is idle no host command is held (R92). -/
theorem held_of_exec_cmd_idle {i : Instr} {s t : State} (hp : i.port = .cmd) (hb : s.encoder.busy = false)
    (h : exec i s = .next t) : t.ports.held = s.ports.held := by
  cases i
  case beginRead =>
    rcases execBeginRead_next h with ⟨hbusy, -⟩ | ⟨-, -, -, -, rfl⟩
    · cases hb.symm.trans hbusy
    · rfl
  case rdBuf =>
    rcases execRdBuf_next h with ⟨hbusy, -⟩ | ⟨-, -, rfl⟩ | ⟨-, -, rfl⟩
    · cases hb.symm.trans hbusy
    · rfl
    · rfl
  case rdStatus =>
    cases (exec_rdStatus_idle hb).symm.trans h
    rfl
  case sendBit =>
    cases (hostCommand_idle hb _).symm.trans h
    rfl
  case sendByte =>
    cases (hostCommand_idle hb _).symm.trans h
    rfl
  all_goals cases hp

/-- A host command does not look at the turns to come. -/
theorem exec_cmd_setSched {i : Instr} {s t : State} (hp : i.port = .cmd) (h : exec i s = .next t) (ts : List Turn) :
    exec i (s.setSched ts) = .next (t.setSched ts) := by
  cases hb : s.encoder.busy with
  | true =>
    cases (exec_cmd_busy hp hb).symm.trans h
    exact exec_cmd_busy (s := s.setSched ts) hp hb
  | false =>
    cases i
    case beginRead a n =>
      rcases execBeginRead_next h with ⟨hbusy, -⟩ | ⟨-, hs, h0, hc, rfl⟩
      · cases hb.symm.trans hbusy
      · exact exec_beginRead_accepted (s := s.setSched ts) a hb hs h0 hc
    case rdBuf idx =>
      rcases execRdBuf_next h with ⟨hbusy, -⟩ | ⟨-, hlt, rfl⟩ | ⟨-, hge, rfl⟩
      · cases hb.symm.trans hbusy
      · exact exec_rdBuf_below (s := s.setSched ts) hb hlt
      · exact exec_rdBuf_beyond (s := s.setSched ts) hb hge
    case rdStatus =>
      cases (exec_rdStatus_idle hb).symm.trans h
      exact exec_rdStatus_idle (s := s.setSched ts) hb
    case sendBit =>
      cases (hostCommand_idle hb _).symm.trans h
      exact hostCommand_idle (s := s.setSched ts) hb _
    case sendByte =>
      cases (hostCommand_idle hb _).symm.trans h
      exact hostCommand_idle (s := s.setSched ts) hb _
    all_goals cases hp

theorem exec_sendByte_idle {s : State} (x : Byte) (hb : s.encoder.busy = false) :
    exec (.sendByte x) s = .next (s.loadFrame x 8) :=
  hostCommand_idle hb _

/-- While the ENCODER is idle `RD_BUF` answers a byte, the cell's below the capacity, and writes nothing besides but the
free-value counter (R39, R68). -/
theorem exec_rdBuf_idle {s : State} {idx : BitVec 8} (hb : s.encoder.busy = false) :
    ∃ x c, exec (.rdBuf idx) s = .next (State.respond { s with freeCtr := c } x) ∧
      (idx < s.params.bufCap → x = s.cell idx.toNat) := by
  by_cases hlt : idx < s.params.bufCap
  · exact ⟨_, _, exec_rdBuf_below hb hlt, fun _ => rfl⟩
  · exact ⟨_, _, exec_rdBuf_beyond hb (BitVec.not_lt.1 hlt), fun h => absurd h hlt⟩

/-- A bus event that answers a next state found a transaction in flight (R74). -/
theorem busy_of_exec_evt {i : Instr} {s t : State} (hp : i.port = .evt) (h : exec i s = .next t) :
    s.master.status = .busy := by
  by_contra hs
  rw [exec_evt_notInFlight hp hs] at h
  cases h

/-- Everything a step can do to the MASTER: nothing; an accepted `BEGIN_READ` while no transaction is in flight; a bus
event while one is; a reset, after which none is (R105, R118). -/
theorem step_master_cases {s t : State} (h : step s = .next t) :
    t.master = s.master ∨
    (s.master.status ≠ .busy ∧ nextTurn s = .host ∧
      ∃ w a n, offered s = some w ∧ decodeCmd w = .instr (.beginRead a n)) ∨
    (s.master.status = .busy ∧ ∃ w, nextTurn s = .bus w) ∨
    (nextTurn s = .platform ∧ t.master.status = .ready) := by
  obtain ⟨-, h⟩ := step_cases h
  rcases h with ⟨-, -, rfl⟩ | ⟨w, i, u, hn, hw, hd, hp, hx, ht⟩ | ⟨w, i, hn, -, hp, hx⟩ | ⟨-, rfl⟩ | ⟨-, rfl⟩ |
    ⟨-, rfl⟩ | ⟨hn, rfl⟩
  · exact .inl (by simp)
  · have htu : t.master = u.master := by rcases ht with ⟨-, rfl⟩ | ⟨-, rfl⟩ <;> simp
    rcases exec_cmd_master hp hx with hm | ⟨⟨a, n, rfl⟩, -, hs, -⟩
    · exact .inl (htu.trans hm)
    · exact .inr (.inl ⟨hs, hn, w, a, n, hw, hd⟩)
  · exact .inr (.inr (.inl ⟨busy_of_exec_evt (s := beginTurn s) hp hx, w, hn⟩))
  · exact .inl rfl
  · exact .inl rfl
  · exact .inl (by simp)
  · exact .inr (.inr (.inr ⟨hn, rfl⟩))

/-- A micro-step never starts a frame. -/
theorem microStep_idle_busy {s : State} (h : s.encoder.busy = false) : (microStep s).encoder.busy = false := by
  rcases microStep_cases s with ⟨-, hm⟩ | ⟨-, hm⟩ | ⟨-, hm⟩ | ⟨-, -, hm⟩ | ⟨-, -, hm⟩ <;> rw [hm]
  · exact h
  · exact h
  · exact h
  · exact h
  · rcases nextHalfSlot_cases ((s.setOvf false).appendLine s.encoder.line) with ⟨-, hn⟩ | ⟨-, -, hn⟩ | ⟨-, -, hn⟩ <;>
      rw [hn]
    · exact h
    · exact h
    · rfl

end Sys2Proof.Machine

namespace Sys2Proof.Safety

open Sys2Proof.Machine

/-! ### The HOST inside the loop -/

section
variable {s u t : State} {ph : LoopPhase} {i : Instr}

theorem LoopAt.item (hl : LoopAt ph s) : s.host.script[s.host.pos]? = some .superloop := by
  simp [hl.script, hl.pos]

theorem LoopAt.offered_eq (hl : LoopAt ph s) : offered s = (loopOp s.params ph).bind commandWord := by
  rw [offered_of_item hl.item, itemWord, hl.phase]

/-- What the HOST offers inside the loop is the loop's command at its phase (R104). -/
theorem LoopAt.loopOp_of_offered {w : CmdWord} (hl : LoopAt ph s) (hw : offered s = some w)
    (hd : decodeCmd w = .instr i) : loopOp s.params ph = some i := by
  rw [hl.offered_eq] at hw
  obtain ⟨j, hj, hjw⟩ := Option.bind_eq_some_iff.1 hw
  cases hd.symm.trans (decodeCmd_commandWord hjw)
  exact hj

/-- A HOST turn inside the loop runs the loop's command. -/
theorem LoopAt.step_command (hl : LoopAt ph s) (ho : s.outcome = .ok) (hn : nextTurn s = .host)
    (hop : loopOp s.params ph = some i) : step s = afterCommand (exec i (beginTurn s)) := by
  obtain ⟨w, hw⟩ := commandWord_of_port (loopOp_port hop)
  have hoff : offered s = some w := by rw [hl.offered_eq, hop, Option.bind_some, hw]
  exact (Proofs.stepRunsTheDecodedOperation s ho).1 w i hn hoff (decodeCmd_commandWord hw)

theorem LoopAt.hostAdvance_eq (hl : LoopAt ph u) :
    hostAdvance u = (learnResponse u).setHost 0 (loopNext u.params (u.ports.rsp.getD 0) ph) := by
  rw [hostAdvance, hl.item, hl.phase, hl.pos]
  rfl

/-- After an accepted command the loop is at its next phase (R104). -/
theorem LoopAt.next (hl : LoopAt ph u) :
    LoopAt (loopNext u.params (u.ports.rsp.getD 0) ph) (hostAdvance u) := by
  refine ⟨(hostAdvance_script u).trans hl.script, ?_, ?_⟩ <;> rw [hl.hostAdvance_eq] <;> rfl

/-- The loop's state is the HOST's alone. -/
theorem LoopAt.congr (hl : LoopAt ph s) (h : t.host = s.host) : LoopAt ph t :=
  ⟨h ▸ hl.script, h ▸ hl.pos, h ▸ hl.phase⟩

end

/-! ### The loop's duty -/

section
variable {s u t : State} {i : Instr}

theorem LoopInv.loopAt (hi : LoopInv s) : LoopAt s.host.phase s :=
  ⟨hi.script, hi.pos, rfl⟩

/-- With no transaction in flight the duty is only to run the loop. -/
theorem LoopAt.loopInv {ph : LoopPhase} (hl : LoopAt ph s) (hs : s.master.status ≠ .busy) : LoopInv s :=
  ⟨hl.script, hl.pos, fun hb => absurd hb hs, fun _ => hs⟩

/-- The duty is kept where the HOST stands still and neither machine starts. -/
theorem LoopInv.congr (hi : LoopInv s) (hh : t.host = s.host)
    (hs : t.master.status = .busy → s.master.status = .busy)
    (he : t.encoder.busy = true → s.encoder.busy = true) : LoopInv t where
  script := hh ▸ hi.script
  pos := hh ▸ hi.pos
  waiting := fun hb => hh ▸ hi.waiting (hs hb)
  alone := fun hb => mt hs (hi.alone (he hb))

/-- The loop's silent turn falls in Idle, with no transaction in flight (R97). -/
theorem LoopInv.silent (hi : LoopInv s) (hw : offered s = none) : LoopInv (hostSilent s) := by
  have hs : s.master.status ≠ .busy := by
    intro hb
    rw [hi.loopAt.offered_eq, hi.waiting hb] at hw
    cases hw
  have hpos : (hostSilent s).host.pos = 0 := by
    rw [hostSilent_of_item hi.loopAt.item]
    rcases loopStart_cases s with ⟨-, h⟩ | ⟨-, h⟩
    · exact (congrArg (fun v : State => v.host.pos) h).trans hi.pos
    · exact (congrArg (fun v : State => v.host.pos) h).trans hi.pos
  exact ⟨(hostSilent_script s).trans hi.script, hpos, by simp [hs], by simp [hs]⟩

/-- In flight the loop's command is the poll, which answers that the read is still busy and leaves the loop waiting;
otherwise a transaction in flight is one that the command has begun from Requesting (R99 to R101). -/
theorem LoopInv.accepted (hi : LoopInv s) (hop : loopOp s.params s.host.phase = some i) (hb : s.encoder.busy = false)
    (hx : exec i s = .next u) : LoopInv (hostAdvance u) := by
  have hloop := (hi.loopAt.congr (exec_next_host hx)).next
  by_cases hs : s.master.status = .busy
  · rw [hi.waiting hs] at hop hloop
    cases hop
    cases (exec_rdStatus_idle hb).symm.trans hx
    refine ⟨hloop.script, hloop.pos, fun _ => ?_, by simp [hb]⟩
    rw [hloop.phase, State.respond_ports, hs]
    exact loopNext_poll_busy _
  · rcases exec_cmd_master (loopOp_port hop) hx with hm | ⟨⟨a, n, rfl⟩, -, -, he⟩
    · exact hloop.loopInv (by rwa [hostAdvance_master, hm])
    · rw [phase_of_loopOp_beginRead hop] at hloop
      exact ⟨hloop.script, hloop.pos, fun _ => hloop.phase, by simp [he, hb]⟩

/-- A command of the loop keeps the duty, whether it is held or accepted (R92). -/
theorem LoopInv.command (hi : LoopInv s) (hh : s.ports.held = none) (hop : loopOp s.params s.host.phase = some i)
    (hx : exec i s = .next u)
    (ht : (u.ports.held = none ∧ t = hostAdvance u) ∨ (u.ports.held ≠ none ∧ t = u)) : LoopInv t := by
  cases hb : s.encoder.busy with
  | true =>
    cases (exec_cmd_busy (loopOp_port hop) hb).symm.trans hx
    rcases ht with ⟨hnone, -⟩ | ⟨-, rfl⟩
    · cases hnone
    · exact hi.congr rfl id id
  | false =>
    have hu : u.ports.held = none := (held_of_exec_cmd_idle (loopOp_port hop) hb hx).trans hh
    rcases ht with ⟨-, rfl⟩ | ⟨hne, -⟩
    · exact hi.accepted hop hb hx
    · exact absurd hu hne

/-- Whatever the loop offers, it is held, or accepted under the duty: the request finds no transaction in flight and a
length that fits (R99, R100). -/
theorem LoopInv.exec_next {ph : LoopPhase} (hi : LoopInv s) (hl : LoopAt ph s) (hp : s.params.wf = true)
    (hop : loopOp s.params ph = some i) : ∃ u, exec i s = .next u := by
  cases hb : s.encoder.busy with
  | true => exact ⟨_, exec_cmd_busy (loopOp_port hop) hb⟩
  | false =>
    cases ph <;> cases hop
    case requesting.refl =>
      have hs : s.master.status ≠ .busy := fun h => by cases hl.phase.symm.trans (hi.waiting h)
      obtain ⟨h0, hc⟩ := readLen_of_wf hp
      exact ⟨_, exec_beginRead_accepted _ hb hs h0 hc⟩
    case waiting.refl => exact ⟨_, exec_rdStatus_idle hb⟩
    case drainRead.refl k =>
      by_cases hk : k < s.params.bufCap
      · exact ⟨_, exec_rdBuf_below hb hk⟩
      · exact ⟨_, exec_rdBuf_beyond hb (BitVec.not_lt.1 hk)⟩
    case drainSend.refl k x => exact ⟨_, hostCommand_idle hb _⟩

end

/-! ### Turns of the HOST and of the BUS along a schedule -/

theorem learnResponse_setSched (s : State) (ts : List Turn) :
    learnResponse (s.setSched ts) = (learnResponse s).setSched ts := by
  rcases learnResponse_cases s with ⟨hr, h⟩ | ⟨v, hr, h⟩ <;> rw [h, learnResponse, State.setSched_ports, hr]
  rfl

theorem LoopAt.hostAdvance_setSched {ph : LoopPhase} {u : State} (hl : LoopAt ph u) (ts : List Turn) :
    hostAdvance (u.setSched ts) = (hostAdvance u).setSched ts := by
  have hts : LoopAt ph (u.setSched ts) := hl.congr rfl
  rw [hl.hostAdvance_eq, hts.hostAdvance_eq, learnResponse_setSched]
  rfl

/-- A HOST turn inside the loop whose command is accepted. -/
theorem Turns.loopCommand {ph : LoopPhase} {i : Instr} {s u : State} (ho : s.outcome = .ok) (hl : LoopAt ph s)
    (hb : s.encoder.busy = false) (hop : loopOp s.params ph = some i) (hx : exec i s.clearPorts = .next u) :
    Turns s [.host] (hostAdvance u) := by
  have hp : i.port = .cmd := loopOp_port hop
  have hu : LoopAt ph u := hl.congr (exec_next_host (s := s.clearPorts) hx)
  have hh : u.ports.held = none := held_of_exec_cmd_idle (s := s.clearPorts) hp hb hx
  refine .single fun rest => ?_
  have hstep : step (s.setSched (.host :: rest)) = afterCommand (exec i (s.clearPorts.setSched rest)) :=
    LoopAt.step_command (s := s.setSched (.host :: rest)) (hl.congr rfl) ho rfl hop
  rw [hstep, exec_cmd_setSched hp hx rest, afterCommand_accepted (s := u.setSched rest) hh, hu.hostAdvance_setSched]

/-- A bus event's turn is its handler, whatever turns follow it (R114). -/
theorem Turns.bus {w : EvtWord} {i : Instr} {s t : State} (ho : s.outcome = .ok) (hd : decodeEvt w = .instr i)
    (hx : exec i s.clearPorts = .next t) : Turns s [.bus w] t := by
  obtain ⟨m, c, hall⟩ := exec_evt_answers (Laws.decodeEvt_port hd) hx
  have ht : t = s.clearPorts.answered m c := by simpa [hall s.clearPorts rfl rfl] using hx.symm
  subst ht
  refine .single fun rest => ?_
  obtain ⟨-, -, hbus, -⟩ := Proofs.stepRunsTheDecodedOperation (s.setSched (.bus w :: rest)) ho
  rw [hbus w i rfl hd]
  exact hall (s.clearPorts.setSched rest) rfl rfl

/-- Only the HOST's turns and resets move the HOST (R95). -/
theorem step_host_kept {s t : State} (hn : nextTurn s ≠ .host) (hp : nextTurn s ≠ .platform) (h : step s = .next t) :
    t.host = s.host := by
  obtain ⟨-, h⟩ := step_cases h
  rcases h with ⟨hn', -⟩ | ⟨_, _, _, hn', -⟩ | ⟨_, i, -, -, -, hx⟩ | ⟨-, rfl⟩ | ⟨-, rfl⟩ | ⟨-, rfl⟩ | ⟨hp', -⟩
  · exact absurd hn' hn
  · exact absurd hn' hn
  · exact exec_next_host (s := beginTurn s) hx
  · rfl
  · rfl
  · exact microStep_host (beginTurn s)
  · exact absurd hp' hp

theorem coreRun_succ {M : Host.Core} {s t : M.State} {n : Nat} (h : M.run (n + 1) s = .next t) :
    ∃ u, M.step s = .next u ∧ M.run n u = .next t := by
  rw [Host.Core.run] at h
  split at h
  next hu => exact ⟨_, hu, h⟩
  next => cases h
  next => cases h

/-- A run without the HOST's turns and resets keeps the HOST and the parameters. -/
theorem coreRun_keeps_host {ts rest : List Turn} {s t : State} (hs : s.sched = ts ++ rest)
    (hq : ∀ x ∈ ts, x ≠ .host ∧ x ≠ .platform) (h : Host.Core.run core ts.length s = .next t) :
    t.host = s.host ∧ t.params = s.params := by
  induction ts generalizing s with
  | nil =>
    cases h
    exact ⟨rfl, rfl⟩
  | cons x ts ih =>
    obtain ⟨u, hu, hrun⟩ := coreRun_succ h
    have hx : nextTurn s = x := by rw [nextTurn, hs]; rfl
    obtain ⟨hhost, hplatform⟩ := hq x List.mem_cons_self
    obtain ⟨hparams, -, hsched, -⟩ := Proofs.stepKeepsParametersAndScript s u hu
    have hus : u.sched = ts ++ rest := by rw [hsched, hs]; rfl
    obtain ⟨hth, htp⟩ := ih hus (fun y hy => hq y (List.mem_cons_of_mem x hy)) hrun
    exact ⟨hth.trans (step_host_kept (hx ▸ hhost) (hx ▸ hplatform) hu), htp.trans hparams⟩

theorem Turns.keeps_host {s t : State} {ts : List Turn} (h : Turns s ts t)
    (hq : ∀ x ∈ ts, x ≠ .host ∧ x ≠ .platform) : t.host = s.host ∧ t.params = s.params :=
  coreRun_keeps_host (s := s.setSched (ts ++ [])) (t := t.setSched []) rfl hq (h [])

/-- A frame's turns are the ENCODER's and the TIMER's. -/
theorem frameTurns_quiet {n : Nat} {x : Turn} (hx : x ∈ frameTurns n) : x ≠ .host ∧ x ≠ .platform := by
  obtain ⟨ts, hts, hx⟩ := List.mem_flatten.1 hx
  rw [List.eq_of_mem_replicate hts] at hx
  simp only [halfSlotTurns, List.mem_cons, List.not_mem_nil, or_false] at hx
  rcases hx with rfl | rfl | rfl | rfl <;> simp

/-! ### One iteration in which the read succeeds -/

/-- The HOST stands in the loop at the phase `ph`, with the parameters `p` and the trace `line`. -/
structure LoopRuns (p : Params) (ph : LoopPhase) (line : List Level) (s : State) : Prop where
  outcome : s.outcome = .ok
  params : s.params = p
  loop : LoopAt ph s
  lineTrace : s.traces.line = line

/-- The loop runs, and its next command is not held: the ENCODER is idle (R92). -/
structure LoopReady (p : Params) (ph : LoopPhase) (line : List Level) (s : State) : Prop
    extends LoopRuns p ph line s where
  idle : s.encoder.busy = false

/-- Where the loop stands before index `k` of the drain: at the read of cell `k`, or at the next request once the last
index is done (R103, R104). -/
def drainFrom (p : Params) (k : Nat) : LoopPhase :=
  if k ≤ drainLast p then .drainRead (BitVec.ofNat 8 k) else .requesting

theorem drainFrom_le {p : Params} {k : Nat} (hk : k ≤ drainLast p) : drainFrom p k = .drainRead (BitVec.ofNat 8 k) :=
  if_pos hk

theorem drainFrom_done {p : Params} {k : Nat} (hk : drainLast p < k) : drainFrom p k = .requesting :=
  if_neg (Nat.not_le.2 hk)

/-- Every index of the drain fits the index byte (R103). -/
theorem toNat_of_le_drainLast {p : Params} {k : Nat} (hk : k ≤ drainLast p) : (BitVec.ofNat 8 k).toNat = k := by
  have hcap := p.bufCap.isLt
  have hlen := p.readLen.isLt
  have hlast : drainLast p < 2 ^ 8 := by
    cases hincl : p.drainInclusive with
    | true => rwa [drainLast_inclusive hincl]
    | false =>
      rw [drainLast_exclusive hincl]
      omega
  rw [BitVec.toNat_ofNat, Nat.mod_eq_of_lt (by omega)]

/-- After the transmission of the byte of cell `k` the loop stands before the next index (R103). -/
theorem loopNext_drainSend {p : Params} {k : Nat} (hk : k ≤ drainLast p) (rsp x : Byte) :
    loopNext p rsp (.drainSend (BitVec.ofNat 8 k) x) = drainFrom p (k + 1) := by
  have hidx := toNat_of_le_drainLast hk
  rcases Nat.lt_or_eq_of_le hk with hlt | heq
  · rw [loopNext_send_below (by omega), drainFrom_le (k := k + 1) hlt, BitVec.ofNat_add]
    rfl
  · rw [loopNext_send_last (by omega), drainFrom_done (by omega)]

/-- What is received is the parameters', the MASTER's and `BC_TRACE`'s alone. -/
theorem Receiving.congr {s u v : State} {addr : BitVec 7} {len : BitVec 8} {rs : List Byte}
    (h : Receiving s addr len rs u) (hp : v.params = u.params) (hm : v.master = u.master)
    (hb : v.traces.bc = u.traces.bc) : Receiving s addr len rs v where
  stored :=
    { fits := hp ▸ h.stored.fits
      len := hm ▸ h.stored.len
      cnt := hm ▸ h.stored.cnt
      cells := fun k => (State.cell_of_master hm k).trans (h.stored.cells k) }
  busy := hm ▸ h.busy
  bcTrace := hb ▸ h.bcTrace

section
variable {p : Params} {ph : LoopPhase} {line : List Level} {s u : State}

/-- A HOST turn inside the loop goes on to the loop's next phase (R104). -/
theorem LoopReady.command {i : Instr} (h : LoopReady p ph line s) (hop : loopOp p ph = some i)
    (hx : exec i s.clearPorts = .next u) :
    Turns s [.host] (hostAdvance u) ∧ LoopRuns p (loopNext p (u.ports.rsp.getD 0) ph) line (hostAdvance u) := by
  have hparams : u.params = p := (exec_next_params hx).trans h.params
  have hframe := exec_next_frame hx
  have hnext := (h.loop.congr (exec_next_host (s := s.clearPorts) hx)).next
  rw [hparams] at hnext
  refine ⟨.loopCommand h.outcome h.loop h.idle (by rw [h.params, hop]) hx, ?_, ?_, hnext, ?_⟩
  · exact (hostAdvance_outcome u).trans (hframe.outcome.trans h.outcome)
  · exact (hostAdvance_params u).trans hparams
  · rw [hostAdvance_traces, hframe.lineTrace]
    exact h.lineTrace

/-- A bus event leaves the loop, the ENCODER and `LINE_TRACE` as they are (R92, R95). -/
theorem LoopReady.event {i : Instr} (h : LoopReady p ph line s) (hp : i.port = .evt)
    (hx : exec i s.clearPorts = .next u) : LoopReady p ph line u := by
  obtain ⟨m, c, rfl⟩ := exec_evt_answered hp hx
  exact ⟨⟨h.outcome, h.params, h.loop.congr rfl, h.lineTrace⟩, h.idle⟩

/-- The request opens the transaction and the loop waits (R99). -/
theorem LoopReady.request (h : LoopReady p .requesting line s) (hs : s.master.status ≠ .busy) (hp : p.wf = true) :
    ∃ v, Turns s [.host] v ∧ LoopReady p .waiting line v ∧ Receiving s p.targetAddr p.readLen [] v := by
  obtain rfl := h.params
  obtain ⟨h0, hc⟩ := readLen_of_wf hp
  have hx := exec_beginRead_accepted (s := s.clearPorts) s.params.targetAddr h.idle hs h0 hc
  obtain ⟨hturns, hruns⟩ := h.command rfl hx
  refine ⟨_, hturns, ⟨hruns, by simp [h.idle]⟩, ?_⟩
  refine Receiving.congr ?_ (hostAdvance_params _) (hostAdvance_master _) (congrArg Traces.bc (hostAdvance_traces _))
  exact ⟨⟨hc, rfl, rfl, fun _ => rfl⟩, rfl, by simp⟩

/-- The bytes that complete the read, one turn each (R70, R77). -/
theorem LoopReady.receive {addr : BitVec 7} {len : BitVec 8} {rs ds : List Byte} (h : LoopReady p ph line u)
    (hr : Receiving s addr len rs u) (hne : ds ≠ []) (hlen : rs.length + ds.length = len.toNat) :
    ∃ v, Turns u (ds.map fun d => .bus (evtWord 1 d)) v ∧ LoopReady p ph line v ∧
      Received s addr len (rs ++ ds) v := by
  induction ds generalizing rs u with
  | nil => exact absurd rfl hne
  | cons d ds ih =>
    have hclear : Receiving s addr len rs u.clearPorts := hr.congr rfl rfl rfl
    have hd : decodeEvt (evtWord 1 d) = .instr (.evByteRx d) := Laws.decode_encode (.evByteRx d)
    rw [List.length_cons] at hlen
    by_cases hds : ds = []
    · subst hds
      obtain ⟨v, hx, hv⟩ := hclear.byteRx_final d (by simpa using hlen)
      exact ⟨v, .bus h.outcome hd hx, h.event rfl hx, hv⟩
    · have hpos : 0 < ds.length := List.length_pos_iff.2 hds
      obtain ⟨v, hx, hv⟩ := hclear.byteRx_ack d (by omega)
      obtain ⟨w, hw, hready, hrec⟩ := ih (h.event rfl hx) hv hds (by simp; omega)
      exact ⟨w, (Turns.bus h.outcome hd hx).append hw, hready, by simpa using hrec⟩

/-- The poll after a successful read starts the drain, gated or not (R101, R102). -/
theorem LoopReady.poll (h : LoopReady p .waiting line s) (hs : s.master.status = .ready) :
    ∃ v, Turns s [.host] v ∧ LoopReady p (drainFrom p 0) line v ∧ v.master = s.master := by
  have hx := exec_rdStatus_idle (s := s.clearPorts) h.idle
  obtain ⟨hturns, hruns⟩ := h.command rfl hx
  have hnext : loopNext p s.master.status.code .waiting = drainFrom p 0 := by
    rw [hs, drainFrom_le (Nat.zero_le _)]
    exact loopNext_poll_drains (by decide) (.inr rfl)
  refine ⟨_, hturns, ⟨hnext ▸ hruns, by simp [h.idle]⟩, by simp⟩

/-- The frame that the loop has loaded is sent, and the loop stands where it stood (R80, R94). -/
theorem LoopRuns.frame {x : Byte} (h : LoopRuns p ph line s) (hx : Starting x 8 0 false s) :
    ∃ t, Turns s (frameTurns 8) t ∧ LoopReady p ph (line ++ frameLevels x 8) t ∧ t.master = s.master := by
  obtain ⟨t, hturns, hsent, hend⟩ := hx.bits (by decide) 7 rfl
  obtain ⟨hhost, hparams⟩ := hturns.keeps_host fun _ => frameTurns_quiet
  rw [← List.range_eq_range'] at hsent
  refine ⟨t, hturns, ⟨⟨hsent.outcome, hparams.trans h.params, h.loop.congr hhost, ?_⟩, hend.busy⟩, hsent.master⟩
  rw [hsent.lineTrace, h.lineTrace]
  rfl

/-- The read of a cell of the drain, or of a free byte beyond the capacity (R39, R103). -/
theorem LoopReady.drainRead {i : BitVec 8} (h : LoopReady p (.drainRead i) line s) :
    ∃ x v, Turns s [.host] v ∧ LoopReady p (.drainSend i x) line v ∧ v.master = s.master ∧
      (i < p.bufCap → x = s.cell i.toNat) := by
  obtain ⟨x, c, hx, hcell⟩ := exec_rdBuf_idle (s := s.clearPorts) (idx := i) h.idle
  obtain ⟨hturns, hruns⟩ := h.command rfl hx
  refine ⟨x, _, hturns, ⟨hruns, by simp [h.idle]⟩, by simp, ?_⟩
  rw [← h.params]
  exact hcell

/-- The transmission of the byte read at index `k` of the drain (R103). -/
theorem LoopReady.drainSend {k : Nat} {x : Byte} (h : LoopReady p (.drainSend (BitVec.ofNat 8 k) x) line s)
    (hk : k ≤ drainLast p) :
    ∃ t, Turns s ([.host] ++ frameTurns 8) t ∧ LoopReady p (drainFrom p (k + 1)) (line ++ frameLevels x 8) t ∧
      t.master = s.master := by
  obtain ⟨hload, hruns⟩ := h.command rfl (exec_sendByte_idle (s := s.clearPorts) x h.idle)
  rw [loopNext_drainSend hk] at hruns
  obtain ⟨t, hframe, hready, hmaster⟩ := hruns.frame (x := x) (by constructor <;> simp [h.outcome])
  exact ⟨t, hload.append hframe, hready, by simpa using hmaster⟩

/-- One index of the drain: the read of its cell, then the frame of the byte read (R103). -/
theorem LoopReady.drainOne {k : Nat} (h : LoopReady p (drainFrom p k) line s) (hk : k ≤ drainLast p) :
    ∃ x t, Turns s ([.host, .host] ++ frameTurns 8) t ∧ LoopReady p (drainFrom p (k + 1)) (line ++ frameLevels x 8) t ∧
      t.master = s.master ∧ (k < p.bufCap.toNat → x = s.cell k) := by
  rw [drainFrom_le hk] at h
  obtain ⟨x, u, hread, hsend, hmasterU, hcell⟩ := h.drainRead
  obtain ⟨t, hframe, hready, hmasterT⟩ := hsend.drainSend hk
  rw [BitVec.lt_def, toNat_of_le_drainLast hk] at hcell
  exact ⟨x, t, hread.append hframe, hready, hmasterT.trans hmasterU, hcell⟩

/-- A drain of cells that hold `ds` sends their frames in order (R103, R106). -/
theorem LoopReady.drainCells {ds : List Byte} {k : Nat} (h : LoopReady p (drainFrom p k) line s)
    (hcells : ∀ j (hj : j < ds.length), s.cell (k + j) = ds[j]) (hlast : k + ds.length ≤ drainLast p + 1)
    (hcap : k + ds.length ≤ p.bufCap.toNat) :
    ∃ t, Turns s (List.replicate ds.length ([.host, .host] ++ frameTurns 8)).flatten t ∧
      LoopReady p (drainFrom p (k + ds.length)) (line ++ ds.flatMap fun d => frameLevels d 8) t ∧
      t.master = s.master := by
  induction ds generalizing k line s with
  | nil => exact ⟨s, fun _ => rfl, by simpa using h, rfl⟩
  | cons d ds ih =>
    rw [List.length_cons] at hlast hcap
    obtain ⟨x, u, hone, hready, hmaster, hx⟩ := h.drainOne (by omega)
    obtain rfl : x = d := (hx (by omega)).trans (hcells 0 (Nat.zero_lt_succ _))
    have hrest : ∀ j (hj : j < ds.length), u.cell (k + 1 + j) = ds[j] := by
      intro j hj
      rw [State.cell_of_master hmaster, Nat.add_assoc, Nat.add_comm 1 j]
      exact hcells (j + 1) (Nat.succ_lt_succ hj)
    obtain ⟨t, hturns, hready', hmaster'⟩ := ih hready hrest (by omega) (by omega)
    refine ⟨t, hone.append hturns, ?_, hmaster'.trans hmaster⟩
    rw [Nat.add_assoc, Nat.add_comm 1] at hready'
    simpa using hready'

/-- Up to its drain an iteration reads the bytes into the buffer (R104, R106). -/
theorem LoopReady.readIn {ds : List Byte} (h : LoopReady p .requesting line s) (hs : s.master.status ≠ .busy)
    (hp : p.wf = true) (hlen : ds.length = p.readLen.toNat) :
    ∃ v, Turns s ([.host] ++ ds.map (fun d => .bus (evtWord 1 d)) ++ [.host]) v ∧
      LoopReady p (drainFrom p 0) line v ∧ v.master.status = .ready ∧
      ∀ k (hk : k < ds.length), v.cell k = ds[k] := by
  have hne : ds ≠ [] := by
    rintro rfl
    exact (readLen_of_wf hp).1 (BitVec.eq_of_toNat_eq hlen.symm)
  obtain ⟨u, hrequest, hwait, hopen⟩ := h.request hs hp
  obtain ⟨w, hbytes, hwait', hrec⟩ := hwait.receive hopen hne (by simpa using hlen)
  obtain ⟨v, hpoll, hready, hmaster⟩ := hwait'.poll hrec.ready
  refine ⟨v, (hrequest.append hbytes).append hpoll, hready, by rw [hmaster, hrec.ready], fun k hk => ?_⟩
  rw [State.cell_of_master hmaster, hrec.stored.cells, List.nil_append, List.getElem?_eq_getElem hk, Option.getD_some]

end

end Sys2Proof.Safety

namespace Sys2Proof.Proofs

open Sys2Proof.Machine Sys2Proof.Safety

/-- Settles O55: the parameters' bound decides the end of the drain, and the response the end of the poll. -/
theorem superloopCommands : Obligations.SuperloopCommands := by
  intro p rsp i x
  refine ⟨rfl, rfl, rfl, rfl, ?_, loopNext_poll_drains, loopNext_poll_gated, rfl, rfl, rfl, ?_, ?_, ?_, ?_⟩
  · rintro rfl
    exact loopNext_poll_busy p
  · exact fun hincl hlt => loopNext_send_below (by rwa [drainLast_inclusive hincl])
  · exact fun hincl hle => loopNext_send_last (by rwa [drainLast_inclusive hincl])
  · exact fun hexcl hlt => loopNext_send_below (by rw [drainLast_exclusive hexcl]; omega)
  · exact fun hexcl hle => loopNext_send_last (by rw [drainLast_exclusive hexcl]; omega)

/-- Settles O42: of all that a step can do, a bus event and the reset aside, `BEGIN_READ` alone touches the MASTER, and
it is accepted only while no transaction is in flight (R66, R74). -/
theorem onlyBusEventsEndATransaction : Obligations.OnlyBusEventsEndATransaction := by
  constructor
  · intro s t hb hbus hrst h
    rcases step_master_cases h with hm | ⟨hs, -⟩ | ⟨-, w, hw⟩ | ⟨hp, -⟩
    · exact hm
    · exact absurd hb hs
    · exact absurd hw (hbus w)
    · exact absurd hp hrst
  · intro s t hs h hb
    rcases step_master_cases h with hm | ⟨-, hread⟩ | ⟨hs', -⟩ | ⟨-, hr⟩
    · exact absurd (hm ▸ hb) hs
    · exact hread
    · exact absurd hs' hs
    · cases hb.symm.trans hr

/-- Settles O56: a HOST turn of the loop is a poll while a transaction is in flight, every other turn leaves the HOST
where it stands and starts neither machine, and a reset starts the loop anew. -/
theorem superloopNeverFaults : Obligations.SuperloopNeverFaults := by
  have reset : ∀ s, ResetState s → LoopAt .idle s → LoopInv s := by
    intro s hr hl
    exact hl.loopInv (by simp [hr.status])
  refine ⟨reset, ?_, ?_⟩
  · intro s t hi h
    have hbegin : LoopInv (beginTurn s) := hi.congr rfl id id
    obtain ⟨-, h⟩ := step_cases h
    rcases h with ⟨-, hw, rfl⟩ | ⟨w, i, u, -, hw, hd, -, hx, ht⟩ | ⟨w, i, -, -, hp, hx⟩ | ⟨-, rfl⟩ | ⟨-, rfl⟩ |
      ⟨-, rfl⟩ | ⟨-, rfl⟩
    · exact hbegin.silent hw
    · exact hbegin.command rfl (hi.loopAt.loopOp_of_offered hw hd) hx ht
    · obtain ⟨m, c, rfl⟩ := exec_evt_answered hp hx
      exact hi.congr rfl (fun _ => busy_of_exec_evt (s := beginTurn s) hp hx) id
    · exact hi.congr rfl id id
    · exact hbegin
    · refine hbegin.congr (by simp) (by simp) fun hb => ?_
      by_contra hf
      simp [microStep_idle_busy (eq_false_of_ne_true hf)] at hb
    · exact reset _ (resetState_resetOp _) ⟨hi.script, rfl, rfl⟩
  · intro s hi ho hp hn
    cases hop : loopOp s.params s.host.phase with
    | none =>
      obtain ⟨-, hsilent, -⟩ := stepRunsTheDecodedOperation s ho
      exact ⟨_, hsilent hn (by rw [hi.loopAt.offered_eq, hop, Option.bind_none])⟩
    | some i =>
      have hbegin : LoopInv (beginTurn s) := hi.congr rfl id id
      obtain ⟨u, hu⟩ := hbegin.exec_next hbegin.loopAt hp hop
      rw [hi.loopAt.step_command ho hn hop, hu]
      exact ⟨_, rfl⟩

/-- Settles O57: the request, the bytes and the poll fill the first cells, and the drain sends cell after cell; with the
inclusive bound its last index is one beyond the bytes. -/
theorem superloopIteration : Obligations.SuperloopIteration := by
  intro s ds hi hl hp hlen
  have hstart : LoopReady s.params .requesting s.traces.line s := ⟨⟨hi.outcome, rfl, hl, rfl⟩, hi.busy⟩
  obtain ⟨h0, hc⟩ := readLen_of_wf hp
  have hcap : ds.length ≤ s.params.bufCap.toNat := by rw [hlen]; exact BitVec.le_def.1 hc
  obtain ⟨v, hread, hready, hstatus, hcells⟩ := hstart.readIn hi.status hp hlen
  have hcells0 : ∀ j (hj : j < ds.length), v.cell (0 + j) = ds[j] := by simpa using hcells
  constructor
  · intro hexcl
    have hlast : drainLast s.params + 1 = ds.length := by
      rw [drainLast_exclusive hexcl]
      bv_omega
    obtain ⟨t, hdrain, hend, hmaster⟩ := hready.drainCells hcells0 (by omega) (by omega)
    rw [drainFrom_done (by omega)] at hend
    exact ⟨_, (hread.append hdrain).runSched, by simp [hmaster, hstatus],
      fun k hk => (State.cell_of_master hmaster k).trans (hcells k hk), hend.idle, hend.loop.congr rfl, hend.lineTrace⟩
  · intro hincl heq
    have hlast : drainLast s.params = ds.length := by rw [drainLast_inclusive hincl, hlen, heq]
    obtain ⟨u, hdrain, hmid, hmasterU⟩ := hready.drainCells hcells0 (by omega) (by omega)
    obtain ⟨x, t, hone, hend, hmasterT, -⟩ := hmid.drainOne (by omega)
    rw [drainFrom_done (by omega)] at hend
    have hmaster : t.master = v.master := hmasterT.trans hmasterU
    have hturns : Turns s (iterationTurns ds (ds.length + 1)) t := by
      have hall := (hread.append hdrain).append hone
      simpa [iterationTurns, List.replicate_succ'] using hall
    exact ⟨_, x, hturns.runSched, by simp [hmaster, hstatus],
      fun k hk => (State.cell_of_master hmaster k).trans (hcells k hk), hend.idle, hend.loop.congr rfl,
      by simp [hend.lineTrace]⟩

end Sys2Proof.Proofs
end

section
/-! PROOFS. Faults and waits (60_exceptions.md R116 to R118): what a fault says of the operation and of the turn that
raised it, and the ENCODER's micro-step when it has nothing to do. -/

namespace Sys2Proof.Machine

/-! ### What a fault says of the operation -/

/-- A host command that faults was not held. -/
theorem hostCommand_fault {s : State} {k : Result} {r : Fault} (h : hostCommand s k = .fault r) : k = .fault r := by
  unfold hostCommand at h
  split at h
  · cases h
  · exact h

theorem execBeginRead_fault {addr : BitVec 7} {len : BitVec 8} {s : State} {r : Fault}
    (h : execBeginRead addr len s = .fault r) :
    (r = .beginWhileBusy ∧ s.master.status = .busy) ∨ (r = .lengthExceedsCapacity ∧ s.params.bufCap < len) := by
  have h := hostCommand_fault h
  split at h
  · exact .inl ⟨by simpa using h.symm, ‹_›⟩
  · split at h
    · cases h
    · split at h
      · exact .inr ⟨by simpa using h.symm, ‹_›⟩
      · cases h

/-- `BEGIN_READ` is the one host command with a fault (R116). -/
theorem exec_cmd_fault {i : Instr} {s : State} {r : Fault} (hp : i.port = .cmd) (h : exec i s = .fault r) :
    ∃ a n, i = .beginRead a n ∧
      ((r = .beginWhileBusy ∧ s.master.status = .busy) ∨ (r = .lengthExceedsCapacity ∧ s.params.bufCap < n)) := by
  cases i
  case beginRead addr len => exact ⟨addr, len, rfl, execBeginRead_fault h⟩
  case sendBit => cases hostCommand_fault h
  case sendByte => cases hostCommand_fault h
  case rdStatus => cases hostCommand_fault h
  case rdBuf =>
    have h := hostCommand_fault h
    split at h <;> cases h
  all_goals cases hp

/-- A bus event faults as spurious, with no transaction in flight or as an acknowledge outside the address phase, or as
an overrun of a full buffer (R69, R70, R74). -/
theorem exec_evt_fault {i : Instr} {s : State} {r : Fault} (hp : i.port = .evt) (h : exec i s = .fault r) :
    (r = .spuriousEvent ∧
      (s.master.status ≠ .busy ∨ s.master.status = .busy ∧ i = .evAddrAck ∧ s.master.phase ≠ .addr)) ∨
    (r = .bufferOverrun ∧ s.master.status = .busy ∧ s.params.bufCap ≤ s.master.cnt) := by
  by_cases hb : s.master.status = .busy
  · cases i
    case evAddrAck =>
      by_cases ha : s.master.phase = .addr
      · cases (exec_evAddrAck_addr hb ha).symm.trans h
      · cases (exec_evAddrAck_notAddr hb ha).symm.trans h
        exact .inl ⟨rfl, .inr ⟨hb, rfl, ha⟩⟩
    case evByteRx data =>
      by_cases hfull : s.params.bufCap ≤ s.master.cnt
      · cases (exec_evByteRx_full data hb hfull).symm.trans h
        exact .inr ⟨rfl, hb, hfull⟩
      · cases (exec_evByteRx_room data hb (BitVec.not_le.1 hfull)).symm.trans h
    case evNack => cases (exec_evNack_inFlight hb).symm.trans h
    case evArbLost => cases (exec_evArbLost_inFlight hb).symm.trans h
    case evBusError => cases (exec_evBusError_inFlight hb).symm.trans h
    all_goals cases hp
  · cases (exec_evt_notInFlight hp hb).symm.trans h
    exact .inl ⟨rfl, .inl hb⟩

/-! ### What a fault says of the turn -/

theorem runDecoded_fault {d : Decoded} {s : State} {r : Fault} (h : runDecoded d s = .fault r) :
    ∃ i, d = .instr i ∧ exec i s = .fault r := by
  unfold runDecoded at h
  split at h
  · exact ⟨_, rfl, h⟩
  · cases h
  · cases h

theorem afterCommand_fault {o : Result} {r : Fault} (h : afterCommand o = .fault r) : o = .fault r := by
  cases o
  case next => cases h
  case fault => exact h
  case refused => cases h

theorem hostTurn_fault {s : State} {r : Fault} (h : hostTurn s = .fault r) :
    ∃ w, offered s = some w ∧ runDecoded (decode (.cmd w)) s = .fault r := by
  unfold hostTurn at h
  split at h
  · cases h
  · exact ⟨_, ‹_›, afterCommand_fault h⟩

/-- Everything a step of an unmarked state that faults can have been: a turn of the HOST or of the BUS whose word's
operation faulted. -/
theorem step_fault_cases {s : State} {r : Fault} (ho : s.outcome = .ok) (h : step s = .fault r) :
    (∃ w i, nextTurn s = .host ∧ offered s = some w ∧ decodeCmd w = .instr i ∧ i.port = .cmd ∧
      exec i (beginTurn s) = .fault r) ∨
    (∃ w i, nextTurn s = .bus w ∧ decodeEvt w = .instr i ∧ i.port = .evt ∧ exec i (beginTurn s) = .fault r) := by
  rw [step_ok ho] at h
  cases hn : nextTurn s with
  | host =>
    rw [hn] at h
    obtain ⟨w, hw, hrun⟩ := hostTurn_fault h
    obtain ⟨i, hd, hx⟩ := runDecoded_fault hrun
    exact .inl ⟨w, i, rfl, hw, hd, Laws.decodeCmd_port hd, hx⟩
  | bus w =>
    rw [hn] at h
    obtain ⟨i, hd, hx⟩ := runDecoded_fault h
    exact .inr ⟨w, i, rfl, hd, Laws.decodeEvt_port hd, hx⟩
  | timer w =>
    rw [hn] at h
    rcases Laws.decodeTmr_cases w with ⟨rfl, -⟩ | ⟨rfl, -⟩ <;> cases h
  | encoder =>
    rw [hn] at h
    cases h
  | platform =>
    rw [hn] at h
    cases h

/-! ### A machine with nothing to do -/

/-- An idle ENCODER, or one that waits for an overflow, changes the hold mark at most (R83, R86). -/
theorem microStep_waiting {s : State} (h : s.encoder.step = .idle ∨ (s.encoder.step = .wait ∧ s.timer.ovf = false)) :
    microStep s = s ∨ microStep s = s.hold .awaitOverflow := by
  rcases h with hidle | ⟨hwait, hovf⟩
  · exact .inl (microStep_idle hidle)
  · exact .inr (microStep_held hwait hovf)

end Sys2Proof.Machine

namespace Sys2Proof.Proofs

open Sys2Proof.Machine Sys2Proof.Safety

/-! ### The statements of faults and waits -/

/-- Settles O48: only a `BEGIN_READ` and a bus event can fault. By the invariants a transaction in flight is in the
address or the data phase, and its next byte has room. -/
theorem faultsOnlyAsListed : Obligations.FaultsOnlyAsListed := by
  intro s r hi ho h
  rcases step_fault_cases ho h with ⟨w, i, hn, hw, hd, hp, hx⟩ | ⟨w, i, hn, hd, hp, hx⟩
  · obtain ⟨a, n, rfl, ⟨hr, hb⟩ | ⟨hr, hlen⟩⟩ := exec_cmd_fault hp hx
    · exact .inl ⟨hr, hn, hb, w, a, n, hw, hd⟩
    · exact .inr (.inl ⟨hr, hn, w, a, n, hw, hd, hlen⟩)
  · rcases exec_evt_fault hp hx with ⟨hr, hb | ⟨hb, rfl, hphase⟩⟩ | ⟨-, hb, hfull⟩
    · exact .inr (.inr ⟨hr, w, hn, .inl hb⟩)
    · exact .inr (.inr ⟨hr, w, hn, .inr ⟨hd, (hi.master.flight.1 hb).resolve_left hphase⟩⟩)
    · exact absurd (hi.master.cnt_lt_bufCap hb) (BitVec.not_lt.2 hfull)

/-- Settles O53: with no turn left the step is the ENCODER's, and its micro-step has nothing to do. -/
theorem silentMachineWaits : Obligations.SilentMachineWaits := by
  intro s ho hsched hwait
  obtain ⟨-, -, -, -, -, hstep⟩ := stepRunsTheDecodedOperation s ho
  have hnext : nextTurn s = .encoder := by simp [nextTurn, hsched]
  refine ⟨_, hstep hnext, ?_⟩
  rcases microStep_waiting (s := beginTurn s) hwait with h | h <;> rw [h] <;>
    exact ⟨by simp [hsched], rfl, rfl, rfl, rfl, rfl, ho⟩

end Sys2Proof.Proofs
end

section
/-! PROOFS. Runs along a schedule (10_state.md R96): a turn does not look at the turns after it, so a run of one turn
more is the run so far and one step, and what every step keeps holds at every state a run reaches. -/

namespace Sys2Proof.Safety

open Sys2Proof.Machine

/-! ### A turn does not look at the turns to come -/

/-- No operation of the block looks at the turns to come. -/
theorem exec_setSched {i : Instr} {s t : State} (h : exec i s = .next t) (ts : List Turn) :
    exec i (s.setSched ts) = .next (t.setSched ts) := by
  cases hp : i.port with
  | cmd => exact exec_cmd_setSched hp h ts
  | evt =>
    obtain ⟨m, c, hall⟩ := exec_evt_answers hp h
    cases (hall s rfl rfl).symm.trans h
    exact hall (s.setSched ts) rfl rfl
  | tmr =>
    cases i
    case evOvf =>
      obtain rfl := execEvOvf_next h
      rfl
    all_goals cases hp

theorem runDecoded_setSched {d : Decoded} {s t : State} (h : runDecoded d s = .next t) (ts : List Turn) :
    runDecoded d (s.setSched ts) = .next (t.setSched ts) := by
  rcases runDecoded_next h with ⟨i, rfl, hx⟩ | ⟨rfl, rfl⟩
  · exact exec_setSched hx ts
  · rfl

theorem hostAdvance_setSched (s : State) (ts : List Turn) :
    hostAdvance (s.setSched ts) = (hostAdvance s).setSched ts := by
  simp only [hostAdvance, learnResponse_setSched, State.setSched_host, State.setSched_params, State.setSched_ports]
  split
  · rfl
  · split <;> rfl

theorem hostSilent_setSched (s : State) (ts : List Turn) :
    hostSilent (s.setSched ts) = (hostSilent s).setSched ts := by
  cases hitem : s.host.script[s.host.pos]? with
  | none => rw [hostSilent_of_finished hitem, hostSilent_of_finished (s := s.setSched ts) hitem]
  | some item =>
    rw [hostSilent_of_item hitem, hostSilent_of_item (s := s.setSched ts) hitem]
    cases item
    case superloop =>
      rcases loopStart_cases s with ⟨hp, h⟩ | ⟨hp, h⟩ <;> rw [runSilent, runSilent, h]
      · exact if_pos hp
      · exact if_neg hp
    all_goals rfl

theorem hostTurn_setSched {s t : State} (h : hostTurn s = .next t) (ts : List Turn) :
    hostTurn (s.setSched ts) = .next (t.setSched ts) := by
  rcases hostTurn_next h with ⟨hw, rfl⟩ | ⟨w, u, hw, hrun, ht⟩
  · rw [hostTurn_of_silent (s := s.setSched ts) hw, hostSilent_setSched]
  · rw [hostTurn_of_offered (s := s.setSched ts) hw, runDecoded_setSched hrun, afterCommand, State.setSched_ports,
      hostAdvance_setSched]
    rcases ht with ⟨hnone, rfl⟩ | ⟨hheld, rfl⟩
    · rw [if_pos hnone]
    · rw [if_neg hheld]

/-- No agent's turn looks at the turns to come. -/
theorem takeTurn_setSched {x : Turn} {s t : State} (h : takeTurn x s = .next t) (ts : List Turn) :
    takeTurn x (s.setSched ts) = .next (t.setSched ts) := by
  cases x with
  | host => exact hostTurn_setSched h ts
  | bus w => exact runDecoded_setSched h ts
  | timer w => exact runDecoded_setSched h ts
  | encoder =>
    cases h
    exact congrArg Host.Outcome.next (microStep_setSched s ts)
  | platform =>
    cases h
    rfl

/-- A step that takes the turn `x` is the same step whatever turns follow it. -/
theorem Turns.of_step {x : Turn} {rest : List Turn} {s t : State} (h : step (s.setSched (x :: rest)) = .next t) :
    Turns s [x] t := by
  obtain ⟨ho, hturn⟩ := step_next h
  refine .single fun ts => ?_
  rw [step_ok (s := s.setSched (x :: ts)) ho]
  exact takeTurn_setSched hturn ts

/-! ### A run and one turn more -/

/-- A run of `m + n` steps is a run of `m` and then one of `n`. -/
theorem coreRun_split {M : Host.Core} {s t : M.State} {m n : Nat} (h : M.run (m + n) s = .next t) :
    ∃ u, M.run m s = .next u ∧ M.run n u = .next t := by
  induction m generalizing s with
  | zero => exact ⟨s, rfl, by rwa [Nat.zero_add] at h⟩
  | succ m ih =>
    rw [Nat.add_right_comm] at h
    obtain ⟨v, hv, hrun⟩ := coreRun_succ h
    obtain ⟨u, hu, hrest⟩ := ih hrun
    exact ⟨u, by rw [Host.Core.run, hv]; exact hu, hrest⟩

theorem coreRun_one {M : Host.Core} {s t : M.State} (h : M.step s = .next t) : M.run 1 s = .next t := by
  simp [Host.Core.run, h]

/-- The steps that took the turns `ts` leave the turns after them, and would have done the same before any others. -/
theorem turns_of_coreRun {ts rest : List Turn} {s t : State}
    (h : Host.Core.run core ts.length (s.setSched (ts ++ rest)) = .next t) : Turns s ts t ∧ t.sched = rest := by
  induction ts generalizing s with
  | nil =>
    cases h
    exact ⟨fun _ => rfl, rfl⟩
  | cons x ts ih =>
    obtain ⟨u, hu, hrun⟩ := coreRun_succ h
    obtain ⟨-, -, hsched, -⟩ := Proofs.stepKeepsParametersAndScript _ _ hu
    have hself : u.setSched (ts ++ rest) = u := congrArg u.setSched hsched.symm
    rw [← hself] at hrun
    obtain ⟨hturns, hrest⟩ := ih hrun
    exact ⟨(Turns.of_step hu).append hturns, hrest⟩

theorem turns_of_runSched {ts : List Turn} {s t : State} (h : runSched ts s = .next t) : Turns s ts t := by
  refine (turns_of_coreRun (rest := []) ?_).1
  rwa [List.append_nil]

/-- A run of one turn more is the run so far and one step. -/
theorem runSched_snoc {ts : List Turn} {x : Turn} {s t : State} :
    runSched (ts ++ [x]) s = .next t ↔
      ∃ u, runSched ts s = .next u ∧ step (u.setSched [x]) = .next t := by
  constructor
  · intro h
    rw [runSched, List.length_append] at h
    obtain ⟨u, hu, hstep⟩ := coreRun_split h
    obtain ⟨hturns, hsched⟩ := turns_of_coreRun hu
    obtain ⟨v, hv, hvt⟩ := coreRun_succ hstep
    cases hvt
    refine ⟨u.setSched [], hturns.runSched, ?_⟩
    have hself : (u.setSched []).setSched [x] = u := congrArg u.setSched hsched.symm
    rwa [hself]
  · rintro ⟨u, hu, hstep⟩
    rw [runSched, List.length_append, coreRun_add (turns_of_runSched hu [x])]
    exact coreRun_one (M := core) hstep

theorem prefixOf_succ (ts : Nat → Turn) (n : Nat) : prefixOf ts (n + 1) = prefixOf ts n ++ [ts n] := by
  simp [prefixOf, List.range_succ]

/-! ### The states a run along an infinite schedule reaches -/

/-- The run from `s` along `ts` stands at `u` after `n` turns. -/
def Reaches (ts : Nat → Turn) (s : State) (n : Nat) (u : State) : Prop := runSched (prefixOf ts n) s = .next u

theorem reaches_zero (ts : Nat → Turn) (s : State) : Reaches ts s 0 (s.setSched []) := rfl

theorem reaches_succ {ts : Nat → Turn} {s t : State} {n : Nat} :
    Reaches ts s (n + 1) t ↔ ∃ u, Reaches ts s n u ∧ step (u.setSched [ts n]) = .next t := by
  rw [Reaches, prefixOf_succ, runSched_snoc]
  rfl

/-- What holds at the start, whatever turns are to come, and is kept by every step that takes a turn of the schedule
holds at every state that the run reaches. -/
theorem Reaches.keeps {P : State → Prop} {ts : Nat → Turn} {s u : State} {n : Nat} (h : Reaches ts s n u)
    (sched : ∀ v l, P v → P (v.setSched l))
    (keep : ∀ v t k, nextTurn v = ts k → P v → step v = .next t → P t) (start : P s) : P u := by
  induction n generalizing u with
  | zero =>
    cases h
    exact sched s [] start
  | succ n ih =>
    obtain ⟨v, hv, hstep⟩ := reaches_succ.1 h
    exact keep _ u n rfl (sched v [ts n] (ih hv)) hstep

theorem Reaches.outcome {ts : Nat → Turn} {s u : State} {n : Nat} (h : Reaches ts s n u) (ho : s.outcome = .ok) :
    u.outcome = .ok := by
  refine h.keeps (P := fun v => v.outcome = .ok) (fun _ _ hv => hv) (fun v t _ _ _ hstep => ?_) ho
  obtain ⟨-, -, -, hok⟩ := Proofs.stepKeepsParametersAndScript v t hstep
  exact hok

/-- The invariants do not look at the turns to come. -/
theorem Inv.setSched {s : State} (hi : Inv s) (ts : List Turn) : Inv (s.setSched ts) :=
  ⟨hi.master.congr rfl rfl rfl, hi.encoder.congr rfl⟩

theorem Reaches.inv {ts : Nat → Turn} {s u : State} {n : Nat} (h : Reaches ts s n u) (hi : Inv s) : Inv u :=
  h.keeps (fun _ l hv => hv.setSched l) (fun v t _ _ => Proofs.stepKeepsInvariants v t) hi

end Sys2Proof.Safety
end

section
/-! PROOFS. Reset and hazards (70_reset_and_hazards.md R138 to R150): the commands that respect the hazards, the end of
a run and the two hangs, launched runs, and the progress of a frame under a fair schedule. -/

namespace Sys2Proof.Machine

/-- A host command that respects the hazards answers a next state while the ENCODER is idle (R138 to R141, R143). -/
theorem exec_cmd_hazardFree {i : Instr} {s : State} (hp : i.port = .cmd) (hb : s.encoder.busy = false)
    (hr : Safety.respectsHazards s i = true) : ∃ t, exec i s = .next t := by
  cases i
  case beginRead addr len =>
    simp only [Safety.respectsHazards, Bool.and_eq_true, bne_iff_ne, BitVec.ule_eq_decide, decide_eq_true_eq] at hr
    obtain ⟨⟨hs, h0⟩, hc⟩ := hr
    exact ⟨_, exec_beginRead_accepted addr hb hs h0 hc⟩
  case sendBit => exact ⟨_, hostCommand_idle hb _⟩
  case sendByte => exact ⟨_, hostCommand_idle hb _⟩
  case rdStatus => exact ⟨_, exec_rdStatus_idle hb⟩
  case rdBuf =>
    obtain ⟨x, c, hx, -⟩ := exec_rdBuf_idle hb
    exact ⟨_, hx⟩
  all_goals cases hp

end Sys2Proof.Machine

namespace Sys2Proof.Safety

open Sys2Proof.Machine

/-! ### The end of a run -/

theorem ended_iff {f : Bool} {s : State} :
    ended f s = true ↔
      s.outcome = .ok ∧ s.host.script.length ≤ s.host.pos ∧ s.encoder.busy = false ∧
        (f = true ∨ s.master.status ≠ .busy) := by
  simp [ended, State.inFlight, and_assoc]

/-- A state that ends a run without a transaction in flight ends it for a claim that allows one. -/
theorem ended_true_of_ended {f : Bool} {s : State} (h : ended f s = true) : ended true s = true := by
  obtain ⟨ho, hpos, hb, -⟩ := ended_iff.1 h
  exact ended_iff.2 ⟨ho, hpos, hb, .inl rfl⟩

/-- No state before the end of a run can end it. -/
theorem EndOfRun.le {f : Bool} {ts : Nat → Turn} {s t u : State} {n m : Nat} (h : EndOfRun f ts s n t)
    (hu : Reaches ts s m u) (hend : ended f u = true) : n ≤ m := by
  by_contra hlt
  have hnot : ended f u = false := h.first m u (Nat.not_le.1 hlt) hu
  simp [hend] at hnot

/-- A run that reaches a state that can end it has an end, the first of these. -/
theorem exists_endOfRun {f : Bool} {ts : Nat → Turn} {s t : State} {n : Nat} (h : Reaches ts s n t)
    (hend : ended f t = true) : ∃ m u, m ≤ n ∧ EndOfRun f ts s m u := by
  classical
  have hex : ∃ m u, Reaches ts s m u ∧ ended f u = true := ⟨n, t, h, hend⟩
  obtain ⟨u, hu, hendu⟩ := Nat.find_spec hex
  refine ⟨Nat.find hex, u, Nat.find_min' hex ⟨t, h, hend⟩, hu, hendu, fun m v hm hv => ?_⟩
  exact eq_false_of_ne_true fun hendv => Nat.find_min hex hm ⟨v, hv, hendv⟩

/-! ### The two hangs -/

/-- Without a bus event and a reset a transaction stays in flight (R118 (a), R142). -/
theorem Reaches.inFlight {ts : Nat → Turn} {s u : State} {n : Nat} (h : Reaches ts s n u)
    (hbus : ∀ k w, ts k ≠ .bus w) (hrst : ∀ k, ts k ≠ .platform) (hb : s.master.status = .busy) :
    u.master.status = .busy := by
  obtain ⟨keep, -⟩ := Proofs.onlyBusEventsEndATransaction
  refine h.keeps (P := fun v => v.master.status = .busy) (fun _ _ hv => hv) (fun v t k hn hv hstep => ?_) hb
  rw [keep v t hv (fun w => hn ▸ hbus k w) (hn ▸ hrst k) hstep]
  exact hv

/-- The ENCODER sends, and no overflow has come since its last `S_CLEAR`. -/
structure AwaitsOverflow (s : State) : Prop where
  busy : s.encoder.busy = true
  ovf : s.timer.ovf = false

/-- A micro-step ends no half-slot while the flag is clear (R84 to R86). -/
theorem AwaitsOverflow.microStep {s : State} (h : AwaitsOverflow s) : AwaitsOverflow (microStep s) := by
  rcases microStep_cases s with ⟨-, hm⟩ | ⟨-, hm⟩ | ⟨-, hm⟩ | ⟨-, -, hm⟩ | ⟨-, hf, -⟩
  · rwa [hm]
  · rw [hm]
    exact ⟨h.busy, rfl⟩
  · rw [hm]
    exact ⟨h.busy, h.ovf⟩
  · rw [hm]
    exact ⟨h.busy, h.ovf⟩
  · cases h.ovf.symm.trans hf

/-- Without an overflow and a reset a transmission never ends (R118 (b)). -/
theorem Reaches.awaitsOverflow {ts : Nat → Turn} {s u : State} {n : Nat} (h : Reaches ts s n u)
    (hovf : ∀ k, ts k ≠ .timer 1) (hrst : ∀ k, ts k ≠ .platform) (hs : AwaitsOverflow s) :
    AwaitsOverflow u := by
  refine h.keeps (fun _ _ hv => ⟨hv.busy, hv.ovf⟩) (fun v t k hn hv hstep => ?_) hs
  rcases step_encoder_busy hv.busy (hn ▸ hrst k) hstep with hk | ⟨ht, -⟩ | rfl
  · exact ⟨by rw [hk.encoder, hv.busy], by rw [hk.timer, hv.ovf]⟩
  · exact absurd (hn.symm.trans ht) (hovf k)
  · exact AwaitsOverflow.microStep ⟨hv.busy, hv.ovf⟩

/-! ### Launched runs -/

/-- The launch premises start from an unmarked state (R150). -/
theorem LaunchPremises.outcome {ts : Nat → Turn} {s : State} (h : LaunchPremises ts s) : s.outcome = .ok :=
  h.start.elim ResetState.outcome IdleState.outcome

/-- An event turn that keeps the contract carries the word of an event that the contract allows (R76). -/
theorem busMay_of_keepsContract {s : State} {w : EvtWord} (h : keepsContract s (.bus w) = true) :
    ∃ i, decodeEvt w = .instr i ∧ busMay s i = true := by
  cases hd : decodeEvt w with
  | instr i => exact ⟨i, rfl, by simpa [keepsContract, hd] using h⟩
  | error e => simp [keepsContract, hd] at h

theorem busMay_beginTurn (s : State) (i : Instr) : busMay (beginTurn s) i = busMay s i := by
  cases i <;> rfl

/-- From a state that meets the invariants an event that the contract allows is handled (R76). -/
theorem step_bus_handled {s : State} {w : EvtWord} (ho : s.outcome = .ok) (hi : Inv s) (hn : nextTurn s = .bus w)
    (hc : keepsContract s (.bus w) = true) : ∃ t, step s = .next t := by
  obtain ⟨i, hd, hmay⟩ := busMay_of_keepsContract hc
  have hbegin : Inv (beginTurn s) := ⟨hi.master.congr rfl rfl rfl, hi.encoder.congr rfl⟩
  obtain ⟨t, ht⟩ := Proofs.contractEventsAreHandled (beginTurn s) i hbegin ((busMay_beginTurn s i).trans hmay)
  obtain ⟨-, -, hbus, -⟩ := Proofs.stepRunsTheDecodedOperation s ho
  exact ⟨t, (hbus w i hn hd).trans ht⟩

/-! ### The progress of a frame

Under a fair schedule a measure of what is left of the frame falls: no turn raises it, and the one turn that the
half-slot needs next, an overflow or a micro-step, lowers it. -/

/-- What is left of the current half-slot: `S_CLEAR`, `S_PROG`, the overflow, the release (R87). -/
def halfSlotLeft (s : State) : Nat :=
  match s.encoder.step with
  | .idle => 0
  | .clear => 3
  | .prog => 2
  | .wait => if s.timer.ovf then 0 else 1

/-- What is left of the frame, of at most sixteen half-slots of four turns each (R80, R87). -/
def frameLeft (s : State) : Nat := 4 * (16 - sentLevels s.encoder) + halfSlotLeft s

/-- The turn that the half-slot needs next (R86, R146). -/
def neededTurn (s : State) : Turn :=
  if s.encoder.step = .wait ∧ s.timer.ovf = false then .timer 1 else .encoder

/-- From `s` to `t` the frame was moved on: it has ended, or less of it is left. -/
def FrameMovedOn (s t : State) : Prop := t.encoder.busy = false ∨ frameLeft t < frameLeft s

/-- From `s` to `t` the frame stands still. -/
structure FrameStands (s t : State) : Prop where
  busy : t.encoder.busy = s.encoder.busy
  left : frameLeft t = frameLeft s
  needed : neededTurn t = neededTurn s

/-- What is left of a frame, and what it needs, are the ENCODER's and the timer's alone. -/
theorem FrameStands.of_eq {s t : State} (he : t.encoder = s.encoder) (ht : t.timer = s.timer) : FrameStands s t := by
  refine ⟨by rw [he], ?_, ?_⟩
  · rw [frameLeft, halfSlotLeft, he, ht]
    rfl
  · rw [neededTurn, he, ht]
    rfl

section
variable {s t : State}

/-- Less is left of the frame when less is left of the same half-slot. -/
theorem frameLeft_lt (hsent : sentLevels t.encoder = sentLevels s.encoder) (h : halfSlotLeft t < halfSlotLeft s) :
    frameLeft t < frameLeft s := by
  rw [frameLeft, frameLeft, hsent]
  exact Nat.add_lt_add_left h _

/-- At the start of the frame's next half-slot nothing of the one before it is left (R86). -/
theorem frameLeft_toHalfSlot {b : BitVec 3} {half : Bool}
    (hnext : 2 * b.toNat + half.toNat = sentLevels s.encoder + 1) :
    frameLeft (s.toHalfSlot b half) + 1 = 4 * (16 - sentLevels s.encoder) := by
  have hsent : sentLevels (s.toHalfSlot b half).encoder = sentLevels s.encoder + 1 := (sentLevels_eq _).trans hnext
  have hclear : halfSlotLeft (s.toHalfSlot b half) = 3 := rfl
  have hhalf := half.toNat_le
  rw [frameLeft, hsent, hclear]
  omega

/-- The end of a half-slot moves to the frame's next one or ends the frame (R86). -/
theorem frameLeft_nextHalfSlot (hi : EncoderInv s) :
    (nextHalfSlot s).encoder.busy = false ∨ frameLeft (nextHalfSlot s) < 4 * (16 - sentLevels s.encoder) := by
  rcases nextHalfSlot_cases s with ⟨hh, hn⟩ | ⟨hh, hr, hn⟩ | ⟨-, -, hn⟩ <;> rw [hn]
  · refine .inr (Nat.lt_of_succ_le (frameLeft_toHalfSlot ?_).le)
    rw [sentLevels_eq, hh]
    rfl
  · refine .inr (Nat.lt_of_succ_le (frameLeft_toHalfSlot ?_).le)
    have hle : s.encoder.nbits.toNat ≤ 8 := by rcases hi.nbits with hn | hn <;> simp [hn]
    have hidx : (s.encoder.bitIdx + 1).toNat = s.encoder.bitIdx.toNat + 1 := by bv_omega
    rw [sentLevels_eq, hh, hidx]
    rfl
  · exact .inl rfl

/-- A micro-step moves the frame of a busy ENCODER on, or is the hold that waits for an overflow (R84 to R86). -/
theorem microStep_frame (hi : EncoderInv s) (hb : s.encoder.busy = true) :
    FrameMovedOn s (microStep s) ∨ (neededTurn s = .timer 1 ∧ FrameStands s (microStep s)) := by
  rcases microStep_cases s with ⟨hs, -⟩ | ⟨hs, hm⟩ | ⟨hs, hm⟩ | ⟨hs, hf, hm⟩ | ⟨hs, hf, hm⟩
  · simp [hi.busyStep.2 hs] at hb
  · rw [hm]
    exact .inl (.inr (frameLeft_lt rfl (by simp [halfSlotLeft, hs])))
  · rw [hm]
    exact .inl (.inr (frameLeft_lt rfl (by cases hf : s.timer.ovf <;> simp [halfSlotLeft, hs, hf])))
  · exact .inr ⟨if_pos ⟨hs, hf⟩, hm ▸ .of_eq rfl rfl⟩
  · have hleft : frameLeft s = 4 * (16 - sentLevels s.encoder) := by simp [frameLeft, halfSlotLeft, hs, hf]
    rw [FrameMovedOn, hm, hleft]
    exact .inl (frameLeft_nextHalfSlot (s := (s.setOvf false).appendLine s.encoder.line) (hi.congr rfl))

/-- An overflow moves the frame on where it is needed, and is nothing to it elsewhere (R82, R86). -/
theorem overflow_frame (s : State) :
    FrameMovedOn s (s.setOvf true) ∨ (neededTurn s = .encoder ∧ FrameStands s (s.setOvf true)) := by
  by_cases hw : s.encoder.step = .wait
  · cases hf : s.timer.ovf with
    | false => exact .inl (.inr (frameLeft_lt rfl (by simp [halfSlotLeft, hw, hf])))
    | true => exact .inr ⟨by simp [neededTurn, hf], by rw [setOvf_self hf]; exact .of_eq rfl rfl⟩
  · have hneeded : ∀ f, neededTurn (s.setOvf f) = .encoder := fun f => if_neg fun h => hw h.1
    have hleft : halfSlotLeft (s.setOvf true) = halfSlotLeft s := by
      cases hs : s.encoder.step with
      | wait => exact absurd hs hw
      | _ => simp [halfSlotLeft, hs]
    exact .inr ⟨hneeded s.timer.ovf, rfl, congrArg (4 * (16 - sentLevels s.encoder) + ·) hleft,
      (hneeded true).trans (hneeded s.timer.ovf).symm⟩

theorem FrameStands.trans {u : State} (h : FrameStands s u) (h' : FrameStands u t) : FrameStands s t :=
  ⟨h'.busy.trans h.busy, h'.left.trans h.left, h'.needed.trans h.needed⟩

/-- A frame that was moved on stays so while it stands. -/
theorem FrameMovedOn.stands {u : State} (h : FrameMovedOn s u) (h' : FrameStands u t) : FrameMovedOn s t := by
  rwa [FrameMovedOn, h'.busy, h'.left]

theorem FrameStands.movedOn {u : State} (h : FrameStands s u) (h' : FrameMovedOn u t) : FrameMovedOn s t := by
  rwa [FrameMovedOn, ← h.left]

/-- Of the turns that can be next while a frame is being sent each moves the frame on or leaves it where it is. -/
theorem step_frame (hi : EncoderInv s) (hb : s.encoder.busy = true) (hn : nextTurn s ≠ .platform)
    (h : step s = .next t) : FrameMovedOn s t ∨ FrameStands s t := by
  rcases step_encoder_busy hb hn h with hk | ⟨-, hk⟩ | rfl
  · exact .inr (.of_eq hk.encoder hk.timer)
  · rcases overflow_frame s with hon | ⟨-, hstands⟩
    · exact .inl (hon.stands (.of_eq hk.encoder hk.timer))
    · exact .inr (hstands.trans (.of_eq hk.encoder hk.timer))
  · rcases microStep_frame (s := beginTurn s) (hi.congr rfl) hb with hon | ⟨-, hstands⟩
    · exact .inl hon
    · exact .inr ⟨hstands.busy, hstands.left, hstands.needed⟩

/-- The turn that the half-slot needs moves the frame on (R87). -/
theorem step_needed_frame (hi : EncoderInv s) (hb : s.encoder.busy = true) (hn : nextTurn s = neededTurn s)
    (h : step s = .next t) : FrameMovedOn s t := by
  obtain ⟨ho, -⟩ := step_next h
  obtain ⟨-, -, -, htimer, -, hmicro⟩ := Proofs.stepRunsTheDecodedOperation s ho
  by_cases hw : s.encoder.step = .wait ∧ s.timer.ovf = false
  · have hneeded : neededTurn s = .timer 1 := if_pos hw
    cases (htimer (hn.trans hneeded)).symm.trans h
    rcases overflow_frame (beginTurn s) with hon | ⟨hother, -⟩
    · exact hon
    · cases hneeded.symm.trans hother
  · have hneeded : neededTurn s = .encoder := if_neg hw
    cases (hmicro (hn.trans hneeded)).symm.trans h
    rcases microStep_frame (s := beginTurn s) (hi.congr rfl) hb with hon | ⟨hother, -⟩
    · exact hon
    · cases hneeded.symm.trans hother

theorem step_keeps_encoderInv (hi : EncoderInv s) (h : step s = .next t) : EncoderInv t :=
  step_keeps h (hi.congr rfl) (fun _ _ _ hu => hu.congr rfl) (fun _ _ _ => exec_keeps_encoderInv)
    (fun _ => microStep_keeps_encoderInv) (fun _ => (resetState_resetOp _).inv.encoder)

end

theorem Reaches.encoderInv {ts : Nat → Turn} {s u : State} {n : Nat} (h : Reaches ts s n u) (hi : EncoderInv s) :
    EncoderInv u :=
  h.keeps (fun _ _ hv => hv.congr rfl) (fun _ _ _ _ => step_keeps_encoderInv) hi

/-! ### Frames under a fair schedule -/

/-- The turn that the half-slot needs comes again and again (R146). -/
theorem Fair.needed {ts : Nat → Turn} (h : Fair ts) (s : State) (n : Nat) : ∃ k, ts (n + k) = neededTurn s := by
  have hex : ∃ m, n ≤ m ∧ ts m = neededTurn s := by
    by_cases hw : s.encoder.step = .wait ∧ s.timer.ovf = false
    · rw [neededTurn, if_pos hw]
      exact h.timer n
    · rw [neededTurn, if_neg hw]
      exact h.encoder n
  obtain ⟨m, hle, hm⟩ := hex
  exact ⟨m - n, by rwa [Nat.add_sub_cancel' hle]⟩

/-- A run that never stops goes on from every state it reaches. -/
theorem Reaches.next {ts : Nat → Turn} {s u : State} {n : Nat} (hu : Reaches ts s n u)
    (hruns : ∀ n, ∃ t, Reaches ts s n t) :
    ∃ t, Reaches ts s (n + 1) t ∧ step (u.setSched [ts n]) = .next t := by
  obtain ⟨t, ht⟩ := hruns (n + 1)
  obtain ⟨v, hv, hstep⟩ := reaches_succ.1 ht
  cases hu.symm.trans hv
  exact ⟨t, ht, hstep⟩

section
variable {ts : Nat → Turn} {s : State} (hi : EncoderInv s) (hrst : ∀ n, ts n ≠ .platform)
  (hruns : ∀ n, ∃ t, Reaches ts s n t)
include hi hrst hruns

/-- When the turn that the half-slot needs has come, the frame has been moved on. -/
theorem Reaches.movesOn {k n : Nat} {u : State} (hu : Reaches ts s n u) (hb : u.encoder.busy = true)
    (hk : ts (n + k) = neededTurn u) : ∃ m t, Reaches ts s m t ∧ FrameMovedOn u t := by
  induction k generalizing n u with
  | zero =>
    obtain ⟨t, ht, hstep⟩ := hu.next hruns
    exact ⟨n + 1, t, ht, step_needed_frame (s := u.setSched [ts n]) ((hu.encoderInv hi).congr rfl) hb hk hstep⟩
  | succ k ih =>
    obtain ⟨t, ht, hstep⟩ := hu.next hruns
    rcases step_frame (s := u.setSched [ts n]) ((hu.encoderInv hi).congr rfl) hb (hrst n) hstep with hon | hst
    · exact ⟨n + 1, t, ht, hon⟩
    · have hstands : FrameStands u t := ⟨hst.busy, hst.left, hst.needed⟩
      have hkt : ts (n + 1 + k) = neededTurn t := by rw [Nat.add_right_comm, Nat.add_assoc, hk, hstands.needed]
      obtain ⟨m, v, hv, hon⟩ := ih ht (hstands.busy.trans hb) hkt
      exact ⟨m, v, hv, hstands.movedOn hon⟩

/-- A frame is moved on until it has ended, since what is left of it cannot fall for ever (R146). -/
theorem Reaches.comesToIdle (hfair : Fair ts) {n : Nat} {u : State} (hu : Reaches ts s n u) :
    ∃ m t, Reaches ts s m t ∧ t.encoder.busy = false := by
  induction hleft : frameLeft u using Nat.strong_induction_on generalizing n u with
  | _ left ih =>
    cases hb : u.encoder.busy with
    | false => exact ⟨n, u, hu, hb⟩
    | true =>
      obtain ⟨k, hk⟩ := hfair.needed u n
      obtain ⟨m, t, ht, hidle | hlt⟩ := hu.movesOn hi hrst hruns hb hk
      · exact ⟨m, t, ht, hidle⟩
      · exact ih _ (hleft ▸ hlt) ht rfl

end

end Sys2Proof.Safety

namespace Sys2Proof.Proofs

open Sys2Proof.Machine Sys2Proof.Safety

/-! ### The statements of reset and hazards -/

/-- Settles O13: the hazards keep each command from its stops, and only a busy ENCODER holds one. -/
theorem hazardFreeCommandsAreAccepted : Obligations.HazardFreeCommandsAreAccepted := by
  intro s i hp hb hheld hr
  obtain ⟨t, ht⟩ := exec_cmd_hazardFree hp hb hr
  exact ⟨t, ht, (held_of_exec_cmd_idle hp hb ht).trans hheld⟩

/-- Settles O38: fairness brings the turn that the frame needs next, again and again, until nothing of it is left. -/
theorem fairSchedulesCompleteEveryFrame : Obligations.FairSchedulesCompleteEveryFrame := by
  intro s ts hi _ hfair hrst hruns
  exact (reaches_zero ts s).comesToIdle hi hrst hruns hfair

/-- Settles O59: an end is the first state of its kind, and each hang keeps what no end allows: a transaction in flight,
or a busy ENCODER. -/
theorem runsEndOnceAndHangsNever : Obligations.RunsEndOnceAndHangsNever := by
  refine ⟨?_, ?_, ?_, ?_⟩
  · intro f ts s n m t u hn hm
    obtain rfl : n = m := Nat.le_antisymm (hn.le hm.reached hm.final) (hm.le hn.reached hn.final)
    cases hn.reached.symm.trans hm.reached
    exact ⟨rfl, rfl⟩
  · intro ts s n t h
    exact exists_endOfRun h.reached (ended_true_of_ended h.final)
  · intro ts s n t hb hbus hrst h
    obtain ⟨-, -, -, hflight⟩ := ended_iff.1 h.final
    have hbusy : t.master.status = .busy := Reaches.inFlight h.reached hbus hrst hb
    simp [hbusy] at hflight
  · intro f ts s n t _ hb hovf hnoOvf hrst h
    obtain ⟨-, -, hidle, -⟩ := ended_iff.1 h.final
    have hwaits : AwaitsOverflow t := Reaches.awaitsOverflow h.reached hnoOvf hrst ⟨hb, hovf⟩
    cases hidle.symm.trans hwaits.busy

/-- Settles O60: the reached state meets the invariants and is unmarked, so the event that the contract allows is
handled. -/
theorem launchedRunsHandleEveryEvent : Obligations.LaunchedRunsHandleEveryEvent := by
  intro ts s u n w hl hi hu hw
  have hreach : Reaches ts s n u := hu
  have hcontract : keepsContract u (ts n) = true := hl.boot.contract n u hu
  rw [hw] at hcontract
  obtain ⟨t, ht⟩ := step_bus_handled (s := u.setSched [.bus w]) (hreach.outcome hl.outcome)
    ((hreach.inv hi).setSched _) rfl hcontract
  exact ⟨t, reaches_succ.2 ⟨u, hreach, by rwa [hw]⟩⟩

end Sys2Proof.Proofs
end

section
/-! PROOFS. Words written out from the encoding tables, the fields of a packed word as numbers, and an operation's word
placed for the next step (log entry 17). -/

namespace Sys2Proof.Laws

/-! ### Packed words as numbers -/

/-- The high part of a packed word counts in units of the low part's size. -/
theorem toNat_append_eq {m n : Nat} (x : BitVec m) (y : BitVec n) :
    (x ++ y).toNat = x.toNat * 2 ^ n + y.toNat := by
  rw [BitVec.toNat_append, ← Nat.shiftLeft_add_eq_or_of_lt y.isLt, Nat.shiftLeft_eq]

/-! ### The port of a decoded operation -/

/-- What a word decodes to arrives on the word's port (R59). -/
theorem decode_port {p : PortWord} {i : Instr} (h : decode p = .instr i) : i.port = p.port := by
  cases p with
  | cmd w => exact decodeCmd_port h
  | evt w => exact decodeEvt_port h
  | tmr w =>
    rcases decodeTmr_cases w with ⟨-, hd⟩ | ⟨-, hd⟩
    · cases hd.symm.trans h
      rfl
    · cases hd.symm.trans h

/-- A table word is an operation's when its port word decodes to it. -/
theorem decodeTableWord_eq_some {nbits w : Nat} {i : Instr} (h : decodeTableWord nbits w = some i) :
    ∃ p, portWordOf nbits w = some p ∧ decode p = .instr i := by
  obtain ⟨p, hp, hi⟩ := Option.bind_eq_some_iff.1 h
  refine ⟨p, hp, ?_⟩
  cases hd : decode p with
  | instr j =>
    rw [hd] at hi
    cases hi
    rfl
  | error e =>
    rw [hd] at hi
    cases hi

end Sys2Proof.Laws

namespace Sys2Proof.Machine

theorem addressByte_toNat (addr : BitVec 7) : (addressByte addr).toNat = addr.toNat * 2 + 1 :=
  Laws.toNat_append_eq addr 1#1

/-! ### A placed word -/

theorem State.withFetchWord_of_portWord {nbits w : Nat} {p : PortWord} (h : portWordOf nbits w = some p) (s : State) :
    s.withFetchWord nbits w = placeWord s p := by
  rw [State.withFetchWord, h]

@[simp] theorem placeWord_outcome (s : State) (p : PortWord) : (placeWord s p).outcome = s.outcome := by
  cases p <;> rfl

/-- The HOST stands at the placed command, wherever in its script it stood before (log entry 17). -/
theorem placeCommand_item (s : State) (w : CmdWord) :
    (placeCommand s w).host.script[(placeCommand s w).host.pos]? = some (.word w) := by
  simp [placeCommand]

theorem offered_placeWord_cmd (s : State) (w : CmdWord) : offered (placeWord s (.cmd w)) = some w :=
  offered_of_item (s := placeWord s (.cmd w)) (placeCommand_item s w)

/-- The next step of an unmarked state takes the placed word: the turn is its agent's. -/
theorem step_placeWord {s : State} {p : PortWord} {i : Instr} (ho : s.outcome = .ok) (hd : decode p = .instr i) :
    step (placeWord s p) =
      if p.port = .cmd then afterCommand (exec i (beginTurn (placeWord s p)))
      else exec i (beginTurn (placeWord s p)) := by
  have ho' : (placeWord s p).outcome = .ok := (placeWord_outcome s p).trans ho
  cases p with
  | cmd w =>
    obtain ⟨hcommand, -⟩ := Proofs.stepRunsTheDecodedOperation _ ho'
    exact hcommand w i rfl (offered_placeWord_cmd s w) hd
  | evt w =>
    obtain ⟨-, -, hevent, -⟩ := Proofs.stepRunsTheDecodedOperation _ ho'
    exact hevent w i rfl hd
  | tmr w =>
    have hturn : nextTurn (placeWord s (.tmr w)) = .timer w := rfl
    rw [step_ok ho', hturn, takeTurn, timerTurn, hd, runDecoded]
    rfl

end Sys2Proof.Machine

namespace Sys2Proof.Proofs

open Sys2Proof.Machine Sys2Proof.Safety

/-! ### The statements of the encoding tables, the packings and the placed word -/

/-- Settles O4: each of the words is the encoding of the operation that its table names. -/
theorem writtenWordsDecode : Obligations.WrittenWordsDecode := by
  refine ⟨?_, ?_, ?_, ?_, ?_, ?_, ?_, ?_, ?_, ?_, ?_, ?_⟩ <;> exact Laws.decode_of_encode_eq rfl

/-- Settles O6: the read bit is the low bit below the address, and a `BEGIN_READ` that is not held answers a next state
only by emitting the start command (R62, R66; log entry 13). -/
theorem addressByteIsShiftedWithReadBit : Obligations.AddressByteIsShiftedWithReadBit := by
  refine ⟨addressByte_toNat, ?_, rfl, rfl, rfl⟩
  intro s t addr len hb h
  rcases execBeginRead_next h with ⟨hbusy, -⟩ | ⟨-, -, -, -, rfl⟩
  · cases hb.symm.trans hbusy
  · rfl

/-- Settles O7: each field of `E_CTL` starts where the widths of the fields below it end (R31). -/
theorem encoderControlPacking : Obligations.EncoderControlPacking := by
  intro e
  simp only [encoderControl, Laws.toNat_append_eq, BitVec.toNat_ofBool]
  omega

/-- Settles O52: the placed word's turn is the next one, its HOST offers it, and its port is its operation's (log entry
17). -/
theorem placedWordRunsNext : Obligations.PlacedWordRunsNext := by
  intro s nbits w i ho h
  obtain ⟨p, hp, hd⟩ := Laws.decodeTableWord_eq_some h
  rw [State.withFetchWord_of_portWord hp, Laws.decode_port hd]
  exact step_placeWord ho hd

end Sys2Proof.Proofs
end
